-- ==== Sys2Proof/Word.lean ====
section
/-! DEFINITION. The word types of the machine: 00_scope R3 and R4 (8-bit data, 16-bit addresses), and the identifiers
that the Memory and the wires give their parts. -/

namespace Sys2Proof

/-- `u8` of R4: a register or memory byte. -/
abbrev Byte := BitVec 8

/-- `u16` of R4: an address or a 16-bit quantity. -/
abbrev Addr := BitVec 16

/-- The `id` that identifies a bank among the installed banks (R44). -/
abbrev BankId := Nat

/-- "Independently owned objects addressed by identifier": a wire (R230). -/
abbrev WireId := Nat

/-- The handle of a source or sink endpoint of a wire (R230). -/
abbrev EndpointId := Nat

/-- The descriptive kind that a handler's fault carries (R53, R262). -/
abbrev BusErrorKind := String

/-- The state of everything behind the callbacks (R28, R52: an oracle "with its own state"); log 6. -/
abbrev World := Nat

/-- A value of a wire: its width, 1 bit or 8 bits, is part of it (R22, R230, R232). -/
inductive Signal where
  | bit (b : Bool)
  | byte (v : Byte)
deriving DecidableEq, Repr, Inhabited

end Sys2Proof
end

