-- ==== Sys2Proof/Machine/Bits.lean ====
section
/-! DEFINITION. The bit-field, byte-order and sign-extension helpers of 00_scope R4. -/

namespace Sys2Proof.Machine

/-- `lo(w)` = `w[7:0]` (R4). -/
def lo (w : Addr) : Byte := w.setWidth 8

/-- `hi(w)` = `w[15:8]` (R4). -/
def hi (w : Addr) : Byte := (w >>> 8).setWidth 8

/-- `{h, l}` = h * 256 + l (R4). -/
def cat (h l : Byte) : Addr := (h.setWidth 16 <<< 8) ||| l.setWidth 16

/-- `zext_16(b)` (R4). -/
def zext16 (b : Byte) : Addr := b.setWidth 16

/-- `sext_16(b)`: `b` if `b[7]` = 0 and `0xFF00 + b` if `b[7]` = 1 (R4). -/
def sext16 (b : Byte) : Addr := if b.getLsbD 7 then 0xFF00#16 + b.setWidth 16 else b.setWidth 16

/-- The zero-page address `{0x00, b}` (R75, R85). -/
def zeroPage (b : Byte) : Addr := zext16 b

/-- The stack location `0x0100 | SP` that `SP` designates (R11, R58). -/
def stackAddr (sp : Byte) : Addr := 0x0100#16 ||| zext16 sp

/-- `b + i >= 256`: the low-byte sum of an indexed address carries into the page (R79, R80, R83). -/
def carries (b i : Byte) : Bool := decide (256 ≤ b.toNat + i.toNat)

/-- Bit `i` of a byte, `v[i]` (R4). -/
def bitAt (v : Byte) (i : Nat) : Bool := v.getLsbD i

/-- A boolean as a bit: false = 0, true = 1 (R4). -/
def bitByte (b : Bool) : Byte := if b then 1#8 else 0#8

end Sys2Proof.Machine
end

