-- ==== Sys2Proof/Syntax.lean ====
section
/-! DEFINITION. The instructions as syntax: 30_encoding R70 to R90. One constructor for each mnemonic of
spec/opcode_table.json, its row (the addressing mode) and operand bytes as its argument; `ill` is the one instruction ILL of
the 105 illegal bytes (R87, R180). -/

namespace Sys2Proof

/-- The addressing modes of the read class (R223) with their operand: R74 to R77, R78 to R80, R82, R83. -/
inductive ReadMode where
  | imm (v : Byte)
  | zp (z : Byte)
  | zpx (z : Byte)
  | zpy (z : Byte)
  | abs (a : Addr)
  | abx (a : Addr)
  | aby (a : Addr)
  | izx (z : Byte)
  | izy (z : Byte)
deriving DecidableEq, Repr, Inhabited

/-- The addressing modes of the write class (R223): as the read class without the immediate. -/
inductive WriteMode where
  | zp (z : Byte)
  | zpx (z : Byte)
  | zpy (z : Byte)
  | abs (a : Addr)
  | abx (a : Addr)
  | aby (a : Addr)
  | izx (z : Byte)
  | izy (z : Byte)
deriving DecidableEq, Repr, Inhabited

/-- The addressing modes of the read-modify-write class (R223). -/
inductive RmwMode where
  | zp (z : Byte)
  | zpx (z : Byte)
  | abs (a : Addr)
  | abx (a : Addr)
deriving DecidableEq, Repr, Inhabited

/-- The operand of a shift or rotate: the accumulator (R73) or memory. -/
inductive ShiftMode where
  | acc
  | mem (m : RmwMode)
deriving DecidableEq, Repr, Inhabited

/-- The operand of JMP: ABS (R78) or IND (R81). -/
inductive JumpMode where
  | abs (a : Addr)
  | ind (p : Addr)
deriving DecidableEq, Repr, Inhabited

/-- The 57 instructions of the opcode table. -/
inductive Instr where
  -- loads and stores (R100 to R105)
  | lda (m : ReadMode)
  | ldx (m : ReadMode)
  | ldy (m : ReadMode)
  | sta (m : WriteMode)
  | stx (m : WriteMode)
  | sty (m : WriteMode)
  -- transfers and stack (R110 to R119)
  | tax
  | tay
  | txa
  | tya
  | tsx
  | txs
  | pha
  | php
  | pla
  | plp
  -- arithmetic and compare (R120 to R124)
  | adc (m : ReadMode)
  | sbc (m : ReadMode)
  | cmp (m : ReadMode)
  | cpx (m : ReadMode)
  | cpy (m : ReadMode)
  -- logic (R130 to R133); `and` and `bit` end in the letter of the operation they name
  | and (m : ReadMode)
  | ora (m : ReadMode)
  | eor (m : ReadMode)
  | bit (m : ReadMode)
  -- shifts, increments, decrements (R140 to R149)
  | asl (m : ShiftMode)
  | lsr (m : ShiftMode)
  | rol (m : ShiftMode)
  | ror (m : ShiftMode)
  | inc (m : RmwMode)
  | dec (m : RmwMode)
  | inx
  | iny
  | dex
  | dey
  -- control transfer (R150 to R160)
  | jmp (m : JumpMode)
  | jsr (target : Addr)
  | rts
  | bcc (rel : Byte)
  | bcs (rel : Byte)
  | beq (rel : Byte)
  | bne (rel : Byte)
  | bmi (rel : Byte)
  | bpl (rel : Byte)
  | bvc (rel : Byte)
  | bvs (rel : Byte)
  -- flags and system (R170 to R180)
  | clc
  | sec
  | cli
  | sei
  | cld
  | sed
  | clv
  | nop
  | brk
  | rti
  | ill (opcode : Byte)
deriving DecidableEq, Repr, Inhabited

/-! ## What an opcode byte says

`Op` is an instruction without its operand bytes: what one cell of the opcode map of R86 names. The cycle level
(47_cycle_sequences R223) chooses its sequence from it. -/

/-- The read class of R223. -/
inductive ReadOp where
  | lda | ldx | ldy | adc | sbc | cmp | cpx | cpy | and | ora | eor | bit
deriving DecidableEq, Repr, Inhabited

/-- The write class of R223. -/
inductive WriteOp where
  | sta | stx | sty
deriving DecidableEq, Repr, Inhabited

/-- The four mnemonics that have an accumulator form (R73). -/
inductive ShiftOp where
  | asl | lsr | rol | ror
deriving DecidableEq, Repr, Inhabited

/-- The RMW class of R223. -/
inductive RmwOp where
  | shift (o : ShiftOp) | inc | dec
deriving DecidableEq, Repr, Inhabited

/-- The implied instructions of two cycles (R223, last paragraph). -/
inductive ImpliedOp where
  | tax | tay | txa | tya | tsx | txs | inx | iny | dex | dey | clc | sec | cli | sei | cld | sed | clv | nop
deriving DecidableEq, Repr, Inhabited

/-- The eight branches (R153 to R160). -/
inductive BranchOp where
  | bcc | bcs | beq | bne | bmi | bpl | bvc | bvs
deriving DecidableEq, Repr, Inhabited

/-- The two pushes (R116, R117). -/
inductive PushOp where
  | pha | php
deriving DecidableEq, Repr, Inhabited

/-- The two pulls (R118, R119). -/
inductive PullOp where
  | pla | plp
deriving DecidableEq, Repr, Inhabited

/-- The addressing modes of the read class, without operand bytes. -/
inductive ReadKind where
  | imm | zp | zpx | zpy | abs | abx | aby | izx | izy
deriving DecidableEq, Repr, Inhabited

/-- The addressing modes of the write class, without operand bytes. -/
inductive WriteKind where
  | zp | zpx | zpy | abs | abx | aby | izx | izy
deriving DecidableEq, Repr, Inhabited

/-- The addressing modes of the RMW class, without operand bytes. -/
inductive RmwKind where
  | zp | zpx | abs | abx
deriving DecidableEq, Repr, Inhabited

/-- A cell of the opcode map (R86). -/
inductive Op where
  | read (o : ReadOp) (k : ReadKind)
  | write (o : WriteOp) (k : WriteKind)
  | rmw (o : RmwOp) (k : RmwKind)
  | acc (o : ShiftOp)
  | implied (o : ImpliedOp)
  | branch (o : BranchOp)
  | push (o : PushOp)
  | pull (o : PullOp)
  | jmpAbs | jmpInd | jsr | rts | rti | brk
deriving DecidableEq, Repr, Inhabited

end Sys2Proof
end

