-- ==== Sys2Proof/WellFormed.lean ====
section
/-! DEFINITION. Which terms of `Instr` are instructions: the "Operands" lines of 40_load_store, 42_arithmetic and
43_logic (which modes a mnemonic has) and the list of illegal opcode bytes of 30_encoding R87. The modes of the shifts, of
INC and DEC, and of JMP need no check: their types hold exactly the modes R140 to R145 and R150 give them. -/

namespace Sys2Proof

/-- "Operands: M from IMM, ZP, ZPX, ABS, ABX, ABY, IZX or IZY": R100, R120, R121, R122, R130, R131, R132. -/
def ReadMode.accumulatorForm : ReadMode → Bool
  | .zpy _ => false
  | _ => true

/-- "Operands: M from IMM, ZP, ZPY, ABS or ABY": R101. -/
def ReadMode.ldxForm : ReadMode → Bool
  | .imm _ | .zp _ | .zpy _ | .abs _ | .aby _ => true
  | _ => false

/-- "Operands: M from IMM, ZP, ZPX, ABS or ABX": R102. -/
def ReadMode.ldyForm : ReadMode → Bool
  | .imm _ | .zp _ | .zpx _ | .abs _ | .abx _ => true
  | _ => false

/-- "Operands: M from IMM, ZP or ABS": R123, R124. -/
def ReadMode.compareIndexForm : ReadMode → Bool
  | .imm _ | .zp _ | .abs _ => true
  | _ => false

/-- "Operands: M from ZP or ABS": R133. -/
def ReadMode.bitForm : ReadMode → Bool
  | .zp _ | .abs _ => true
  | _ => false

/-- "Operands: ea from ZP, ZPX, ABS, ABX, ABY, IZX or IZY": R103. -/
def WriteMode.staForm : WriteMode → Bool
  | .zpy _ => false
  | _ => true

/-- "Operands: ea from ZP, ZPY or ABS": R104. -/
def WriteMode.stxForm : WriteMode → Bool
  | .zp _ | .zpy _ | .abs _ => true
  | _ => false

/-- "Operands: ea from ZP, ZPX or ABS": R105. -/
def WriteMode.styForm : WriteMode → Bool
  | .zp _ | .zpx _ | .abs _ => true
  | _ => false

/-- The 105 illegal opcode bytes of R87, one line of the rule after the other. -/
def illegalBytes : List Nat :=
  [0x02, 0x03, 0x04, 0x07, 0x0B, 0x0C, 0x0F, 0x12, 0x13, 0x14, 0x17, 0x1A, 0x1B, 0x1C, 0x1F,
    0x22, 0x23, 0x27, 0x2B, 0x2F, 0x32, 0x33, 0x34, 0x37, 0x3A, 0x3B, 0x3C, 0x3F] ++
  [0x42, 0x43, 0x44, 0x47, 0x4B, 0x4F, 0x52, 0x53, 0x54, 0x57, 0x5A, 0x5B, 0x5C, 0x5F,
    0x62, 0x63, 0x64, 0x67, 0x6B, 0x6F, 0x72, 0x73, 0x74, 0x77, 0x7A, 0x7B, 0x7C, 0x7F] ++
  [0x80, 0x82, 0x83, 0x87, 0x89, 0x8B, 0x8F, 0x92, 0x93, 0x97, 0x9B, 0x9C, 0x9E, 0x9F,
    0xA3, 0xA7, 0xAB, 0xAF, 0xB2, 0xB3, 0xB7, 0xBB, 0xBF] ++
  [0xC2, 0xC3, 0xC7, 0xCB, 0xCF, 0xD2, 0xD3, 0xD4, 0xD7, 0xDA, 0xDB, 0xDC, 0xDF,
    0xE2, 0xE3, 0xE7, 0xEB, 0xEF, 0xF2, 0xF3, 0xF4, 0xF7, 0xFA, 0xFB, 0xFC, 0xFF]

/-- The byte is one of the illegal opcodes of R87. -/
def isIllegal (op : Byte) : Bool := illegalBytes.contains op.toNat

/-- The term is an instruction: its mnemonic has its addressing mode, and `ill` carries an illegal byte. -/
def Instr.wf : Instr → Bool
  | .lda m | .adc m | .sbc m | .cmp m | .and m | .ora m | .eor m => m.accumulatorForm
  | .ldx m => m.ldxForm
  | .ldy m => m.ldyForm
  | .cpx m | .cpy m => m.compareIndexForm
  | .bit m => m.bitForm
  | .sta m => m.staForm
  | .stx m => m.stxForm
  | .sty m => m.styForm
  | .ill op => isIllegal op
  | .tax | .tay | .txa | .tya | .tsx | .txs | .pha | .php | .pla | .plp => true
  | .asl _ | .lsr _ | .rol _ | .ror _ | .inc _ | .dec _ | .inx | .iny | .dex | .dey => true
  | .jmp _ | .jsr _ | .rts | .bcc _ | .bcs _ | .beq _ | .bne _ | .bmi _ | .bpl _ | .bvc _ | .bvs _ => true
  | .clc | .sec | .cli | .sei | .cld | .sed | .clv | .nop | .brk | .rti => true

end Sys2Proof
end

