-- ==== Sys2Proof/Decode.lean ====
section
/-! DEFINITION. Decoding and encoding: 30_encoding R70, R71, R85 to R88. The decoder is a lookup of the first byte in the
opcode map of R86, which alone fixes the length; the operand bytes follow, low byte first. -/

namespace Sys2Proof

open Machine (lo hi cat)

/-! ## The opcode map (R86) -/

/-- The rows of the read class, one mnemonic a line. -/
def readRows : List (ReadOp × List (Nat × ReadKind)) :=
  [(.lda, [(0xA9, .imm), (0xA5, .zp), (0xB5, .zpx), (0xAD, .abs), (0xBD, .abx), (0xB9, .aby), (0xA1, .izx), (0xB1, .izy)]),
   (.ldx, [(0xA2, .imm), (0xA6, .zp), (0xB6, .zpy), (0xAE, .abs), (0xBE, .aby)]),
   (.ldy, [(0xA0, .imm), (0xA4, .zp), (0xB4, .zpx), (0xAC, .abs), (0xBC, .abx)]),
   (.adc, [(0x69, .imm), (0x65, .zp), (0x75, .zpx), (0x6D, .abs), (0x7D, .abx), (0x79, .aby), (0x61, .izx), (0x71, .izy)]),
   (.sbc, [(0xE9, .imm), (0xE5, .zp), (0xF5, .zpx), (0xED, .abs), (0xFD, .abx), (0xF9, .aby), (0xE1, .izx), (0xF1, .izy)]),
   (.cmp, [(0xC9, .imm), (0xC5, .zp), (0xD5, .zpx), (0xCD, .abs), (0xDD, .abx), (0xD9, .aby), (0xC1, .izx), (0xD1, .izy)]),
   (.cpx, [(0xE0, .imm), (0xE4, .zp), (0xEC, .abs)]),
   (.cpy, [(0xC0, .imm), (0xC4, .zp), (0xCC, .abs)]),
   (.and, [(0x29, .imm), (0x25, .zp), (0x35, .zpx), (0x2D, .abs), (0x3D, .abx), (0x39, .aby), (0x21, .izx), (0x31, .izy)]),
   (.ora, [(0x09, .imm), (0x05, .zp), (0x15, .zpx), (0x0D, .abs), (0x1D, .abx), (0x19, .aby), (0x01, .izx), (0x11, .izy)]),
   (.eor, [(0x49, .imm), (0x45, .zp), (0x55, .zpx), (0x4D, .abs), (0x5D, .abx), (0x59, .aby), (0x41, .izx), (0x51, .izy)]),
   (.bit, [(0x24, .zp), (0x2C, .abs)])]

/-- The rows of the write class, one mnemonic a line. -/
def writeRows : List (WriteOp × List (Nat × WriteKind)) :=
  [(.sta, [(0x85, .zp), (0x95, .zpx), (0x8D, .abs), (0x9D, .abx), (0x99, .aby), (0x81, .izx), (0x91, .izy)]),
   (.stx, [(0x86, .zp), (0x96, .zpy), (0x8E, .abs)]),
   (.sty, [(0x84, .zp), (0x94, .zpx), (0x8C, .abs)])]

/-- The rows of the RMW class, one mnemonic a line. -/
def rmwRows : List (RmwOp × List (Nat × RmwKind)) :=
  [(.shift .asl, [(0x06, .zp), (0x16, .zpx), (0x0E, .abs), (0x1E, .abx)]),
   (.shift .lsr, [(0x46, .zp), (0x56, .zpx), (0x4E, .abs), (0x5E, .abx)]),
   (.shift .rol, [(0x26, .zp), (0x36, .zpx), (0x2E, .abs), (0x3E, .abx)]),
   (.shift .ror, [(0x66, .zp), (0x76, .zpx), (0x6E, .abs), (0x7E, .abx)]),
   (.inc, [(0xE6, .zp), (0xF6, .zpx), (0xEE, .abs), (0xFE, .abx)]),
   (.dec, [(0xC6, .zp), (0xD6, .zpx), (0xCE, .abs), (0xDE, .abx)])]

/-- The accumulator forms. -/
def accRows : List (Nat × ShiftOp) :=
  [(0x0A, .asl), (0x4A, .lsr), (0x2A, .rol), (0x6A, .ror)]

/-- The implied instructions of two cycles. -/
def impliedRows : List (Nat × ImpliedOp) :=
  [(0xAA, .tax), (0xA8, .tay), (0x8A, .txa), (0x98, .tya), (0xBA, .tsx), (0x9A, .txs),
   (0xE8, .inx), (0xC8, .iny), (0xCA, .dex), (0x88, .dey), (0x18, .clc), (0x38, .sec),
   (0x58, .cli), (0x78, .sei), (0xD8, .cld), (0xF8, .sed), (0xB8, .clv), (0xEA, .nop)]

/-- The branches. -/
def branchRows : List (Nat × BranchOp) :=
  [(0x90, .bcc), (0xB0, .bcs), (0xF0, .beq), (0xD0, .bne), (0x30, .bmi), (0x10, .bpl), (0x50, .bvc), (0x70, .bvs)]

/-- Stack, jump, subroutine and interrupt instructions. -/
def specialRows : List (Nat × Op) :=
  [(0x48, .push .pha), (0x08, .push .php), (0x68, .pull .pla), (0x28, .pull .plp), (0x4C, .jmpAbs), (0x6C, .jmpInd),
   (0x20, .jsr), (0x60, .rts), (0x40, .rti), (0x00, .brk)]

/-- The 151 documented opcodes (R86). -/
def opcodeRows : List (Nat × Op) :=
  [readRows.flatMap fun r => r.2.map fun p => (p.1, Op.read r.1 p.2),
   writeRows.flatMap fun r => r.2.map fun p => (p.1, Op.write r.1 p.2),
   rmwRows.flatMap fun r => r.2.map fun p => (p.1, Op.rmw r.1 p.2),
   accRows.map fun p => (p.1, Op.acc p.2),
   impliedRows.map fun p => (p.1, Op.implied p.2),
   branchRows.map fun p => (p.1, Op.branch p.2),
   specialRows].flatten

/-- The cell of R86 for an opcode byte, none for the 105 illegal bytes (R87). -/
def lookup (op : Byte) : Option Op := (opcodeRows.find? (fun r => r.1 == op.toNat)).map (·.2)

/-- The opcode byte of a cell of R86. -/
def codeOf (op : Op) : Option Byte := (opcodeRows.find? (fun r => r.2 == op)).map (fun r => BitVec.ofNat 8 r.1)

/-! ## Lengths and operands (R71, R85) -/

/-- The length of a mode of the read class (R74 to R83). -/
def ReadKind.length : ReadKind → Nat
  | .imm | .zp | .zpx | .zpy | .izx | .izy => 2
  | .abs | .abx | .aby => 3

/-- The length of a mode of the write class. -/
def WriteKind.length : WriteKind → Nat
  | .zp | .zpx | .zpy | .izx | .izy => 2
  | .abs | .abx | .aby => 3

/-- The length of a mode of the RMW class. -/
def RmwKind.length : RmwKind → Nat
  | .zp | .zpx => 2
  | .abs | .abx => 3

/-- The length in bytes that the opcode fixes (R70, R71, R88). BRK is one byte for decoding (R71, R178). -/
def Op.length : Op → Nat
  | .read _ k => k.length
  | .write _ k => k.length
  | .rmw _ k => k.length
  | .branch _ => 2
  | .jmpAbs | .jmpInd | .jsr => 3
  | .acc _ | .implied _ | .push _ | .pull _ | .rts | .rti | .brk => 1

/-- The operand of a read-class mode from the bytes after the opcode (R85). -/
def ReadKind.mode (k : ReadKind) (b1 b2 : Byte) : ReadMode :=
  match k with
  | .imm => .imm b1
  | .zp => .zp b1
  | .zpx => .zpx b1
  | .zpy => .zpy b1
  | .abs => .abs (cat b2 b1)
  | .abx => .abx (cat b2 b1)
  | .aby => .aby (cat b2 b1)
  | .izx => .izx b1
  | .izy => .izy b1

/-- The operand of a write-class mode from the bytes after the opcode (R85). -/
def WriteKind.mode (k : WriteKind) (b1 b2 : Byte) : WriteMode :=
  match k with
  | .zp => .zp b1
  | .zpx => .zpx b1
  | .zpy => .zpy b1
  | .abs => .abs (cat b2 b1)
  | .abx => .abx (cat b2 b1)
  | .aby => .aby (cat b2 b1)
  | .izx => .izx b1
  | .izy => .izy b1

/-- The operand of an RMW-class mode from the bytes after the opcode (R85). -/
def RmwKind.mode (k : RmwKind) (b1 b2 : Byte) : RmwMode :=
  match k with
  | .zp => .zp b1
  | .zpx => .zpx b1
  | .abs => .abs (cat b2 b1)
  | .abx => .abx (cat b2 b1)

/-- The read-class instruction of a mnemonic and its operand. -/
def ReadOp.instr (o : ReadOp) (m : ReadMode) : Instr :=
  match o with
  | .lda => .lda m
  | .ldx => .ldx m
  | .ldy => .ldy m
  | .adc => .adc m
  | .sbc => .sbc m
  | .cmp => .cmp m
  | .cpx => .cpx m
  | .cpy => .cpy m
  | .and => .and m
  | .ora => .ora m
  | .eor => .eor m
  | .bit => .bit m

/-- The write-class instruction of a mnemonic and its operand. -/
def WriteOp.instr (o : WriteOp) (m : WriteMode) : Instr :=
  match o with
  | .sta => .sta m
  | .stx => .stx m
  | .sty => .sty m

/-- The shift or rotate of a mnemonic and its operand. -/
def ShiftOp.instr (o : ShiftOp) (m : ShiftMode) : Instr :=
  match o with
  | .asl => .asl m
  | .lsr => .lsr m
  | .rol => .rol m
  | .ror => .ror m

/-- The RMW-class instruction of a mnemonic and its memory operand. -/
def RmwOp.instr (o : RmwOp) (m : RmwMode) : Instr :=
  match o with
  | .shift s => s.instr (.mem m)
  | .inc => .inc m
  | .dec => .dec m

/-- The implied instruction of a mnemonic. -/
def ImpliedOp.instr : ImpliedOp → Instr
  | .tax => .tax
  | .tay => .tay
  | .txa => .txa
  | .tya => .tya
  | .tsx => .tsx
  | .txs => .txs
  | .inx => .inx
  | .iny => .iny
  | .dex => .dex
  | .dey => .dey
  | .clc => .clc
  | .sec => .sec
  | .cli => .cli
  | .sei => .sei
  | .cld => .cld
  | .sed => .sed
  | .clv => .clv
  | .nop => .nop

/-- The branch of a mnemonic and its offset. -/
def BranchOp.instr (o : BranchOp) (rel : Byte) : Instr :=
  match o with
  | .bcc => .bcc rel
  | .bcs => .bcs rel
  | .beq => .beq rel
  | .bne => .bne rel
  | .bmi => .bmi rel
  | .bpl => .bpl rel
  | .bvc => .bvc rel
  | .bvs => .bvs rel

/-- The instruction of a cell of R86 and the operand bytes after the opcode; a byte the length leaves out is not used. -/
def Op.instr (op : Op) (b1 b2 : Byte) : Instr :=
  match op with
  | .read o k => o.instr (k.mode b1 b2)
  | .write o k => o.instr (k.mode b1 b2)
  | .rmw o k => o.instr (k.mode b1 b2)
  | .acc o => o.instr .acc
  | .implied o => o.instr
  | .branch o => o.instr b1
  | .push .pha => .pha
  | .push .php => .php
  | .pull .pla => .pla
  | .pull .plp => .plp
  | .jmpAbs => .jmp (.abs (cat b2 b1))
  | .jmpInd => .jmp (.ind (cat b2 b1))
  | .jsr => .jsr (cat b2 b1)
  | .rts => .rts
  | .rti => .rti
  | .brk => .brk

/-! ## The decoder (R88) -/

/-- Why bytes do not decode: every first byte is an instruction (R87), so only a missing byte can be the reason. -/
inductive DecodeError where
  | noOpcode          -- no byte at all
  | missingOperand    -- fewer operand bytes than the opcode's length asks for
deriving DecidableEq, Repr, Inhabited

/-- Decode the instruction at the head of the bytes; answers the bytes after it. -/
def decode (bytes : List Byte) : Except DecodeError (Instr × List Byte) :=
  match bytes with
  | [] => .error .noOpcode
  | b0 :: rest =>
    match lookup b0 with
    | none => .ok (.ill b0, rest)
    | some op =>
      match op.length, rest with
      | 1, rest => .ok (op.instr 0 0, rest)
      | 2, b1 :: rest => .ok (op.instr b1 0, rest)
      | _, b1 :: b2 :: rest => .ok (op.instr b1 b2, rest)
      | _, _ => .error .missingOperand

/-! ## The encoder -/

/-- The mode of a read-class operand. -/
def ReadMode.kind : ReadMode → ReadKind
  | .imm _ => .imm
  | .zp _ => .zp
  | .zpx _ => .zpx
  | .zpy _ => .zpy
  | .abs _ => .abs
  | .abx _ => .abx
  | .aby _ => .aby
  | .izx _ => .izx
  | .izy _ => .izy

/-- The operand bytes of a read-class operand, low byte first (R71). -/
def ReadMode.bytes : ReadMode → List Byte
  | .imm b | .zp b | .zpx b | .zpy b | .izx b | .izy b => [b]
  | .abs a | .abx a | .aby a => [lo a, hi a]

/-- The mode of a write-class operand. -/
def WriteMode.kind : WriteMode → WriteKind
  | .zp _ => .zp
  | .zpx _ => .zpx
  | .zpy _ => .zpy
  | .abs _ => .abs
  | .abx _ => .abx
  | .aby _ => .aby
  | .izx _ => .izx
  | .izy _ => .izy

/-- The operand bytes of a write-class operand (R71). -/
def WriteMode.bytes : WriteMode → List Byte
  | .zp b | .zpx b | .zpy b | .izx b | .izy b => [b]
  | .abs a | .abx a | .aby a => [lo a, hi a]

/-- The mode of an RMW-class operand. -/
def RmwMode.kind : RmwMode → RmwKind
  | .zp _ => .zp
  | .zpx _ => .zpx
  | .abs _ => .abs
  | .abx _ => .abx

/-- The operand bytes of an RMW-class operand (R71). -/
def RmwMode.bytes : RmwMode → List Byte
  | .zp b | .zpx b => [b]
  | .abs a | .abx a => [lo a, hi a]

/-- The cell of a shift or rotate. -/
def ShiftMode.op (o : ShiftOp) : ShiftMode → Op
  | .acc => .acc o
  | .mem m => .rmw (.shift o) m.kind

/-- The operand bytes of a shift or rotate. -/
def ShiftMode.bytes : ShiftMode → List Byte
  | .acc => []
  | .mem m => m.bytes

/-- The cell of R86 that an instruction stands in; none for the illegal opcodes. -/
def Instr.op : Instr → Option Op
  | .lda m => some (.read .lda m.kind)
  | .ldx m => some (.read .ldx m.kind)
  | .ldy m => some (.read .ldy m.kind)
  | .adc m => some (.read .adc m.kind)
  | .sbc m => some (.read .sbc m.kind)
  | .cmp m => some (.read .cmp m.kind)
  | .cpx m => some (.read .cpx m.kind)
  | .cpy m => some (.read .cpy m.kind)
  | .and m => some (.read .and m.kind)
  | .ora m => some (.read .ora m.kind)
  | .eor m => some (.read .eor m.kind)
  | .bit m => some (.read .bit m.kind)
  | .sta m => some (.write .sta m.kind)
  | .stx m => some (.write .stx m.kind)
  | .sty m => some (.write .sty m.kind)
  | .asl m => some (m.op .asl)
  | .lsr m => some (m.op .lsr)
  | .rol m => some (m.op .rol)
  | .ror m => some (m.op .ror)
  | .inc m => some (.rmw .inc m.kind)
  | .dec m => some (.rmw .dec m.kind)
  | .tax => some (.implied .tax)
  | .tay => some (.implied .tay)
  | .txa => some (.implied .txa)
  | .tya => some (.implied .tya)
  | .tsx => some (.implied .tsx)
  | .txs => some (.implied .txs)
  | .inx => some (.implied .inx)
  | .iny => some (.implied .iny)
  | .dex => some (.implied .dex)
  | .dey => some (.implied .dey)
  | .clc => some (.implied .clc)
  | .sec => some (.implied .sec)
  | .cli => some (.implied .cli)
  | .sei => some (.implied .sei)
  | .cld => some (.implied .cld)
  | .sed => some (.implied .sed)
  | .clv => some (.implied .clv)
  | .nop => some (.implied .nop)
  | .bcc _ => some (.branch .bcc)
  | .bcs _ => some (.branch .bcs)
  | .beq _ => some (.branch .beq)
  | .bne _ => some (.branch .bne)
  | .bmi _ => some (.branch .bmi)
  | .bpl _ => some (.branch .bpl)
  | .bvc _ => some (.branch .bvc)
  | .bvs _ => some (.branch .bvs)
  | .pha => some (.push .pha)
  | .php => some (.push .php)
  | .pla => some (.pull .pla)
  | .plp => some (.pull .plp)
  | .jmp (.abs _) => some .jmpAbs
  | .jmp (.ind _) => some .jmpInd
  | .jsr _ => some .jsr
  | .rts => some .rts
  | .rti => some .rti
  | .brk => some .brk
  | .ill _ => none

/-- The bytes after the opcode (R71, R85). -/
def Instr.operandBytes : Instr → List Byte
  | .lda m | .ldx m | .ldy m | .adc m | .sbc m | .cmp m | .cpx m | .cpy m | .and m | .ora m | .eor m | .bit m => m.bytes
  | .sta m | .stx m | .sty m => m.bytes
  | .asl m | .lsr m | .rol m | .ror m => m.bytes
  | .inc m | .dec m => m.bytes
  | .bcc r | .bcs r | .beq r | .bne r | .bmi r | .bpl r | .bvc r | .bvs r => [r]
  | .jmp (.abs a) | .jmp (.ind a) | .jsr a => [lo a, hi a]
  | .tax | .tay | .txa | .tya | .tsx | .txs | .inx | .iny | .dex | .dey => []
  | .clc | .sec | .cli | .sei | .cld | .sed | .clv | .nop => []
  | .pha | .php | .pla | .plp | .rts | .rti | .brk | .ill _ => []

/-- The bytes of a well-formed instruction (R71, R86); nothing for a term that is no instruction. -/
def encode (i : Instr) : List Byte :=
  match i with
  | .ill op => if isIllegal op then [op] else []
  | i =>
    match i.op.bind codeOf with
    | some c => c :: i.operandBytes
    | none => []

/-! ## The table's words -/

/-- The word of spec/opcode_table.json laid out as three bytes, bit 0 the least significant bit of the first; the bits above
`nbits` are 0. -/
def tableBytes (nbits w : Nat) : List Byte :=
  let v := w % 2 ^ nbits
  [BitVec.ofNat 8 v, BitVec.ofNat 8 (v / 256), BitVec.ofNat 8 (v / 65536)]

/-- The instruction that the decoder reads from a word of the opcode table. -/
def decodeTableWord (nbits w : Nat) : Option Instr :=
  match decode (tableBytes nbits w) with
  | .ok (i, _) => some i
  | .error _ => none

end Sys2Proof
end

