-- ==== Sys2Proof/Config.lean ====
section
/-! DEFINITION. What is fixed for the machine (00_scope R3) and what the platform's callbacks answer, which no rule fixes
(R28, R52): the latter are opaque, so that no proof can see an answer. The parameters that the spec leaves to the model's
user (ILLEGAL_POLICY, PERIOD_STEPS) are data in `State` (log 4, log 5). -/

namespace Sys2Proof

/-- `ILLEGAL_POLICY` (R3, R87, U1): what an illegal opcode does. -/
inductive IllegalPolicy where
  | nop2     -- the default: a one-byte two-cycle NOP
  | strict   -- the fetch halts the CPU with InvalidOpcode
deriving DecidableEq, Repr, Inhabited

/-- What a platform component does through the fabric while one of its callbacks runs (R235, R301; R247 for `stop`). -/
inductive SinkCall where
  | writeWire (src : EndpointId) (v : Signal)
  | stop
deriving DecidableEq, Repr, Inhabited

/-- What a handler callback does besides answering (R50, R52): it may call `switch` and write wires
(log 17), a read callback no less than a write callback (DESIGN CHOICE, log 31). `reenter` is a callback
that calls `tick`, `read` or `write`, which it must not (U9). -/
inductive HandlerCall where
  | switch (lo hi : Addr) (id : BankId)
  | fabric (c : SinkCall)
  | reenter
deriving DecidableEq, Repr, Inhabited

/-- The answer of `on_read` (R44, R46, R52). That a read callback may call `switch` too, where R50 names `on_write` only, is
DESIGN CHOICE (log 31). -/
inductive ReadAnswer where
  | value (v : Byte) (calls : List HandlerCall) (after : World)
  | fault (kind : BusErrorKind)
deriving DecidableEq, Repr, Inhabited

/-- The answer of `on_write` (R44, R47, R52). -/
inductive WriteAnswer where
  | ok (calls : List HandlerCall) (after : World)
  | fault (kind : BusErrorKind)
deriving DecidableEq, Repr, Inhabited

/-- What a platform component's sink does when a value is delivered to it (R230, R235). -/
structure SinkAnswer where
  calls : List SinkCall
  after : World
deriving DecidableEq, Repr, Inhabited

namespace Config

/-- `OPEN_BUS_VALUE` (R3, R51, D2). -/
def openBusValue : Byte := 0x00#8

/-- `RESET_CLEARS_D` (R3, R222, D3). -/
def resetClearsD : Bool := true

/-- What a byte of RAM or ROM storage reads as when the bank lists none for it. DESIGN CHOICE (log 1; U10). -/
def blankByte : Byte := 0x00#8

/-- The period in steps of a frequency that the platform's table does not list (R3, R241, D11). -/
def defaultPeriod : Nat := 1

/-- `on_read` of a handler bank (R44, R52, D14: it receives the full CPU address). No rule fixes its answer. -/
opaque onRead : World → BankId → Addr → ReadAnswer

/-- `on_write` of a handler bank (R44, R52, D14). No rule fixes its answer. -/
opaque onWrite : World → BankId → Addr → Byte → WriteAnswer

/-- `on_value` of a sink that belongs to a platform component (R230). No rule fixes what it does. -/
opaque onValue : World → Nat → Signal → SinkAnswer

end Config
end Sys2Proof
end

