-- ==== Sys2Proof/Machine/State.lean ====
section
/-! DEFINITION. The state of the machine as plain data: 10_state R10 to R24, 20_memory R44, 48_fabric_wire_clock R230 and
R240; the reasons a step can stop; and the state after reset (R26). -/

namespace Sys2Proof.Machine

/-- The six stored flags of `P` (R13). Bits 5 and 4 of a status byte are not state (R14, R15). -/
structure Flags where
  n : Bool    -- bit 7: negative
  v : Bool    -- bit 6: signed overflow
  d : Bool    -- bit 3: decimal mode
  i : Bool    -- bit 2: IRQ disable
  z : Bool    -- bit 1: zero
  c : Bool    -- bit 0: carry
deriving DecidableEq, Repr, Inhabited

/-- `seq` (R17): the sequence in progress is an instruction, an IRQ or NMI entry, or a reset. -/
inductive Seq where
  | instr
  | int
  | reset
deriving DecidableEq, Repr, Inhabited

/-- The microexecution state (R17). At a boundary (`cycleIndex` = 0) every other field is dead (log 11). -/
structure Micro where
  seq        : Seq
  cycleIndex : Nat      -- 0..7; 0 = fetch
  opcode     : Byte
  adl        : Byte
  adh        : Byte
  ptr        : Addr
  operand    : Byte
  pageCross  : Bool
deriving DecidableEq, Repr, Inhabited

/-- The pending-interrupt and edge-detection latches (R18). -/
structure Latches where
  irqLevel     : Bool
  nmiPending   : Bool
  nmiPrev      : Bool
  resetPending : Bool
  clkPrev      : Bool
deriving DecidableEq, Repr, Inhabited

/-- The cause in `halted` (R19, R262). -/
inductive HaltCause where
  | invalidOpcode (opcode : Byte) (address : Addr)
  | busError (kind : BusErrorKind)
deriving DecidableEq, Repr

/-- The kind of a bank (R44). -/
inductive BankKind where
  | ram
  | rom
  | handler
deriving DecidableEq, Repr, Inhabited

/-- A bank (R21, R44). The storage of a RAM or ROM bank is a byte array of `length` bytes, written as the (offset, byte) pairs
`cells`: offsets `a - lo` strictly rising, no listed byte equal to `Config.blankByte`. A handler bank has no storage. -/
structure Bank where
  id     : BankId
  kind   : BankKind
  lo     : Addr
  hi     : Addr
  length : Nat
  cells  : List Host.Cell
deriving DecidableEq, Repr, Inhabited

/-- A stretch of the `active` map (R21): every address in `lo..hi` has the bank `id` active. -/
structure Segment where
  lo : Nat
  hi : Nat
  id : BankId
deriving DecidableEq, Repr, Inhabited

/-- The Memory (R21): the installed banks in order of installation, and the `active` map as disjoint stretches in rising
order, neighbours of one bank joined; an address in no stretch has no active bank. -/
structure Memory where
  banks  : List Bank
  active : List Segment
deriving DecidableEq, Repr, Inhabited

/-- The inputs of the CPU that a wire can drive (R245). -/
inductive CpuPort where
  | clock
  | irq
  | nmi
  | reset
deriving DecidableEq, Repr, Inhabited

/-- What a sink does with a delivered value: an input of the CPU, or a component of the platform, which declares the width of
its sink, 8 bits when `wide`, else 1 (R230, R231). -/
inductive SinkAction where
  | cpu (port : CpuPort)
  | component (n : Nat) (wide : Bool)
deriving DecidableEq, Repr, Inhabited

/-- A sink endpoint (R230, R231): its handle and its action, of which `Sink.wide` reads its width. That one handle may stand in
several sinks, or be a source as well, is DESIGN CHOICE (log 26). -/
structure Sink where
  endpoint : EndpointId
  action   : SinkAction
deriving DecidableEq, Repr, Inhabited

/-- A wire (R22, R230). Its width is that of its value. -/
structure Wire where
  id     : WireId
  value  : Signal
  source : Option EndpointId
  sinks  : List Sink
deriving DecidableEq, Repr, Inhabited

/-- The clock (R23, R240). Its output wire is the wire whose source is `clockEndpoint`. That the frequency is a whole number of
hertz is DESIGN CHOICE (log 27); that another writer of the output wire leaves `out` as it is, is too (log 22). -/
structure Clock where
  frequency : Nat
  phase     : Nat
  running   : Bool
  out       : Bool
deriving DecidableEq, Repr, Inhabited

/-- The fabric and the harness counter (R22 to R24). `delivering` is the model's own: the wires whose delivery is in
progress, innermost first, empty between operations; it is how a nested write of one of them is known (R235, U6; log 13). -/
structure Fabric where
  wires      : List Wire
  clock      : Clock
  tickCount  : Nat
  delivering : List WireId
deriving DecidableEq, Repr, Inhabited

/-- The parameters of R3 that a platform chooses, carried as data; nothing the machine does changes them (log 4, log 5). -/
structure Platform where
  illegalPolicy : IllegalPolicy
  periods       : List (Nat × Nat)    -- frequency, PERIOD_STEPS(frequency)
deriving DecidableEq, Repr, Inhabited

/-- The state of the machine (R10 to R24). -/
structure State where
  a        : Byte                -- R10
  x        : Byte                -- R10
  y        : Byte                -- R10
  sp       : Byte                -- R11
  pc       : Addr                -- R12
  p        : Flags               -- R13
  micro    : Micro               -- R17
  lines    : Latches             -- R18
  halted   : Option HaltCause    -- R19
  cycles   : Nat                 -- R20
  mem      : Memory              -- R21
  fabric   : Fabric              -- R22 to R24
  platform : Platform            -- R3
  world    : World               -- R28, R52: the peripherals behind the callbacks
deriving DecidableEq, Repr, Inhabited

/-- Why the machine stops with a fault. -/
inductive Fault where
  /-- Raised by a bus access (R46, R47, R53) whose handler callback reports an unrecoverable fault: the halt `BusError(k)` of
  R262, of which only the cause is defined (D15, U8; log 7). Safe. -/
  | busError (kind : BusErrorKind)
deriving DecidableEq, Repr

/-- A call of the platform that R62, R231 and R234 reject at wiring time, or R49 and R60 reject without a change. -/
inductive ConfigErrorKind where
  | badBank            -- install_bank outside its preconditions (R48, D13)
  | badSwitch          -- switch outside its preconditions (R49, D13)
  | imageTooLong       -- an image past 0xFFFF (R60, D23)
  | imageNoStorage     -- an image byte where no RAM or ROM bank is active (R60; log 19)
  | widthMismatch      -- a sink of another width (R231, R234)
  | secondSource       -- a second source on one wire (R234)
  | notASource         -- a write or connect through an endpoint that is no wire's source (R231, R232, R234)
  | noSuchWire         -- no wire has that identifier
  | wireExists         -- a second wire of one identifier
  | badFrequency       -- set_frequency of no positive frequency (R242, U14)
deriving DecidableEq, Repr

/-- Why the model has no next state. -/
inductive Refusal where
  /-- Raised by exec for an instruction that has no meaning yet. Safe. -/
  | notModelled (mnemonic : String)
  /-- Raised by step if the bytes it fetched do not decode; the fetch reads as many as the opcode asks for, so never. Safe. -/
  | shortFetch
  /-- Raised by a tick whose `cycle_index` has no line in the sequence of 47_cycle_sequences; no tick leads there (log 12). Safe. -/
  | noSuchCycle
  /-- Raised when a callback calls tick, read or write (U9, R52), a clock edge delivered inside a tick included. Safe. -/
  | handlerReentry
  /-- Raised by a write to a wire from inside a delivery of that wire (U6, R235). Safe. -/
  | wireReentry
  /-- Raised by a wire write of a value of another width, and by a delivery of 8 bits to a 1-bit input of the CPU, which no
  connected sink can meet (R232, R245, D26). Safe. -/
  | illTypedWrite
  /-- Raised by a clock step when PERIOD_STEPS answers 0 (U14). Safe. -/
  | zeroPeriod
  /-- Raised by a host call outside its preconditions; the state stays as it was (U13, R234). Safe. -/
  | config (kind : ConfigErrorKind)
deriving DecidableEq, Repr

/-- An answer of the machine: a value, a fault or a refusal. -/
abbrev Res (α : Type) := Host.Outcome α Fault Refusal

/-- Go on with a value; a fault or a refusal ends the computation. -/
def andThen {α β : Type} (r : Res α) (k : α → Res β) : Res β :=
  match r with
  | .next a => k a
  | .fault f => .fault f
  | .refused e => .refused e

/-- The source endpoint of the clock (R240). -/
def clockEndpoint : EndpointId := 0

/-- The state after construction and one completed reset sequence, with no bank installed (R26, R240, R290). Where the spec
gives no value the model names one (log 2, log 3, log 5, log 11, log 15). -/
def State.reset : State where
  a := 0x00#8
  x := 0x00#8
  y := 0x00#8
  sp := 0xFD#8
  pc := 0x0000#16
  p :=
    { n := false
      v := false
      d := false
      i := true
      z := false
      c := false }
  micro :=
    { seq := .reset
      cycleIndex := 0
      opcode := 0x00#8
      adl := 0x00#8
      adh := 0x00#8
      ptr := 0x0000#16
      operand := 0x00#8
      pageCross := false }
  lines :=
    { irqLevel := false
      nmiPending := false
      nmiPrev := false
      resetPending := false
      clkPrev := false }
  halted := none
  cycles := 7
  mem :=
    { banks := []
      active := [] }
  fabric :=
    { wires := [{ id := 0, value := .bit false, source := some clockEndpoint, sinks := [] }]
      clock :=
        { frequency := 1
          phase := 0
          running := false
          out := false }
      tickCount := 0
      delivering := [] }
  platform :=
    { illegalPolicy := .nop2
      periods := [] }
  world := 0

end Sys2Proof.Machine
end

