-- ==== Sys2Proof/Machine/Update.lean ====
section
/-! DEFINITION. The updates of the state, one a field; Laws/State.lean says what each leaves alone. -/

namespace Sys2Proof.Machine

/-- `A <- v`. -/
def State.setA (s : State) (v : Byte) : State := { s with a := v }

/-- `X <- v`. -/
def State.setX (s : State) (v : Byte) : State := { s with x := v }

/-- `Y <- v`. -/
def State.setY (s : State) (v : Byte) : State := { s with y := v }

/-- `SP <- v`. -/
def State.setSp (s : State) (v : Byte) : State := { s with sp := v }

/-- `PC <- v`. -/
def State.setPc (s : State) (v : Addr) : State := { s with pc := v }

/-- The flags change. -/
def State.setP (s : State) (p : Flags) : State := { s with p := p }

/-- The microexecution latches change (R17). -/
def State.setMicro (s : State) (m : Micro) : State := { s with micro := m }

/-- The latches of R18 change. -/
def State.setLines (s : State) (l : Latches) : State := { s with lines := l }

/-- `halted <- h` (R19). -/
def State.setHalted (s : State) (h : Option HaltCause) : State := { s with halted := h }

/-- `cycles <- cycles + 1` (R20, R190). -/
def State.addCycle (s : State) : State := { s with cycles := s.cycles + 1 }

/-- The Memory changes. -/
def State.setMem (s : State) (m : Memory) : State := { s with mem := m }

/-- The fabric changes. -/
def State.setFabric (s : State) (f : Fabric) : State := { s with fabric := f }

/-- The peripherals behind the callbacks change (R52). -/
def State.setWorld (s : State) (w : World) : State := { s with world := w }

end Sys2Proof.Machine
end

