-- ==== Sys2Proof/Machine/Fabric.lean ====
section
/-! DEFINITION. Wires and what a delivery does: 48_fabric_wire_clock R230 to R235, R246, R248. A delivery of a rising clock
edge runs `onRise`: a CPU tick when the host or the clock writes (Machine/HostCalls.lean), a refusal when a callback inside
a tick does (U9). -/

namespace Sys2Proof.Machine

/-- The signal is 8 bits wide. -/
def isWide : Signal → Bool
  | .bit _ => false
  | .byte _ => true

/-- The declared width of a sink: the inputs of the CPU are 1 bit wide (R245). -/
def Sink.wide (k : Sink) : Bool :=
  match k.action with
  | .cpu _ => false
  | .component _ wide => wide

/-! ## The CPU's inputs (R248) -/

/-- `irq_line(v)`: the level is followed, not latched. -/
def Latches.irqLine (l : Latches) (v : Bool) : Latches := { l with irqLevel := v }

/-- `nmi_line(v)`: a 0 to 1 transition latches an NMI. -/
def Latches.nmiLine (l : Latches) (v : Bool) : Latches :=
  { l with nmiPending := l.nmiPending || (v && !l.nmiPrev), nmiPrev := v }

/-- A delivery on a RESET wire, and `reset()` with v = 1: a 1 queues a reset sequence. -/
def Latches.resetLine (l : Latches) (v : Bool) : Latches := { l with resetPending := l.resetPending || v }

/-- The clock sink (R246): a rising edge runs one cycle, then the level is remembered. -/
def onClock (onRise : State → Res State) (v : Bool) (s : State) : Res State :=
  andThen (if v && !s.lines.clkPrev then onRise s else .next s) fun s =>
    .next (s.setLines { s.lines with clkPrev := v })

/-- What a delivery to an input of the CPU does (R245, R246, R248). -/
def cpuInput (onRise : State → Res State) (port : CpuPort) (v : Bool) (s : State) : Res State :=
  match port with
  | .clock => onClock onRise v s
  | .irq => .next (s.setLines (s.lines.irqLine v))
  | .nmi => .next (s.setLines (s.lines.nmiLine v))
  | .reset => .next (s.setLines (s.lines.resetLine v))

/-! ## Wires -/

/-- The wire of which the endpoint is the source (R230). -/
def Fabric.wireOfSource (f : Fabric) (e : EndpointId) : Option Wire := f.wires.find? (fun w => w.source == some e)

/-- Replace the wire of an identifier. -/
def Fabric.setWire (f : Fabric) (w : Wire) : Fabric :=
  { f with wires := f.wires.map (fun u => if u.id = w.id then w else u) }

/-- `stop()` clears the clock's `running` (R243, R247). -/
def Fabric.stop (f : Fabric) : Fabric := { f with clock := { f.clock with running := false } }

/-- Run a list of actions one after the other; a fault or a refusal ends the run. -/
def runAll {α : Type} (f : α → State → Res State) (xs : List α) (s : State) : Res State :=
  xs.foldl (fun r x => andThen r (f x)) (.next s)

/-- One delivery to one sink (R231, R232); `write` is how a platform component writes a wire from inside it (R235). -/
def deliverTo (onRise : State → Res State) (write : EndpointId → Signal → State → Res State) (v : Signal) (k : Sink)
    (s : State) : Res State :=
  match k.action with
  | .cpu port =>
    match v with
    | .bit b => cpuInput onRise port b s
    | .byte _ => .refused .illTypedWrite
  | .component n _ =>
    let answer := Config.onValue s.world n v
    runAll
      (fun call s =>
        match call with
        | .stop => .next (s.setFabric s.fabric.stop)
        | .writeWire src u => write src u s)
      answer.calls (s.setWorld answer.after)

/-- A delivery of a wire: the wire counts as being delivered while it lasts (R235). -/
def whileDelivering (id : WireId) (f : State → Res State) (s : State) : Res State :=
  andThen (f (s.setFabric { s.fabric with delivering := id :: s.fabric.delivering })) fun s =>
    .next (s.setFabric { s.fabric with delivering := s.fabric.delivering.tail })

/-- `write(source_endpoint, value)` (R232): the value is stored, then delivered to every sink in registration order, each
delivery and all that it writes complete before the next (R235). A write to a wire whose delivery is in progress is refused
(U6), so that `fuel`, the number of wires and one, bounds the depth. A write through an endpoint that is no wire's source
changes nothing (R234). -/
def writeWireWith (onRise : State → Res State) : Nat → EndpointId → Signal → State → Res State
  | 0, _, _, _ => .refused .wireReentry
  | fuel + 1, src, v, s =>
    match s.fabric.wireOfSource src with
    | none => .next s
    | some w =>
      if s.fabric.delivering.contains w.id then .refused .wireReentry
      else if isWide v != isWide w.value then .refused .illTypedWrite
      else
        whileDelivering w.id (runAll (deliverTo onRise (writeWireWith onRise fuel) v) w.sinks)
          (s.setFabric (s.fabric.setWire { w with value := v }))

/-- The depth to which deliveries can nest: each wire once. -/
def Fabric.depth (f : Fabric) : Nat := f.wires.length + 1

/-- A write of a wire, and all its deliveries. -/
def writeWire (onRise : State → Res State) (src : EndpointId) (v : Signal) (s : State) : Res State :=
  writeWireWith onRise s.fabric.depth src v s

end Sys2Proof.Machine
end

