-- ==== Sys2Proof/Machine/Flags.lean ====
section
/-! DEFINITION. The status byte (10_state R13 to R16) and every flag computation: setNZ (00_scope R5), the adders
(42_arithmetic R125 to R127), the compares (R122), BIT (43_logic R133), the shifts (44_shift_incdec R140 to R143). -/

namespace Sys2Proof.Machine

/-! ## The status byte -/

/-- `P_byte(b)` = {N, V, 1, b, D, I, Z, C} (R16). -/
def Flags.toByte (p : Flags) (b : Bool) : Byte :=
  bitByte p.n <<< 7 ||| bitByte p.v <<< 6 ||| 1#8 <<< 5 ||| bitByte b <<< 4 |||
    bitByte p.d <<< 3 ||| bitByte p.i <<< 2 ||| bitByte p.z <<< 1 ||| bitByte p.c

/-- `P_load(v)`: the six flags from bits 7, 6, 3, 2, 1, 0; bits 5 and 4 are discarded (R16). -/
def Flags.ofByte (v : Byte) : Flags where
  n := bitAt v 7
  v := bitAt v 6
  d := bitAt v 3
  i := bitAt v 2
  z := bitAt v 1
  c := bitAt v 0

/-- `setNZ(v)`: N is bit 7, Z is `v = 0` (R5). -/
def Flags.setNZ (p : Flags) (v : Byte) : Flags := { p with n := bitAt v 7, z := decide (v = 0#8) }

/-! ## The adders -/

/-- What an adder answers: the result and the flags N, V, Z, C. -/
structure AddResult where
  r : Byte
  n : Bool
  v : Bool
  z : Bool
  c : Bool
deriving DecidableEq, Repr, Inhabited

/-- Binary add core `add8(a, m, c)` (R125). -/
def add8 (a m : Byte) (c : Bool) : AddResult :=
  let s := a.toNat + m.toNat + c.toNat
  let r := BitVec.ofNat 8 s
  { r := r
    n := bitAt r 7
    v := decide (((a ^^^ r) &&& (m ^^^ r) &&& 0x80#8) ≠ 0#8)
    z := decide (r = 0#8)
    c := decide (256 ≤ s) }

/-- The low digit sum of a decimal add, corrected: `al` of R126. -/
def decimalLow (a m : Byte) (c : Bool) : Nat :=
  let al := a.toNat % 16 + m.toNat % 16 + c.toNat
  if 0x0A ≤ al then (al + 6) % 16 + 0x10 else al

/-- Decimal add `adc_dec(a, m, c)` (R126): N, V and Z of the binary sum, C the decimal carry. -/
def adcDec (a m : Byte) (c : Bool) : AddResult :=
  let t := a.toNat / 16 * 16 + m.toNat / 16 * 16 + decimalLow a m c
  let t := if 0xA0 ≤ t then t + 0x60 else t
  { add8 a m c with
    r := BitVec.ofNat 8 t
    c := decide (0x100 ≤ t) }

/-- The low digit difference of a decimal subtract, corrected: `al` of R127. -/
def decimalLowDiff (a m : Byte) (c : Bool) : Int :=
  let al : Int := (a.toNat % 16 : Nat) - (m.toNat % 16 : Nat) + (c.toNat : Nat) - 1
  if al < 0 then (al - 6) % 16 - 16 else al

/-- Decimal subtract `sbc_dec(a, m, c)` (R127): N, V, Z and C of the binary difference. -/
def sbcDec (a m : Byte) (c : Bool) : AddResult :=
  let t : Int := (a.toNat / 16 * 16 : Nat) - (m.toNat / 16 * 16 : Nat) + decimalLowDiff a m c
  let t := if t < 0 then t - 0x60 else t
  { add8 a (~~~m) c with
    r := BitVec.ofNat 8 (t % 256).toNat }

/-- The adder of ADC: binary or decimal by `P.D` (R120). -/
def adcResult (p : Flags) (a m : Byte) : AddResult := if p.d then adcDec a m p.c else add8 a m p.c

/-- The adder of SBC: the one's complement of the operand in binary, R127 in decimal (R121). -/
def sbcResult (p : Flags) (a m : Byte) : AddResult := if p.d then sbcDec a m p.c else add8 a (~~~m) p.c

/-- `P.N <- n; P.V <- v; P.Z <- z; P.C <- c` (R120, R121): D and I stay. -/
def Flags.ofAdd (p : Flags) (r : AddResult) : Flags := { p with n := r.n, v := r.v, z := r.z, c := r.c }

/-! ## Compare and BIT -/

/-- The flags of a compare of a register with an operand (R122 to R124): V, D and I stay. -/
def Flags.compare (p : Flags) (r m : Byte) : Flags :=
  { p with n := bitAt (r - m) 7, z := decide (r = m), c := decide (m.toNat ≤ r.toNat) }

/-- The flags of BIT (R133): Z from the AND, N and V from the operand itself. -/
def Flags.bitTest (p : Flags) (a m : Byte) : Flags :=
  { p with n := bitAt m 7, v := bitAt m 6, z := decide (a &&& m = 0#8) }

/-! ## Shifts and rotates: the result and the carry out -/

/-- ASL (R140). -/
def aslResult (v : Byte) : Byte := v <<< 1

/-- LSR (R141). -/
def lsrResult (v : Byte) : Byte := v >>> 1

/-- ROL: the old carry enters bit 0 (R142). -/
def rolResult (v : Byte) (c : Bool) : Byte := (v <<< 1) ||| bitByte c

/-- ROR: the old carry enters bit 7 (R143). -/
def rorResult (v : Byte) (c : Bool) : Byte := (v >>> 1) ||| (bitByte c <<< 7)

/-- `P.C <- c; setNZ(r)` of the shifts (R140 to R143). -/
def Flags.shift (p : Flags) (c : Bool) (r : Byte) : Flags := { p.setNZ r with c := c }

end Sys2Proof.Machine
end

