-- ==== Sys2Proof/Machine/Memory.lean ====
section
/-! DEFINITION. The Memory's own operations: 20_memory R44 to R51 and R60, without the handler callbacks (Machine/Ops.lean).
Storage and the `active` map are lists in one canonical form, which `Memory.wf` states. -/

namespace Sys2Proof.Machine

/-! ## Storage of one bank -/

/-- The byte at an offset of a bank's storage; an offset that is not listed reads as the blank byte (log 1). -/
def cellsGet (k : Nat) : List Host.Cell → Byte
  | [] => Config.blankByte
  | c :: cs => if c.1 = k then c.2 else cellsGet k cs

/-- Put a byte at an offset that lies below every listed one; the blank byte is not listed. -/
def cellsCons (k : Nat) (v : Byte) (cs : List Host.Cell) : List Host.Cell :=
  if v = Config.blankByte then cs else (k, v) :: cs

/-- Write a byte at an offset of a bank's storage, keeping the canonical form. -/
def cellsPut (k : Nat) (v : Byte) : List Host.Cell → List Host.Cell
  | [] => cellsCons k v []
  | c :: cs =>
    if c.1 < k then c :: cellsPut k v cs
    else if c.1 = k then cellsCons k v cs
    else cellsCons k v (c :: cs)

/-- Offsets strictly rising from `from_`, below `size`, and no blank byte listed. -/
def cellsWf (from_ size : Nat) : List Host.Cell → Bool
  | [] => true
  | c :: cs => decide (from_ ≤ c.1) && decide (c.1 < size) && decide (c.2 ≠ Config.blankByte) && cellsWf (c.1 + 1) size cs

/-- The number of bytes of a bank's range, `hi - lo + 1` (R21). -/
def Bank.size (b : Bank) : Nat := b.hi.toNat + 1 - b.lo.toNat

/-- The preconditions R48 puts on a bank itself: `lo <= hi`, and storage of `hi - lo + 1` bytes; a handler bank has no storage
(R21). -/
def Bank.wf (b : Bank) : Bool :=
  decide (b.lo.toNat ≤ b.hi.toNat) &&
    match b.kind with
    | .handler => decide (b.length = 0) && b.cells.isEmpty
    | .ram | .rom => decide (b.length = b.size) && cellsWf 0 b.size b.cells

/-- The address lies in the bank's range (R44). -/
def Bank.covers (b : Bank) (a : Addr) : Bool := decide (b.lo.toNat ≤ a.toNat) && decide (a.toNat ≤ b.hi.toNat)

/-- `b.storage[a - b.lo]` (R46). -/
def Bank.byteAt (b : Bank) (a : Addr) : Byte := cellsGet (a.toNat - b.lo.toNat) b.cells

/-- `b.storage[a - b.lo] <- v` (R47, R60). -/
def Bank.put (b : Bank) (a : Addr) (v : Byte) : Bank := { b with cells := cellsPut (a.toNat - b.lo.toNat) v b.cells }

/-- A bank whose storage is the byte array `bytes` (R44, R60: "ROM banks are populated from such arrays"). -/
def Bank.ofBytes (id : BankId) (kind : BankKind) (lo hi : Addr) (bytes : List Byte) : Bank :=
  { id := id, kind := kind, lo := lo, hi := hi, length := bytes.length,
    cells := bytes.zipIdx.foldr (fun p cs => cellsCons p.2 p.1 cs) [] }

/-- A RAM or ROM bank for which the platform supplies no byte (R26; log 1). -/
def Bank.blank (id : BankId) (kind : BankKind) (lo hi : Addr) : Bank :=
  { id := id, kind := kind, lo := lo, hi := hi, length := hi.toNat + 1 - lo.toNat, cells := [] }

/-- A bank answered by callbacks (R44). -/
def Bank.handled (id : BankId) (lo hi : Addr) : Bank :=
  { id := id, kind := .handler, lo := lo, hi := hi, length := 0, cells := [] }

/-! ## The active map -/

/-- The part of a stretch below `lo`. -/
def Segment.below (lo : Nat) (s : Segment) : Option Segment :=
  if s.lo < lo then some { s with hi := min s.hi (lo - 1) } else none

/-- The part of a stretch above `hi`. -/
def Segment.above (hi : Nat) (s : Segment) : Option Segment :=
  if hi < s.hi then some { s with lo := max s.lo (hi + 1) } else none

/-- Put a stretch before a map, joined to its first stretch where the two touch and name one bank. -/
def joinSegment (s : Segment) : List Segment → List Segment
  | [] => [s]
  | t :: ts => if s.hi + 1 = t.lo ∧ s.id = t.id then { s with hi := t.hi } :: ts else s :: t :: ts

/-- `for a in lo .. hi: active[a] <- id` (R48, R49). -/
def assignActive (lo hi : Nat) (id : BankId) (segs : List Segment) : List Segment :=
  (segs.filterMap (Segment.below lo) ++ { lo := lo, hi := hi, id := id } :: segs.filterMap (Segment.above hi)).foldr
    joinSegment []

/-- Stretches in rising order from `from_`, each not empty and within the 65536 addresses, neighbours of one bank joined
(`prev` is the bank active just below `from_`), and each inside the range of an installed bank (R25 a). -/
def activeWf (banks : List Bank) (from_ : Nat) (prev : Option BankId) : List Segment → Bool
  | [] => true
  | s :: ss =>
    decide (from_ ≤ s.lo) && decide (s.lo ≤ s.hi) && decide (s.hi < 65536) &&
      !(decide (s.lo = from_) && decide (prev = some s.id)) &&
      banks.any (fun b => decide (b.id = s.id) && decide (b.lo.toNat ≤ s.lo) && decide (s.hi ≤ b.hi.toNat)) &&
      activeWf banks (s.hi + 1) (some s.id) ss

/-- The canonical form of the Memory: every bank as R48 asks, no two banks of one id, the map as `activeWf` says. -/
def Memory.wf (m : Memory) : Bool :=
  m.banks.all Bank.wf && decide ((m.banks.map Bank.id).Nodup) && activeWf m.banks 0 none m.active

/-! ## The operations -/

/-- `resolve(a)`: the id of the bank active at the address, or none (R45). -/
def Memory.resolve (m : Memory) (a : Addr) : Option BankId :=
  (m.active.find? (fun s => decide (s.lo ≤ a.toNat) && decide (a.toNat ≤ s.hi))).map Segment.id

/-- The installed bank of an id. -/
def Memory.bank (m : Memory) (id : BankId) : Option Bank := m.banks.find? (fun b => b.id == id)

/-- The bank active at an address (R45, R46). -/
def Memory.bankAt (m : Memory) (a : Addr) : Option Bank := (m.resolve a).bind m.bank

/-- What a read of plain memory answers: the storage of a RAM or ROM bank, or the open bus (R46, R51); none at a handler
bank, whose answer is the callback's. -/
def Memory.peek (m : Memory) (a : Addr) : Option Byte :=
  match m.bankAt a with
  | none => some Config.openBusValue
  | some b =>
    match b.kind with
    | .handler => none
    | .ram | .rom => some (b.byteAt a)

/-- Replace the bank of an id. -/
def Memory.setBank (m : Memory) (b : Bank) : Memory :=
  { m with banks := m.banks.map (fun c => if c.id = b.id then b else c) }

/-- The effect of a write on the Memory's own state: a RAM bank stores, a ROM bank, an unmapped address and a handler bank
store nothing (R47, R51). -/
def Memory.poke (m : Memory) (a : Addr) (v : Byte) : Memory :=
  match m.bankAt a with
  | none => m
  | some b =>
    match b.kind with
    | .ram => m.setBank (b.put a v)
    | .rom | .handler => m

/-- `install_bank(b)` (R48); none where its preconditions fail (ConfigError, D13). -/
def Memory.install (m : Memory) (b : Bank) : Option Memory :=
  if b.wf && !(m.banks.any (fun c => c.id == b.id)) then
    some { banks := m.banks ++ [b], active := assignActive b.lo.toNat b.hi.toNat b.id m.active }
  else none

/-- `switch([lo, hi], id)` (R49); none where the call is rejected (D13). -/
def Memory.switch (m : Memory) (lo hi : Addr) (id : BankId) : Option Memory :=
  match m.bank id with
  | none => none
  | some b =>
    if decide (lo.toNat ≤ hi.toNat) && decide (b.lo.toNat ≤ lo.toNat) && decide (hi.toNat ≤ b.hi.toNat) then
      some { m with active := assignActive lo.toNat hi.toNat id m.active }
    else none

/-- Set one byte of content from outside, a host action that reaches ROM storage too (R60); none where no storage is active. -/
def Memory.loadByte (m : Memory) (a : Addr) (v : Byte) : Option Memory :=
  match m.bankAt a with
  | none => none
  | some b =>
    match b.kind with
    | .handler => none
    | .ram | .rom => some (m.setBank (b.put a v))

/-- Set the bytes of an image from an address on (R60). -/
def Memory.loadBytes (m : Memory) (a : Addr) : List Byte → Option Memory
  | [] => some m
  | v :: vs => (m.loadByte a v).bind fun m => m.loadBytes (a + 1) vs

/-- No bank that is active anywhere is a handler bank: no access can call a callback (R53: none can fault). -/
def Memory.plain (m : Memory) : Bool :=
  m.active.all fun s =>
    match m.bank s.id with
    | none => true
    | some b => b.kind != .handler

end Sys2Proof.Machine
end

