-- ==== Sys2Proof/Machine/Ops.lean ====
section
/-! DEFINITION. The operations every meaning is built from: the bus access (20_memory R46, R47, R52, R53; one a cycle, R192),
push and pull (00_scope R5), the fetch (47_cycle_sequences R191), taking an exception and the return from it (60_exceptions
R269, R270, R272), interrupt entry (R221) and the reset sequence (R222). -/

namespace Sys2Proof.Machine

/-! ## The bus -/

/-- What a handler callback does beside its answer (R50, R52): a rejected switch changes nothing (R49), a wire write is
delivered at once (R235), and a callback that calls read, write or tick is refused (U9). That it may write through the
clock's own endpoint too is DESIGN CHOICE (log 22). -/
def handlerCall (c : HandlerCall) (s : State) : Res State :=
  match c with
  | .switch lo hi id =>
    match s.mem.switch lo hi id with
    | some m => .next (s.setMem m)
    | none => .next s
  | .fabric .stop => .next (s.setFabric s.fabric.stop)
  | .fabric (.writeWire src v) => writeWire (fun _ => .refused .handlerReentry) src v s
  | .reenter => .refused .handlerReentry

/-- `BusRead(a)` (R46): one cycle. The open bus reads as `OPEN_BUS_VALUE` (R51); a handler's fault halts (R53). A read
callback's `switch` is made like a write callback's: DESIGN CHOICE (log 31). -/
def busRead (a : Addr) (s : State) : Res (Byte × State) :=
  match s.mem.bankAt a with
  | none => .next (Config.openBusValue, s.addCycle)
  | some b =>
    match b.kind with
    | .ram | .rom => .next (b.byteAt a, s.addCycle)
    | .handler =>
      match Config.onRead s.world b.id a with
      | .fault k => .fault (.busError k)
      | .value v calls w => andThen (runAll handlerCall calls (s.addCycle.setWorld w)) fun s => .next (v, s)

/-- `BusWrite(a, v)` (R47): one cycle. RAM stores, ROM and the open bus ignore it, a handler's fault halts (R53). -/
def busWrite (a : Addr) (v : Byte) (s : State) : Res State :=
  match s.mem.bankAt a with
  | none => .next s.addCycle
  | some b =>
    match b.kind with
    | .ram => .next (s.addCycle.setMem (s.mem.setBank (b.put a v)))
    | .rom => .next s.addCycle
    | .handler =>
      match Config.onWrite s.world b.id a v with
      | .fault k => .fault (.busError k)
      | .ok calls w => runAll handlerCall calls (s.addCycle.setWorld w)

/-- A read whose byte is discarded: a real read on the bus (R63). -/
def discardRead (a : Addr) (s : State) : Res State := andThen (busRead a s) fun (_, s) => .next s

/-- Read the byte at `PC`; `PC++`. -/
def readAtPc (s : State) : Res (Byte × State) := andThen (busRead s.pc s) fun (v, s) => .next (v, s.setPc (s.pc + 1))

/-! ## The microexecution latches (R17) -/

/-- `adl <- v`. -/
def State.setAdl (s : State) (v : Byte) : State := s.setMicro { s.micro with adl := v }

/-- `adh <- v`. -/
def State.setAdh (s : State) (v : Byte) : State := s.setMicro { s.micro with adh := v }

/-- `ptr <- v`. -/
def State.setPtr (s : State) (v : Addr) : State := s.setMicro { s.micro with ptr := v }

/-- `operand <- v`. -/
def State.setOperand (s : State) (v : Byte) : State := s.setMicro { s.micro with operand := v }

/-- `page_cross <- b`. -/
def State.setPageCross (s : State) (b : Bool) : State := s.setMicro { s.micro with pageCross := b }

/-- `opcode <- v`. -/
def State.setOpcode (s : State) (v : Byte) : State := s.setMicro { s.micro with opcode := v }

/-- `seq <- q`. -/
def State.setSeq (s : State) (q : Seq) : State := s.setMicro { s.micro with seq := q }

/-- `cycle_index <- n`. -/
def State.setCycleIndex (s : State) (n : Nat) : State := s.setMicro { s.micro with cycleIndex := n }

/-- `{adh, adl}`: the address the latches hold. -/
def State.latchedAddr (s : State) : Addr := cat s.micro.adh s.micro.adl

/-! ## The stack -/

/-- `push(v)`: store, then decrement (R5, R11, R58). -/
def push (v : Byte) (s : State) : Res State :=
  andThen (busWrite (stackAddr s.sp) v s) fun s => .next (s.setSp (s.sp - 1))

/-- `pull()`: increment, then load (R5, R11, R58). -/
def pull (s : State) : Res (Byte × State) := busRead (stackAddr (s.sp + 1)) (s.setSp (s.sp + 1))

/-- The cycle in which the stack is read at the old `SP` before a pull (R214, R217 to R219). -/
def discardStack (s : State) : Res State := discardRead (stackAddr s.sp) s

/-! ## Fetch -/

/-- The fetch cycle c0 (R191): the opcode is read at `PC`, `PC++`. -/
def fetchOpcode (s : State) : Res (Byte × State) :=
  andThen (readAtPc (s.setSeq .instr)) fun (op, s) => .next (op, s.setOpcode op)

/-- The byte that memory shows at an address without an access, 0x00 at a handler bank: the third byte of a JSR, which the
machine reads only after its pushes (R217; log 10). -/
def shownByte (s : State) (a : Addr) : Byte := (s.mem.peek a).getD Config.openBusValue

/-- The operand bytes that are read before anything else an instruction does: the low byte on c1, the high byte on c2, each
with `PC++` (R85, R195 to R217). JSR reads its third byte last, so only its second byte is read here. -/
def fetchOperands (op : Option Op) (s : State) : Res (List Byte × State) :=
  match op with
  | none => .next ([], s)
  | some .jsr => andThen (readAtPc s) fun (b1, s) => .next ([b1, shownByte s s.pc], s)
  | some op =>
    match op.length with
    | 1 => .next ([], s)
    | 2 => andThen (readAtPc s) fun (b1, s) => .next ([b1], s)
    | _ => andThen (readAtPc s) fun (b1, s) => andThen (readAtPc s) fun (b2, s) => .next ([b1, b2], s)

/-- Fetch the bytes of the instruction at `PC` over the bus (R85, R88, R191). -/
def fetchBytes (s : State) : Res (List Byte × State) :=
  andThen (fetchOpcode s) fun (op, s) =>
    andThen (fetchOperands (lookup op) s) fun (rest, s) => .next (op :: rest, s)

/-- The instruction that fetched bytes are. -/
def decodeFetched (bytes : List Byte) : Res Instr :=
  match decode bytes with
  | .ok (i, _) => .next i
  | .error _ => .refused .shortFetch

/-! ## Exceptions -/

/-- The NMI vector (R57). -/
def nmiVector : Addr := 0xFFFA#16

/-- The RESET vector (R57). -/
def resetVector : Addr := 0xFFFC#16

/-- The IRQ and BRK vector (R57). -/
def irqVector : Addr := 0xFFFE#16

/-- Vector selection on c5: a pending NMI takes the entry over and is cleared (R270). -/
def selectVector (s : State) : State :=
  if s.lines.nmiPending then (s.setPtr nmiVector).setLines { s.lines with nmiPending := false } else s.setPtr irqVector

/-- Taking an exception, cycles c2 to c6 of BRK, IRQ and NMI (R220, R221, R269, R270): push `PC`, high byte first, then the
status byte with B = `brk`; choose the vector; set I; load `PC`, low byte first. D is unchanged. -/
def takeException (brk : Bool) (s : State) : Res State :=
  andThen (push (hi s.pc) s) fun s =>
  andThen (push (lo s.pc) s) fun s =>
  andThen (push (s.p.toByte brk) s) fun s =>
  let s := selectVector s
  andThen (busRead s.micro.ptr s) fun (l, s) =>
  let s := (s.setAdl l).setP { s.p with i := true }
  andThen (busRead (s.micro.ptr + 1) s) fun (h, s) =>
  let s := s.setAdh h
  .next (s.setPc s.latchedAddr)

/-- The return from an exception, cycles c2 to c5 of RTI (R219, R272): pull the status byte, then the return address. -/
def returnFromException (s : State) : Res State :=
  andThen (discardStack s) fun s =>
  andThen (pull s) fun (v, s) =>
  andThen (pull (s.setOperand v)) fun (l, s) =>
  andThen (pull (s.setAdl l)) fun (h, s) =>
  let s := s.setAdh h
  .next ((s.setPc s.latchedAddr).setP (Flags.ofByte s.micro.operand))

/-- Interrupt entry (R221): two discarded reads at `PC`, which is not advanced, then the exception with B = 0. -/
def interruptEntry (s : State) : Res State :=
  andThen (discardRead s.pc s) fun s =>
  andThen (discardRead s.pc s) fun s =>
  takeException false s

/-- The flags after a reset (R222): I set, D cleared where `RESET_CLEARS_D`. -/
def Flags.afterReset (p : Flags) : Flags := { p with i := true, d := if Config.resetClearsD then false else p.d }

/-- One stack cycle of the reset sequence: a read, not a write, and `SP--` (R222). -/
def resetStackCycle (s : State) : Res State :=
  andThen (discardStack s) fun s => .next (s.setSp (s.sp - 1))

/-- The reset sequence (R222, R290). -/
def resetSequence (s : State) : Res State :=
  andThen (discardRead s.pc (s.setSp 0x00#8)) fun s =>
  andThen (discardRead s.pc s) fun s =>
  andThen (resetStackCycle s) fun s =>
  andThen (resetStackCycle s) fun s =>
  andThen (resetStackCycle s) fun s =>
  andThen (busRead resetVector s) fun (l, s) =>
  let s := (s.setAdl l).setP s.p.afterReset
  andThen (busRead (resetVector + 1) s) fun (h, s) =>
  let s := s.setAdh h
  .next (s.setPc s.latchedAddr)

/-! ## Placing a byte from outside -/

/-- An identifier no installed bank has. -/
def Memory.freshId (m : Memory) : BankId := (m.banks.map Bank.id).foldl max 0 + 1

/-- Make an address read as a byte: loaded into the storage active there (R60), else in a one-byte RAM bank installed there (R48). -/
def Memory.placeByte (m : Memory) (a : Addr) (v : Byte) : Memory :=
  match m.loadByte a v with
  | some m => m
  | none =>
    let b := Bank.ofBytes m.freshId .ram a a [v]
    (m.install b).getD m

/-! ## Recognition and the snapshot -/

/-- An interrupt is taken at this boundary if no reset is (R263, R267, R268). -/
def State.interruptDue (s : State) : Bool := s.lines.nmiPending || (s.lines.irqLevel && !s.p.i)

/-- The sequence that begins at a boundary (R190, R263): reset first, then NMI or IRQ, else an instruction. -/
def State.nextSeq (s : State) : Seq :=
  if s.lines.resetPending then .reset else if s.interruptDue then .int else .instr

/-- The choice of the sequence at a boundary (R190): a reset that begins is no longer pending (R266). -/
def State.beginSequence (s : State) : State :=
  let q := s.nextSeq
  let s := s.setSeq q
  if q = .reset then s.setLines { s.lines with resetPending := false } else s

/-- What `registers()` answers (R27). That it shows none of `cycles`, `opcode` and `cycle_index`, of which the spec says
nothing (N9), is DESIGN CHOICE (log 23). -/
structure Snapshot where
  a  : Byte
  x  : Byte
  y  : Byte
  sp : Byte
  pc : Addr
  p  : Byte
deriving DecidableEq, Repr, Inhabited

/-- `registers()`: the registers as they stand and `P_byte(false)` (R27). -/
def State.registers (s : State) : Snapshot where
  a := s.a
  x := s.x
  y := s.y
  sp := s.sp
  pc := s.pc
  p := s.p.toByte false

end Sys2Proof.Machine
end

