-- ==== Sys2Proof/Machine/Operands.lean ====
section
/-! DEFINITION. The addressing modes: 30_encoding R72 to R84, with the accesses of 47_cycle_sequences R195 to R211 in their
order. Each starts after the operand bytes have been fetched (Machine/Ops.lean, `fetchOperands`) and puts them into the
latches the cycle rules name. -/

namespace Sys2Proof.Machine

/-- The index of a mode: X or Y. -/
inductive Index where
  | x
  | y
deriving DecidableEq, Repr, Inhabited

/-- The value of an index register. -/
def Index.value (i : Index) (s : State) : Byte :=
  match i with
  | .x => s.x
  | .y => s.y

/-! ## Effective addresses -/

/-- Zero page indexed, c2 (R76, R77, R199): a discarded read at the unindexed address; the sum wraps in page zero. -/
def indexZeroPage (i : Index) (s : State) : Res State :=
  andThen (discardRead (zeroPage s.micro.adl) s) fun s => .next (s.setAdl (s.micro.adl + i.value s))

/-- The low-byte sum of an indexed address (R79, R80, R83, R205, R210): `page_cross` is its carry, the page is not yet corrected. -/
def State.indexLow (s : State) (i : Index) : State :=
  (s.setPageCross (carries s.micro.adl (i.value s))).setAdl (s.micro.adl + i.value s)

/-- The carry into the page, `adh <- adh +_8 1` (R205 to R207). -/
def State.nextPage (s : State) : State := s.setAdh (s.micro.adh + 1)

/-- The cycle that stores and RMW instructions always pay (R206, R207, R211): a discarded read at the uncorrected address,
then the carry. -/
def fixPage (s : State) : Res State :=
  andThen (discardRead s.latchedAddr s) fun s => .next (if s.micro.pageCross then s.nextPage else s)

/-- Both operand bytes of an absolute address in the latches (R78, R202). -/
def State.setAddress (s : State) (a : Addr) : State := (s.setAdl (lo a)).setAdh (hi a)

/-- The low half of `ptr` plus one, in page zero: where the second pointer byte lies (R82, R83, R208, R210). -/
def State.pointerHigh (s : State) : Addr := zeroPage (lo s.micro.ptr + 1)

/-- The two pointer bytes from page zero into `adl` and `adh` (R208, R210). -/
def readPointer (s : State) : Res State :=
  andThen (busRead s.micro.ptr s) fun (l, s) =>
  andThen (busRead s.pointerHigh (s.setAdl l)) fun (h, s) =>
  .next (s.setAdh h)

/-- (zp,X), c2 to c4 (R82, R208): a discarded read at the unindexed pointer, then the pointer bytes. -/
def indexedIndirect (z : Byte) (s : State) : Res State :=
  let s := s.setPtr (zeroPage z)
  andThen (discardRead s.micro.ptr s) fun s =>
  readPointer (s.setPtr (zeroPage (lo s.micro.ptr + s.x)))

/-- (zp),Y, c2 and c3 (R83, R210): the pointer bytes, then the low-byte sum with Y. -/
def indirectIndexed (z : Byte) (s : State) : Res State :=
  andThen (readPointer (s.setPtr (zeroPage z))) fun s => .next (s.indexLow .y)

/-! ## The read class -/

/-- The data cycle: `operand <- BusRead(a)`. -/
def readData (a : Addr) (s : State) : Res (Byte × State) :=
  andThen (busRead a s) fun (v, s) => .next (v, s.setOperand v)

/-- The data cycle of an indexed read (R205, R210): where the index crosses a page the byte read first, at the uncorrected
address, is discarded and one more cycle reads the right one. -/
def readIndexed (s : State) : Res (Byte × State) :=
  andThen (readData s.latchedAddr s) fun (v, s) =>
  if s.micro.pageCross then readData s.nextPage.latchedAddr s.nextPage else .next (v, s)

/-- The operand byte `M` of a read-class instruction (R74 to R83), with every access its mode makes. -/
def readOperand (m : ReadMode) (s : State) : Res (Byte × State) :=
  match m with
  | .imm v => .next (v, s.setOperand v)
  | .zp z => readData (zeroPage z) (s.setAdl z)
  | .zpx z => andThen (indexZeroPage .x (s.setAdl z)) fun s => readData (zeroPage s.micro.adl) s
  | .zpy z => andThen (indexZeroPage .y (s.setAdl z)) fun s => readData (zeroPage s.micro.adl) s
  | .abs a => readData a (s.setAddress a)
  | .abx a => readIndexed ((s.setAddress a).indexLow .x)
  | .aby a => readIndexed ((s.setAddress a).indexLow .y)
  | .izx z => andThen (indexedIndirect z s) fun s => readData s.latchedAddr s
  | .izy z => andThen (indirectIndexed z s) fun s => readIndexed s

/-! ## The write class -/

/-- The address a store writes to (R75 to R83), with every access its mode makes before the write. -/
def writeAddress (m : WriteMode) (s : State) : Res (Addr × State) :=
  match m with
  | .zp z => .next (zeroPage z, s.setAdl z)
  | .zpx z => andThen (indexZeroPage .x (s.setAdl z)) fun s => .next (zeroPage s.micro.adl, s)
  | .zpy z => andThen (indexZeroPage .y (s.setAdl z)) fun s => .next (zeroPage s.micro.adl, s)
  | .abs a => .next (a, s.setAddress a)
  | .abx a => andThen (fixPage ((s.setAddress a).indexLow .x)) fun s => .next (s.latchedAddr, s)
  | .aby a => andThen (fixPage ((s.setAddress a).indexLow .y)) fun s => .next (s.latchedAddr, s)
  | .izx z => andThen (indexedIndirect z s) fun s => .next (s.latchedAddr, s)
  | .izy z => andThen (indirectIndexed z s) fun s => andThen (fixPage s) fun s => .next (s.latchedAddr, s)

/-- A store: the address, then the write (R103 to R105). -/
def storeOperand (m : WriteMode) (v : Byte) (s : State) : Res State :=
  andThen (writeAddress m s) fun (a, s) => busWrite a v s

/-! ## The RMW class -/

/-- The address an RMW instruction reads and writes (R75, R76, R78, R79), with every access its mode makes before. -/
def rmwAddress (m : RmwMode) (s : State) : Res (Addr × State) :=
  match m with
  | .zp z => .next (zeroPage z, s.setAdl z)
  | .zpx z => andThen (indexZeroPage .x (s.setAdl z)) fun s => .next (zeroPage s.micro.adl, s)
  | .abs a => .next (a, s.setAddress a)
  | .abx a => andThen (fixPage ((s.setAddress a).indexLow .x)) fun s => .next (s.latchedAddr, s)

/-- Read, write of the original value, write of the result (R43, R198, R201, R204, R207). `f` answers the result and the
flags from the operand and the flags before. -/
def modifyMemory (m : RmwMode) (f : Byte → Flags → Byte × Flags) (s : State) : Res State :=
  andThen (rmwAddress m s) fun (a, s) =>
  andThen (readData a s) fun (v, s) =>
  andThen (busWrite a v s) fun s =>
  let r := f v s.p
  busWrite a r.1 ((s.setOperand r.1).setP r.2)

/-- A shift or rotate of the accumulator or of memory (R73, R140 to R143). On the accumulator the second cycle discards the
byte after the opcode (R194). -/
def modifyOperand (m : ShiftMode) (f : Byte → Flags → Byte × Flags) (s : State) : Res State :=
  match m with
  | .acc =>
    andThen (discardRead s.pc s) fun s =>
    let r := f s.a s.p
    .next ((s.setA r.1).setP r.2)
  | .mem m => modifyMemory m f s

/-- A two-cycle implied instruction (R194): the second cycle discards the byte after the opcode, then the operation. -/
def implied (f : State → State) (s : State) : Res State :=
  andThen (discardRead s.pc s) fun s => .next (f s)

end Sys2Proof.Machine
end

