-- ==== Sys2Proof/Machine/LoadStore.lean ====
section
/-! DEFINITION. Loads and stores: 40_load_store R100 to R105. -/

namespace Sys2Proof.Machine

/-- `A <- M; setNZ(A)` (R100). -/
def ldaEffect (m : Byte) (s : State) : State := (s.setA m).setP (s.p.setNZ m)

/-- `X <- M; setNZ(X)` (R101). -/
def ldxEffect (m : Byte) (s : State) : State := (s.setX m).setP (s.p.setNZ m)

/-- `Y <- M; setNZ(Y)` (R102). -/
def ldyEffect (m : Byte) (s : State) : State := (s.setY m).setP (s.p.setNZ m)

/-- A read-class instruction (R223): its operand byte, then its effect. -/
def readThen (m : ReadMode) (f : Byte → State → State) (s : State) : Res State :=
  andThen (readOperand m s) fun (v, s) => .next (f v s)

/-- LDA (R100). -/
def execLda (m : ReadMode) (s : State) : Res State := readThen m ldaEffect s

/-- LDX (R101). -/
def execLdx (m : ReadMode) (s : State) : Res State := readThen m ldxEffect s

/-- LDY (R102). -/
def execLdy (m : ReadMode) (s : State) : Res State := readThen m ldyEffect s

/-- STA (R103). -/
def execSta (m : WriteMode) (s : State) : Res State := storeOperand m s.a s

/-- STX (R104). -/
def execStx (m : WriteMode) (s : State) : Res State := storeOperand m s.x s

/-- STY (R105). -/
def execSty (m : WriteMode) (s : State) : Res State := storeOperand m s.y s

end Sys2Proof.Machine
end

