-- ==== Sys2Proof/Machine/Arithmetic.lean ====
section
/-! DEFINITION. Arithmetic and compare: 42_arithmetic R120 to R124. -/

namespace Sys2Proof.Machine

/-- ADC's change: `A <- r` and N, V, Z, C (R120). -/
def adcEffect (m : Byte) (s : State) : State :=
  let r := adcResult s.p s.a m
  (s.setA r.r).setP (s.p.ofAdd r)

/-- SBC's change: `A <- r` and N, V, Z, C (R121). -/
def sbcEffect (m : Byte) (s : State) : State :=
  let r := sbcResult s.p s.a m
  (s.setA r.r).setP (s.p.ofAdd r)

/-- CMP's change: N, Z, C of A against M (R122). -/
def cmpEffect (m : Byte) (s : State) : State := s.setP (s.p.compare s.a m)

/-- CPX's change: N, Z, C of X against M (R123). -/
def cpxEffect (m : Byte) (s : State) : State := s.setP (s.p.compare s.x m)

/-- CPY's change: N, Z, C of Y against M (R124). -/
def cpyEffect (m : Byte) (s : State) : State := s.setP (s.p.compare s.y m)

/-- ADC (R120). -/
def execAdc (m : ReadMode) (s : State) : Res State := readThen m adcEffect s

/-- SBC (R121). -/
def execSbc (m : ReadMode) (s : State) : Res State := readThen m sbcEffect s

/-- CMP (R122). -/
def execCmp (m : ReadMode) (s : State) : Res State := readThen m cmpEffect s

/-- CPX (R123). -/
def execCpx (m : ReadMode) (s : State) : Res State := readThen m cpxEffect s

/-- CPY (R124). -/
def execCpy (m : ReadMode) (s : State) : Res State := readThen m cpyEffect s

end Sys2Proof.Machine
end

