-- ==== Sys2Proof/Machine/Control.lean ====
section
/-! DEFINITION. Control transfer: 45_control_flow R150 to R161. `PC` already points past the operand bytes that have been
fetched (`fetchOperands`): past the whole instruction, but for JSR at its third byte. -/

namespace Sys2Proof.Machine

/-- Where JMP indirect reads the high byte: the pointer's low byte plus one, in the same page (R81). -/
def jumpPointerHigh (p : Addr) : Addr := cat (hi p) (lo p + 1)

/-- JMP (R150, R215, R216). -/
def execJmp (m : JumpMode) (s : State) : Res State :=
  match m with
  | .abs a =>
    let s := s.setAddress a
    .next (s.setPc s.latchedAddr)
  | .ind p =>
    let s := s.setPtr p
    andThen (busRead s.micro.ptr s) fun (l, s) =>
    andThen (busRead (jumpPointerHigh s.micro.ptr) (s.setAdl l)) fun (h, s) =>
    let s := s.setAdh h
    .next (s.setPc s.latchedAddr)

/-- JSR (R151, R217): `PC` is the address of the third byte; it is pushed, high byte first, and only then is the third byte
read, which therefore may be a byte just pushed. `target` gives the low byte; its high byte is what memory showed when the
instruction was decoded, and the byte read here counts (log 10). -/
def execJsr (target : Addr) (s : State) : Res State :=
  let s := s.setAdl (lo target)
  andThen (discardStack s) fun s =>
  andThen (push (hi s.pc) s) fun s =>
  andThen (push (lo s.pc) s) fun s =>
  andThen (busRead s.pc s) fun (h, s) =>
  let s := s.setAdh h
  .next (s.setPc s.latchedAddr)

/-- RTS (R152, R218): pull low, pull high, then one more than the pulled address. On the frame of an interrupt too, whose status
byte is then the low byte pulled, though R272 says otherwise: DESIGN CHOICE (log 30). -/
def execRts (s : State) : Res State :=
  andThen (discardRead s.pc s) fun s =>
  andThen (discardStack s) fun s =>
  andThen (pull s) fun (l, s) =>
  andThen (pull (s.setAdl l)) fun (h, s) =>
  let s := s.setAdh h
  let s := s.setPc s.latchedAddr
  andThen (discardRead s.pc s) fun s => .next (s.setPc (s.pc + 1))

/-- The target of a branch: the address after it plus the signed offset (R84). -/
def branchTarget (next : Addr) (rel : Byte) : Addr := next + sext16 rel

/-- A taken branch, c2 and c3 (R161, R212): a discarded read at the next instruction, the target's low byte, and where the
page differs a discarded read at the uncorrected address before its high byte. -/
def takeBranch (s : State) : Res State :=
  andThen (discardRead s.pc s) fun s =>
  let t := branchTarget s.pc s.micro.operand
  let s := (s.setPageCross (hi t != hi s.pc)).setAdh (hi t)
  let s := s.setPc (cat (hi s.pc) (lo t))
  if s.micro.pageCross then
    andThen (discardRead s.pc s) fun s => .next (s.setPc (cat s.micro.adh (lo s.pc)))
  else .next s

/-- The common part of the branches (R161). -/
def branch (taken : Bool) (rel : Byte) (s : State) : Res State :=
  let s := s.setOperand rel
  if taken then takeBranch s else .next s

/-- BCC: taken when C = 0 (R153). -/
def execBcc (rel : Byte) (s : State) : Res State := branch (!s.p.c) rel s

/-- BCS: taken when C = 1 (R154). -/
def execBcs (rel : Byte) (s : State) : Res State := branch s.p.c rel s

/-- BEQ: taken when Z = 1 (R155). -/
def execBeq (rel : Byte) (s : State) : Res State := branch s.p.z rel s

/-- BNE: taken when Z = 0 (R156). -/
def execBne (rel : Byte) (s : State) : Res State := branch (!s.p.z) rel s

/-- BMI: taken when N = 1 (R157). -/
def execBmi (rel : Byte) (s : State) : Res State := branch s.p.n rel s

/-- BPL: taken when N = 0 (R158). -/
def execBpl (rel : Byte) (s : State) : Res State := branch (!s.p.n) rel s

/-- BVC: taken when V = 0 (R159). -/
def execBvc (rel : Byte) (s : State) : Res State := branch (!s.p.v) rel s

/-- BVS: taken when V = 1 (R160). -/
def execBvs (rel : Byte) (s : State) : Res State := branch s.p.v rel s

end Sys2Proof.Machine
end

