-- ==== Sys2Proof/Machine/Logic.lean ====
section
/-! DEFINITION. Logic and bit test: 43_logic R130 to R133. -/

namespace Sys2Proof.Machine

/-- `A <- A & M; setNZ(A)` (R130). -/
def andEffect (m : Byte) (s : State) : State := (s.setA (s.a &&& m)).setP (s.p.setNZ (s.a &&& m))

/-- `A <- A | M; setNZ(A)` (R131). -/
def oraEffect (m : Byte) (s : State) : State := (s.setA (s.a ||| m)).setP (s.p.setNZ (s.a ||| m))

/-- `A <- A ^ M; setNZ(A)` (R132). -/
def eorEffect (m : Byte) (s : State) : State := (s.setA (s.a ^^^ m)).setP (s.p.setNZ (s.a ^^^ m))

/-- BIT's change: Z from A AND M, N and V from M (R133). -/
def bitEffect (m : Byte) (s : State) : State := s.setP (s.p.bitTest s.a m)

/-- AND (R130). -/
def execAnd (m : ReadMode) (s : State) : Res State := readThen m andEffect s

/-- ORA (R131). -/
def execOra (m : ReadMode) (s : State) : Res State := readThen m oraEffect s

/-- EOR (R132). -/
def execEor (m : ReadMode) (s : State) : Res State := readThen m eorEffect s

/-- BIT (R133). -/
def execBit (m : ReadMode) (s : State) : Res State := readThen m bitEffect s

end Sys2Proof.Machine
end

