-- ==== Sys2Proof/Machine/Shift.lean ====
section
/-! DEFINITION. Shifts, rotates, increments and decrements: 44_shift_incdec R140 to R149. -/

namespace Sys2Proof.Machine

/-- ASL's result and flags (R140). -/
def aslOperation (v : Byte) (p : Flags) : Byte × Flags := (aslResult v, p.shift (bitAt v 7) (aslResult v))

/-- LSR's result and flags (R141). -/
def lsrOperation (v : Byte) (p : Flags) : Byte × Flags := (lsrResult v, p.shift (bitAt v 0) (lsrResult v))

/-- ROL's result and flags (R142). -/
def rolOperation (v : Byte) (p : Flags) : Byte × Flags := (rolResult v p.c, p.shift (bitAt v 7) (rolResult v p.c))

/-- ROR's result and flags (R143). -/
def rorOperation (v : Byte) (p : Flags) : Byte × Flags := (rorResult v p.c, p.shift (bitAt v 0) (rorResult v p.c))

/-- INC's result and flags (R144): C and V stay. -/
def incOperation (v : Byte) (p : Flags) : Byte × Flags := (v + 1, p.setNZ (v + 1))

/-- DEC's result and flags (R145): C and V stay. -/
def decOperation (v : Byte) (p : Flags) : Byte × Flags := (v - 1, p.setNZ (v - 1))

/-- ASL (R140). -/
def execAsl (m : ShiftMode) (s : State) : Res State := modifyOperand m aslOperation s

/-- LSR (R141). -/
def execLsr (m : ShiftMode) (s : State) : Res State := modifyOperand m lsrOperation s

/-- ROL (R142). -/
def execRol (m : ShiftMode) (s : State) : Res State := modifyOperand m rolOperation s

/-- ROR (R143). -/
def execRor (m : ShiftMode) (s : State) : Res State := modifyOperand m rorOperation s

/-- INC (R144). -/
def execInc (m : RmwMode) (s : State) : Res State := modifyMemory m incOperation s

/-- DEC (R145). -/
def execDec (m : RmwMode) (s : State) : Res State := modifyMemory m decOperation s

/-- `X <- X +_8 1; setNZ(X)` (R146). -/
def inxEffect (s : State) : State := (s.setX (s.x + 1)).setP (s.p.setNZ (s.x + 1))

/-- `Y <- Y +_8 1; setNZ(Y)` (R147). -/
def inyEffect (s : State) : State := (s.setY (s.y + 1)).setP (s.p.setNZ (s.y + 1))

/-- `X <- X -_8 1; setNZ(X)` (R148). -/
def dexEffect (s : State) : State := (s.setX (s.x - 1)).setP (s.p.setNZ (s.x - 1))

/-- `Y <- Y -_8 1; setNZ(Y)` (R149). -/
def deyEffect (s : State) : State := (s.setY (s.y - 1)).setP (s.p.setNZ (s.y - 1))

/-- INX (R146). -/
def execInx (s : State) : Res State := implied inxEffect s

/-- INY (R147). -/
def execIny (s : State) : Res State := implied inyEffect s

/-- DEX (R148). -/
def execDex (s : State) : Res State := implied dexEffect s

/-- DEY (R149). -/
def execDey (s : State) : Res State := implied deyEffect s

end Sys2Proof.Machine
end

