-- ==== Sys2Proof/Machine/System.lean ====
section
/-! DEFINITION. Flag instructions, NOP, BRK, RTI and the illegal opcodes: 46_flags_system R170 to R180. -/

namespace Sys2Proof.Machine

/-- `P.C <- 0` (R170). -/
def clcEffect (s : State) : State := s.setP { s.p with c := false }

/-- `P.C <- 1` (R171). -/
def secEffect (s : State) : State := s.setP { s.p with c := true }

/-- `P.I <- 0` (R172). -/
def cliEffect (s : State) : State := s.setP { s.p with i := false }

/-- `P.I <- 1` (R173). -/
def seiEffect (s : State) : State := s.setP { s.p with i := true }

/-- `P.D <- 0` (R174). -/
def cldEffect (s : State) : State := s.setP { s.p with d := false }

/-- `P.D <- 1` (R175). -/
def sedEffect (s : State) : State := s.setP { s.p with d := true }

/-- `P.V <- 0` (R176). -/
def clvEffect (s : State) : State := s.setP { s.p with v := false }

/-- Nothing changes (R177). -/
def nopEffect (s : State) : State := s

/-- CLC (R170). -/
def execClc (s : State) : Res State := implied clcEffect s

/-- SEC (R171). -/
def execSec (s : State) : Res State := implied secEffect s

/-- CLI (R172). -/
def execCli (s : State) : Res State := implied cliEffect s

/-- SEI (R173). -/
def execSei (s : State) : Res State := implied seiEffect s

/-- CLD (R174). -/
def execCld (s : State) : Res State := implied cldEffect s

/-- SED (R175). -/
def execSed (s : State) : Res State := implied sedEffect s

/-- CLV (R176). -/
def execClv (s : State) : Res State := implied clvEffect s

/-- NOP (R177). -/
def execNop (s : State) : Res State := implied nopEffect s

/-- BRK (R178, R220): the padding byte is read and discarded, `PC` moves past it, and the exception is taken with B = 1. -/
def execBrk (s : State) : Res State :=
  andThen (discardRead s.pc s) fun s => takeException true (s.setPc (s.pc + 1))

/-- RTI (R179, R219). -/
def execRti (s : State) : Res State :=
  andThen (discardRead s.pc s) fun s => returnFromException s

/-- The halt of the strict policy (R180, R191, R262): the state after the fetch cycle, with the opcode and its address. -/
def haltInvalid (opcode : Byte) (s : State) : State := s.setHalted (some (.invalidOpcode opcode (s.pc - 1)))

/-- ILL, any illegal opcode (R87, R180): as NOP, or a halt on the fetch under the strict policy. -/
def execIll (opcode : Byte) (s : State) : Res State :=
  match s.platform.illegalPolicy with
  | .nop2 => implied nopEffect s
  | .strict => .next (haltInvalid opcode s)

end Sys2Proof.Machine
end

