-- ==== Sys2Proof/Machine/Transfer.lean ====
section
/-! DEFINITION. Register transfers and stack instructions: 41_transfer_stack R110 to R119. -/

namespace Sys2Proof.Machine

/-- `X <- A; setNZ(X)` (R110). -/
def taxEffect (s : State) : State := (s.setX s.a).setP (s.p.setNZ s.a)

/-- `Y <- A; setNZ(Y)` (R111). -/
def tayEffect (s : State) : State := (s.setY s.a).setP (s.p.setNZ s.a)

/-- `A <- X; setNZ(A)` (R112). -/
def txaEffect (s : State) : State := (s.setA s.x).setP (s.p.setNZ s.x)

/-- `A <- Y; setNZ(A)` (R113). -/
def tyaEffect (s : State) : State := (s.setA s.y).setP (s.p.setNZ s.y)

/-- `X <- SP; setNZ(X)` (R114). -/
def tsxEffect (s : State) : State := (s.setX s.sp).setP (s.p.setNZ s.sp)

/-- `SP <- X`, no flag (R115). -/
def txsEffect (s : State) : State := s.setSp s.x

/-- TAX (R110). -/
def execTax (s : State) : Res State := implied taxEffect s

/-- TAY (R111). -/
def execTay (s : State) : Res State := implied tayEffect s

/-- TXA (R112). -/
def execTxa (s : State) : Res State := implied txaEffect s

/-- TYA (R113). -/
def execTya (s : State) : Res State := implied tyaEffect s

/-- TSX (R114). -/
def execTsx (s : State) : Res State := implied tsxEffect s

/-- TXS (R115). -/
def execTxs (s : State) : Res State := implied txsEffect s

/-- PHA (R116, R213). -/
def execPha (s : State) : Res State :=
  andThen (discardRead s.pc s) fun s => push s.a s

/-- PHP (R117, R213): the pushed byte has bits 5 and 4 set. -/
def execPhp (s : State) : Res State :=
  andThen (discardRead s.pc s) fun s => push (s.p.toByte true) s

/-- The cycles PLA and PLP share (R214). -/
def pullOperand (s : State) : Res (Byte × State) :=
  andThen (discardRead s.pc s) fun s =>
  andThen (discardStack s) fun s =>
  andThen (pull s) fun (v, s) => .next (v, s.setOperand v)

/-- `A <- pulled; setNZ(A)` (R118). -/
def plaEffect (v : Byte) (s : State) : State := (s.setA v).setP (s.p.setNZ v)

/-- `P_load(pulled)` (R119). -/
def plpEffect (v : Byte) (s : State) : State := s.setP (Flags.ofByte v)

/-- PLA (R118, R214). -/
def execPla (s : State) : Res State :=
  andThen (pullOperand s) fun (v, s) => .next (plaEffect v s)

/-- PLP (R119, R214). -/
def execPlp (s : State) : Res State :=
  andThen (pullOperand s) fun (v, s) => .next (plpEffect v s)

end Sys2Proof.Machine
end

