-- ==== Sys2Proof/Machine/Cycle.lean ====
section
/-! DEFINITION. The cycle level: 47_cycle_sequences R190 to R224. `tick` is one clock cycle of the CPU; each sequence is a
fixed table of lines, each line with exactly one bus access. The names c0, c1, ... are the rules'. -/

namespace Sys2Proof.Machine

/-! ## Lines -/

/-- The one bus access of a line (R192). -/
inductive Access where
  | read (a : Addr)
  | write (a : Addr) (v : Byte)
deriving DecidableEq, Repr, Inhabited

/-- Make the access; the byte answered is the one read or written. -/
def Access.perform (acc : Access) (s : State) : Res (Byte × State) :=
  match acc with
  | .read a => busRead a s
  | .write a v => andThen (busWrite a v s) fun s => .next (v, s)

/-- One line of a table: what it does before the access, the access, and what it does after with the byte on the bus;
`true` marks the final micro-step (`end`). -/
structure Line where
  before : State → State
  access : State → Access
  after  : Byte → State → State × Bool

/-- A line that is not the last. -/
def goOn (access : State → Access) (f : Byte → State → State) : Line where
  before := id
  access := access
  after := fun v s => (f v s, false)

/-- The last line of its sequence. -/
def finish (access : State → Access) (f : Byte → State → State) : Line where
  before := id
  access := access
  after := fun v s => (f v s, true)

/-! ## Accesses and updates that the tables share -/

/-- `BusRead(PC)`. -/
def pcRead (s : State) : Access := .read s.pc

/-- `BusRead(0x0100 | SP)`. -/
def stackRead (s : State) : Access := .read (stackAddr s.sp)

/-- `BusRead(ptr)`. -/
def ptrRead (s : State) : Access := .read s.micro.ptr

/-- `{0x00, adl}`. -/
def State.zeroPageEa (s : State) : Addr := zeroPage s.micro.adl

/-- `PC++`. -/
def State.incPc (s : State) : State := s.setPc (s.pc + 1)

/-- `SP++`. -/
def State.incSp (s : State) : State := s.setSp (s.sp + 1)

/-- `SP--`. -/
def State.decSp (s : State) : State := s.setSp (s.sp - 1)

/-- A discarded byte: the update does not look at it. -/
def discarded (f : State → State) : Byte → State → State := fun _ s => f s

/-! ## The operation of an opcode: `exec(I, M)`, `val(I)`, `rmw(I, v)`, `cond(I)` (R193, R212) -/

/-- `exec(I, M)` of the read class. -/
def readEffect : ReadOp → Byte → State → State
  | .lda => ldaEffect
  | .ldx => ldxEffect
  | .ldy => ldyEffect
  | .adc => adcEffect
  | .sbc => sbcEffect
  | .cmp => cmpEffect
  | .cpx => cpxEffect
  | .cpy => cpyEffect
  | .and => andEffect
  | .ora => oraEffect
  | .eor => eorEffect
  | .bit => bitEffect

/-- `val(I)` of the write class. -/
def writeValue (o : WriteOp) (s : State) : Byte :=
  match o with
  | .sta => s.a
  | .stx => s.x
  | .sty => s.y

/-- `rmw(I, v)` of the shifts and rotates. -/
def shiftOperation : ShiftOp → Byte → Flags → Byte × Flags
  | .asl => aslOperation
  | .lsr => lsrOperation
  | .rol => rolOperation
  | .ror => rorOperation

/-- `rmw(I, v)` of the RMW class. -/
def rmwOperation : RmwOp → Byte → Flags → Byte × Flags
  | .shift o => shiftOperation o
  | .inc => incOperation
  | .dec => decOperation

/-- The operation of a two-cycle implied instruction. -/
def impliedEffect : ImpliedOp → State → State
  | .tax => taxEffect
  | .tay => tayEffect
  | .txa => txaEffect
  | .tya => tyaEffect
  | .tsx => tsxEffect
  | .txs => txsEffect
  | .inx => inxEffect
  | .iny => inyEffect
  | .dex => dexEffect
  | .dey => deyEffect
  | .clc => clcEffect
  | .sec => secEffect
  | .cli => cliEffect
  | .sei => seiEffect
  | .cld => cldEffect
  | .sed => sedEffect
  | .clv => clvEffect
  | .nop => nopEffect

/-- `A <- rmw(I, A)` of the accumulator forms (R194). -/
def accEffect (o : ShiftOp) (s : State) : State :=
  (s.setA (shiftOperation o s.a s.p).1).setP (shiftOperation o s.a s.p).2

/-- `cond(I)` (R153 to R160). -/
def branchTaken (o : BranchOp) (p : Flags) : Bool :=
  match o with
  | .bcc => !p.c
  | .bcs => p.c
  | .beq => p.z
  | .bne => !p.z
  | .bmi => p.n
  | .bpl => !p.n
  | .bvc => !p.v
  | .bvs => p.v

/-- The byte PHA or PHP pushes (R213). -/
def pushValue (o : PushOp) (s : State) : Byte :=
  match o with
  | .pha => s.a
  | .php => s.p.toByte true

/-- What PLA or PLP does with the pulled byte (R214). -/
def pullEffect : PullOp → Byte → State → State
  | .pla => plaEffect
  | .plp => plpEffect

/-! ## Fetch and addresses -/

/-- The fetch cycle c0 (R191): under the strict policy an illegal opcode halts here. -/
def fetchLine : Line :=
  goOn pcRead fun op s =>
    let s := s.incPc.setOpcode op
    if isIllegal op && s.platform.illegalPolicy == .strict then haltInvalid op s else s

/-- `adl <- BusRead(PC); PC++`. -/
def lowLine : Line := goOn pcRead fun v s => s.incPc.setAdl v

/-- `adh <- BusRead(PC); PC++`. -/
def highLine : Line := goOn pcRead fun v s => s.incPc.setAdh v

/-- `adh <- BusRead(PC); PC++` and the low-byte sum with the index (R205 c2). -/
def highIndexedLine (i : Index) : Line := goOn pcRead fun v s => (s.incPc.setAdh v).indexLow i

/-- `BusRead({0x00, adl}) discarded; adl <- adl +_8 idx` (R199 c2). -/
def zeroPageIndexLine (i : Index) : Line :=
  goOn (fun s => .read s.zeroPageEa) (discarded fun s => s.setAdl (s.micro.adl + i.value s))

/-- `BusRead({adh, adl}) discarded; if page_cross then adh <- adh +_8 1` (R206 c3). -/
def fixPageLine : Line :=
  goOn (fun s => .read s.latchedAddr) (discarded fun s => if s.micro.pageCross then s.nextPage else s)

/-- `ptr <- zext_16(BusRead(PC)); PC++` (R208 c1). -/
def pointerLine : Line := goOn pcRead fun v s => s.incPc.setPtr (zext16 v)

/-- `adl <- BusRead(ptr)` (R208 c3). -/
def pointerLowLine : Line := goOn ptrRead fun v s => s.setAdl v

/-- The cycles before the data of (zp,X) (R208 c1 to c4). -/
def izxLines : List Line :=
  [pointerLine,
   goOn ptrRead (discarded fun s => s.setPtr (zext16 (lo s.micro.ptr + s.x))),
   pointerLowLine,
   goOn (fun s => .read s.pointerHigh) fun v s => s.setAdh v]

/-- The cycles before the data of (zp),Y (R210 c1 to c3). -/
def izyLines : List Line :=
  [pointerLine,
   pointerLowLine,
   goOn (fun s => .read s.pointerHigh) fun v s => (s.setAdh v).indexLow .y]

/-! ## The read class (R195, R196, R199, R202, R205, R208, R210) -/

/-- `operand <- BusRead(ea); exec(I, operand)  end`. -/
def dataLine (ea : State → Addr) (o : ReadOp) : Line :=
  finish (fun s => .read (ea s)) fun v s => readEffect o v (s.setOperand v)

/-- `operand <- BusRead({adh, adl})`: the last line unless `page_cross` (R205 c3, R210 c4). -/
def indexedDataLine (o : ReadOp) : Line where
  before := id
  access := fun s => .read s.latchedAddr
  after := fun v s =>
    let s := s.setOperand v
    if s.micro.pageCross then (s.nextPage, false) else (readEffect o v s, true)

/-- The lines of a read-class opcode after c0. -/
def readLines (o : ReadOp) : ReadKind → List Line
  | .imm => [finish pcRead fun v s => readEffect o v (s.incPc.setOperand v)]
  | .zp => [lowLine, dataLine State.zeroPageEa o]
  | .zpx => [lowLine, zeroPageIndexLine .x, dataLine State.zeroPageEa o]
  | .zpy => [lowLine, zeroPageIndexLine .y, dataLine State.zeroPageEa o]
  | .abs => [lowLine, highLine, dataLine State.latchedAddr o]
  | .abx => [lowLine, highIndexedLine .x, indexedDataLine o, dataLine State.latchedAddr o]
  | .aby => [lowLine, highIndexedLine .y, indexedDataLine o, dataLine State.latchedAddr o]
  | .izx => izxLines ++ [dataLine State.latchedAddr o]
  | .izy => izyLines ++ [indexedDataLine o, dataLine State.latchedAddr o]

/-! ## The write class (R197, R200, R203, R206, R209, R211) -/

/-- `BusWrite(ea, val(I))  end`. -/
def storeLine (ea : State → Addr) (o : WriteOp) : Line :=
  finish (fun s => .write (ea s) (writeValue o s)) (discarded id)

/-- The lines of a write-class opcode after c0. -/
def writeLines (o : WriteOp) : WriteKind → List Line
  | .zp => [lowLine, storeLine State.zeroPageEa o]
  | .zpx => [lowLine, zeroPageIndexLine .x, storeLine State.zeroPageEa o]
  | .zpy => [lowLine, zeroPageIndexLine .y, storeLine State.zeroPageEa o]
  | .abs => [lowLine, highLine, storeLine State.latchedAddr o]
  | .abx => [lowLine, highIndexedLine .x, fixPageLine, storeLine State.latchedAddr o]
  | .aby => [lowLine, highIndexedLine .y, fixPageLine, storeLine State.latchedAddr o]
  | .izx => izxLines ++ [storeLine State.latchedAddr o]
  | .izy => izyLines ++ [fixPageLine, storeLine State.latchedAddr o]

/-! ## The RMW class (R198, R201, R204, R207) -/

/-- Read, write of the original value, write of the result: on the last line the result is computed first, then written. -/
def modifyLines (ea : State → Addr) (o : RmwOp) : List Line :=
  [goOn (fun s => .read (ea s)) fun v s => s.setOperand v,
   goOn (fun s => .write (ea s) s.micro.operand) (discarded id),
   { before := fun s =>
       let r := rmwOperation o s.micro.operand s.p
       (s.setOperand r.1).setP r.2
     access := fun s => .write (ea s) s.micro.operand
     after := fun _ s => (s, true) }]

/-- The lines of an RMW-class opcode after c0. -/
def rmwLines (o : RmwOp) : RmwKind → List Line
  | .zp => lowLine :: modifyLines State.zeroPageEa o
  | .zpx => lowLine :: zeroPageIndexLine .x :: modifyLines State.zeroPageEa o
  | .abs => lowLine :: highLine :: modifyLines State.latchedAddr o
  | .abx => lowLine :: highIndexedLine .x :: fixPageLine :: modifyLines State.latchedAddr o

/-! ## The other sequences -/

/-- Two-cycle implied and accumulator instructions, and illegal opcodes under Nop2 (R194). -/
def impliedLines (f : State → State) : List Line := [finish pcRead (discarded f)]

/-- Branches (R212): the last line is c1, c2 or c3. -/
def branchLines (o : BranchOp) : List Line :=
  [{ before := id
     access := pcRead
     after := fun v s => (s.incPc.setOperand v, !branchTaken o s.p) },
   { before := id
     access := pcRead
     after := fun _ s =>
       let t := s.pc + sext16 s.micro.operand
       let cross := hi t != hi s.pc
       (((s.setPageCross cross).setAdh (hi t)).setPc (cat (hi s.pc) (lo t)), !cross) },
   finish pcRead (discarded fun s => s.setPc (cat s.micro.adh (lo s.pc)))]

/-- PHA, PHP (R213). -/
def pushLines (o : PushOp) : List Line :=
  [goOn pcRead (discarded id),
   finish (fun s => .write (stackAddr s.sp) (pushValue o s)) (discarded State.decSp)]

/-- PLA, PLP (R214). -/
def pullLines (o : PullOp) : List Line :=
  [goOn pcRead (discarded id),
   goOn stackRead (discarded State.incSp),
   finish stackRead fun v s => pullEffect o v (s.setOperand v)]

/-- JMP absolute (R215). -/
def jmpAbsLines : List Line :=
  [lowLine,
   finish pcRead fun v s =>
     let s := s.setAdh v
     s.setPc s.latchedAddr]

/-- JMP indirect (R216). -/
def jmpIndLines : List Line :=
  [pointerLine,
   goOn pcRead fun v s => (s.setPtr (cat v (lo s.micro.ptr))).incPc,
   pointerLowLine,
   finish (fun s => .read (cat (hi s.micro.ptr) (lo s.micro.ptr + 1))) fun v s =>
     let s := s.setAdh v
     s.setPc s.latchedAddr]

/-- One push line: `BusWrite(0x0100 | SP, v); SP--`. -/
def pushLine (v : State → Byte) : Line :=
  goOn (fun s => .write (stackAddr s.sp) (v s)) (discarded State.decSp)

/-- JSR (R217). -/
def jsrLines : List Line :=
  [lowLine,
   goOn stackRead (discarded id),
   pushLine fun s => hi s.pc,
   pushLine fun s => lo s.pc,
   finish pcRead fun v s =>
     let s := s.setAdh v
     s.setPc s.latchedAddr]

/-- RTS (R218). -/
def rtsLines : List Line :=
  [goOn pcRead (discarded id),
   goOn stackRead (discarded State.incSp),
   goOn stackRead fun v s => (s.setAdl v).incSp,
   goOn stackRead fun v s =>
     let s := s.setAdh v
     s.setPc s.latchedAddr,
   finish pcRead (discarded State.incPc)]

/-- RTI (R219). -/
def rtiLines : List Line :=
  [goOn pcRead (discarded id),
   goOn stackRead (discarded State.incSp),
   goOn stackRead fun v s => (s.setOperand v).incSp,
   goOn stackRead fun v s => (s.setAdl v).incSp,
   finish stackRead fun v s =>
     let s := s.setAdh v
     (s.setPc s.latchedAddr).setP (Flags.ofByte s.micro.operand)]

/-- Lines c2 to c6 of BRK and of an interrupt entry (R220, R221): the pushes with B = `brk`, the vector chosen on c5. -/
def exceptionLines (brk : Bool) : List Line :=
  [pushLine fun s => hi s.pc,
   pushLine fun s => lo s.pc,
   pushLine fun s => s.p.toByte brk,
   { before := selectVector
     access := ptrRead
     after := fun v s => ((s.setAdl v).setP { s.p with i := true }, false) },
   finish (fun s => .read (s.micro.ptr + 1)) fun v s =>
     let s := s.setAdh v
     s.setPc s.latchedAddr]

/-- BRK after c0 (R220). -/
def brkLines : List Line := goOn pcRead (discarded State.incPc) :: exceptionLines true

/-- Interrupt entry, c0 to c6 (R221). -/
def intLines : List Line := goOn pcRead (discarded id) :: goOn pcRead (discarded id) :: exceptionLines false

/-- One stack cycle of the reset sequence: `BusRead(0x0100 | SP) discarded; SP--`. -/
def resetStackLine : Line := goOn stackRead (discarded State.decSp)

/-- The reset sequence, c0 to c6 (R222). -/
def resetLines : List Line :=
  [{ before := fun s => s.setSp 0x00#8
     access := pcRead
     after := fun _ s => (s, false) },
   goOn pcRead (discarded id),
   resetStackLine,
   resetStackLine,
   resetStackLine,
   goOn (fun _ => .read resetVector) fun v s => (s.setAdl v).setP s.p.afterReset,
   finish (fun _ => .read (resetVector + 1)) fun v s =>
     let s := s.setAdh v
     s.setPc s.latchedAddr]

/-! ## Which sequence an opcode uses (R223) -/

/-- The lines after c0 of a documented opcode. -/
def opLines : Op → List Line
  | .read o k => readLines o k
  | .write o k => writeLines o k
  | .rmw o k => rmwLines o k
  | .acc o => impliedLines (accEffect o)
  | .implied o => impliedLines (impliedEffect o)
  | .branch o => branchLines o
  | .push o => pushLines o
  | .pull o => pullLines o
  | .jmpAbs => jmpAbsLines
  | .jmpInd => jmpIndLines
  | .jsr => jsrLines
  | .rts => rtsLines
  | .rti => rtiLines
  | .brk => brkLines

/-- The lines after c0 of an opcode byte; an illegal one is a NOP (R194). -/
def opcodeLines (op : Byte) : List Line :=
  match lookup op with
  | some o => opLines o
  | none => impliedLines nopEffect

/-- All the lines of the sequence in progress, c0 first. -/
def State.sequenceLines (s : State) : List Line :=
  match s.micro.seq with
  | .reset => resetLines
  | .int => intLines
  | .instr => fetchLine :: opcodeLines s.micro.opcode

/-! ## The tick (R190) -/

/-- Do one line: the access, the updates, then `cycle_index` to 0 after the last line and one on after any other. A halt
raised inside the line ends the tick (R190, R262). -/
def doLine (l : Line) (s : State) : Res State :=
  let s := l.before s
  andThen ((l.access s).perform s) fun (v, s) =>
    let r := l.after v s
    if r.1.halted.isSome then .next r.1
    else .next (r.1.setCycleIndex (if r.2 then 0 else r.1.micro.cycleIndex + 1))

/-- `tick()`, one clock cycle of the CPU (R190). `cycles` is counted by the bus access. -/
def tick (s : State) : Res State :=
  if s.halted.isSome then .next s
  else
    let s := if s.micro.cycleIndex = 0 then s.beginSequence else s
    match s.sequenceLines[s.micro.cycleIndex]? with
    | some l => doLine l s
    | none => .refused .noSuchCycle

/-- Ticks to the end of the sequence in progress: at least one, at most `fuel`. -/
def finishSequence : Nat → State → Res State
  | 0, _ => .refused .noSuchCycle
  | fuel + 1, s =>
    andThen (tick s) fun s => if s.micro.cycleIndex = 0 then .next s else finishSequence fuel s

/-- More ticks than the longest sequence has (R300: at most 7). -/
def sequenceBound : Nat := 8

/-- `n` ticks. -/
def ticks : Nat → State → Res State
  | 0, s => .next s
  | n + 1, s => andThen (tick s) (ticks n)

end Sys2Proof.Machine
end

