-- ==== Sys2Proof/Machine/Step.lean ====
section
/-! DEFINITION. One step: a whole sequence of 47_cycle_sequences R190, from one instruction boundary to the next. It calls
the operations of Machine/Ops.lean, exec and, in the middle of a sequence, the ticks of Machine/Cycle.lean (log 9). -/

namespace Sys2Proof.Machine

/-- One step of the machine. A halted machine stays as it is (R19). At a boundary a reset or an interrupt that is due takes
its entry (R263), else the instruction at `PC` is fetched, decoded and run; in the middle of a sequence the step ticks to
its end (R190). -/
def step (s : State) : Host.Outcome State Fault Refusal :=
  if s.halted.isSome then .next s
  else if s.micro.cycleIndex ≠ 0 then finishSequence sequenceBound s
  else
    match s.nextSeq with
    | .reset => resetSequence s.beginSequence
    | .int => interruptEntry s.beginSequence
    | .instr =>
      andThen (fetchBytes s.beginSequence) fun (bytes, s) =>
      andThen (decodeFetched bytes) fun i => exec i s

/-- Nothing stands between the machine and its next fetch: not halted, at a boundary, no reset and no interrupt due. -/
def State.readyToFetch (s : State) : State :=
  ((s.setHalted none).setCycleIndex 0).setLines
    { s.lines with irqLevel := false, nmiPending := false, resetPending := false }

/-- The state with the instruction of an opcode-table word stored at `PC` and nothing in the way of its fetch (log 3). -/
def State.withFetchWord (s : State) (nbits w : Nat) : State :=
  let m := (tableBytes nbits w).zipIdx.foldl (fun m p => m.placeByte (s.pc + BitVec.ofNat 16 p.2) p.1) s.mem
  s.readyToFetch.setMem m

end Sys2Proof.Machine
end

