-- ==== Sys2Proof/Machine/HostCalls.lean ====
section
/-! DEFINITION. What the host does to the machine between ticks: 00_scope R8, 20_memory R48, R49, R60, 48_fabric_wire_clock
R231 to R234 and R241 to R248. A call that the rules reject is refused by name and leaves the caller's state (U13). -/

namespace Sys2Proof.Machine

/-! ## Construction -/

/-- `INIT` (R3, R26, D10): what the spec leaves unspecified at construction, an argument. -/
structure Init where
  a         : Byte
  x         : Byte
  y         : Byte
  sp        : Byte
  pc        : Addr
  p         : Flags
  opcode    : Byte
  adl       : Byte
  adh       : Byte
  ptr       : Addr
  operand   : Byte
  pageCross : Bool
deriving DecidableEq, Repr, Inhabited

/-- The fabric at construction: the clock's `new(frequency_hz)` (R26, R240), and its output wire, unconnected (log 15). That a
frequency of 0 is taken here, which `setFrequency` refuses, is DESIGN CHOICE (log 28). -/
def Fabric.constructed (hz : Nat) : Fabric where
  wires := [{ id := 0, value := .bit false, source := some clockEndpoint, sinks := [] }]
  clock :=
    { frequency := hz
      phase := 0
      running := false
      out := false }
  tickCount := 0
  delivering := []

/-- `new(bus)` (R26, R291): the state at construction, from which nothing has run. The bus is a Memory with no bank, which the
platform's `install_bank` calls fill. -/
def State.constructed (init : Init) (hz : Nat) (platform : Platform) (world : World) : State where
  a := init.a
  x := init.x
  y := init.y
  sp := init.sp
  pc := init.pc
  p := init.p
  micro :=
    { seq := .instr
      cycleIndex := 0
      opcode := init.opcode
      adl := init.adl
      adh := init.adh
      ptr := init.ptr
      operand := init.operand
      pageCross := init.pageCross }
  lines :=
    { irqLevel := false
      nmiPending := false
      nmiPrev := false
      resetPending := false
      clkPrev := false }
  halted := none
  cycles := 0
  mem := { banks := [], active := [] }
  fabric := Fabric.constructed hz
  platform := platform
  world := world

/-! ## The CPU's calls -/

/-- `irq_line(level)` (R248). -/
def irqLine (v : Bool) (s : State) : State := s.setLines (s.lines.irqLine v)

/-- `nmi_line(level)` (R248, D7). -/
def nmiLine (v : Bool) (s : State) : State := s.setLines (s.lines.nmiLine v)

/-- `reset()` queues a reset sequence (R248, R266). -/
def resetCall (s : State) : State := s.setLines (s.lines.resetLine true)

/-! ## The Memory's calls -/

/-- `install_bank(b)` (R48). -/
def installBank (b : Bank) (s : State) : Res State :=
  match s.mem.install b with
  | some m => .next (s.setMem m)
  | none => .refused (.config .badBank)

/-- `switch([lo, hi], id)` (R49). -/
def switchBank (lo hi : Addr) (id : BankId) (s : State) : Res State :=
  match s.mem.switch lo hi id with
  | some m => .next (s.setMem m)
  | none => .refused (.config .badSwitch)

/-- Load an image of bytes at an origin (R60): it must end at or below 0xFFFF, and no handler is called. -/
def loadImage (origin : Addr) (bytes : List Byte) (s : State) : Res State :=
  if 65536 < origin.toNat + bytes.length then .refused (.config .imageTooLong)
  else
    match s.mem.loadBytes origin bytes with
    | some m => .next (s.setMem m)
    | none => .refused (.config .imageNoStorage)

/-! ## Wires -/

/-- The wire of an identifier. -/
def Fabric.wire (f : Fabric) (id : WireId) : Option Wire := f.wires.find? (fun w => w.id == id)

/-- A new wire, value 0, no source and no sink (R22, R230, D19). -/
def createWire (id : WireId) (wide : Bool) (s : State) : Res State :=
  match s.fabric.wire id with
  | some _ => .refused (.config .wireExists)
  | none =>
    let w : Wire := { id := id, value := if wide then .byte 0 else .bit false, source := none, sinks := [] }
    .next (s.setFabric { s.fabric with wires := s.fabric.wires ++ [w] })

/-- Bind a source endpoint to a wire that has none (R231, R234). An endpoint that already is a wire's source is rejected: it
belongs to one wire (R230). -/
def bindSource (id : WireId) (src : EndpointId) (s : State) : Res State :=
  match s.fabric.wire id with
  | none => .refused (.config .noSuchWire)
  | some w =>
    if w.source.isSome || (s.fabric.wireOfSource src).isSome then .refused (.config .secondSource)
    else .next (s.setFabric (s.fabric.setWire { w with source := some src }))

/-- The delivery a connect makes, to its one sink only (R231). -/
def deliverOnConnect (w : Wire) (k : Sink) (s : State) : Res State :=
  whileDelivering w.id (deliverTo tick (writeWire tick) w.value k) s

/-- `connect(src, snk)` (R231): the sink is registered last and immediately observes the wire's value. A sink whose endpoint
another sink or a source already has is connected all the same: DESIGN CHOICE (log 26). -/
def connect (src : EndpointId) (k : Sink) (s : State) : Res State :=
  match s.fabric.wireOfSource src with
  | none => .refused (.config .notASource)
  | some w =>
    if k.wide != isWide w.value then .refused (.config .widthMismatch)
    else deliverOnConnect w k (s.setFabric (s.fabric.setWire { w with sinks := w.sinks ++ [k] }))

/-- The wire without an endpoint, the order of the other sinks kept (R233). -/
def Wire.without (w : Wire) (e : EndpointId) : Wire :=
  { w with
    source := if w.source = some e then none else w.source
    sinks := w.sinks.filter (fun k => k.endpoint != e) }

/-- `disconnect(endpoint)` (R233): nothing is delivered. An endpoint that no wire has changes nothing: DESIGN CHOICE (log 25).
The clock's own source endpoint can be disconnected like any other: DESIGN CHOICE (log 29). -/
def disconnect (e : EndpointId) (s : State) : State :=
  s.setFabric { s.fabric with wires := s.fabric.wires.map (·.without e) }

/-- A host's write of a wire (R232): through an endpoint that is no wire's source it is rejected (R234). A write through the
clock's own endpoint is not: DESIGN CHOICE (log 22). -/
def hostWrite (src : EndpointId) (v : Signal) (s : State) : Res State :=
  match s.fabric.wireOfSource src with
  | none => .refused (.config .notASource)
  | some _ => writeWire tick src v s

/-! ## Clock and harness -/

/-- `PERIOD_STEPS(hz)`: the platform's entry, 1 where it has none (R3, R241, D11). -/
def Platform.periodSteps (p : Platform) (hz : Nat) : Nat :=
  match p.periods.find? (fun e => e.1 == hz) with
  | some e => e.2
  | none => Config.defaultPeriod

/-- The clock after a step, and whether it toggled (R241). -/
def Clock.advance (c : Clock) (period : Nat) : Clock × Bool :=
  if period ≤ c.phase + 1 then ({ c with phase := 0, out := !c.out }, true)
  else ({ c with phase := c.phase + 1 }, false)

/-- The clock's `step()` (R241): a toggle writes the output wire, and a rising edge ticks a CPU connected to it (R246). What it
does once its source endpoint has been disconnected, or bound to another wire, is DESIGN CHOICE (log 29). -/
def clockStep (s : State) : Res State :=
  let period := s.platform.periodSteps s.fabric.clock.frequency
  if period = 0 then .refused .zeroPeriod
  else
    let r := s.fabric.clock.advance period
    let s := s.setFabric { s.fabric with clock := r.1 }
    if r.2 then writeWire tick clockEndpoint (.bit r.1.out) s else .next s

/-- `set_frequency(hz)` (R242): `phase` and `out` stay. -/
def setFrequency (hz : Nat) (s : State) : Res State :=
  if hz = 0 then .refused (.config .badFrequency)
  else .next (s.setFabric { s.fabric with clock := { s.fabric.clock with frequency := hz } })

/-- The clock's `running` flag, which `run()` sets and `stop()` clears (R243). -/
def setRunning (b : Bool) (s : State) : State :=
  s.setFabric { s.fabric with clock := { s.fabric.clock with running := b } }

/-- The Memory's own tick does nothing (R64). -/
def memoryTick (s : State) : State := s

/-- `Computer.step()` (R247): the counter, the clock with all its deliveries, the Memory's tick. -/
def computerStep (s : State) : Res State :=
  andThen (clockStep (s.setFabric { s.fabric with tickCount := s.fabric.tickCount + 1 })) fun s => .next (memoryTick s)

/-- The loop of `run()` (R247): steps until `stop()` has been called or the CPU has halted, at most `fuel` of them. The flag of
`stop()` is the clock's `running` (D12), and both are looked at before each step, the first included: DESIGN CHOICE (log 24). -/
def runLoop : Nat → State → Res State
  | 0, s => .next s
  | fuel + 1, s =>
    if !s.fabric.clock.running || s.halted.isSome then .next s
    else andThen (computerStep s) (runLoop fuel)

/-- `run()`, observed for at most `fuel` steps. It sets `running` first, so that an earlier `stop()` is forgotten (R243; log 24). -/
def run (fuel : Nat) (s : State) : Res State := runLoop fuel (setRunning true s)

/-! ## All of it -/

/-- What happens to the machine: a CPU tick called directly (R246), a harness step, or a call of the host (R8). `outside` is
any change of the world behind the callbacks between ticks (R28). -/
inductive Event where
  | tick
  | computerStep
  | irqLine (v : Bool)
  | nmiLine (v : Bool)
  | reset
  | installBank (b : Bank)
  | switch (lo hi : Addr) (id : BankId)
  | loadImage (origin : Addr) (bytes : List Byte)
  | createWire (id : WireId) (wide : Bool)
  | bindSource (id : WireId) (src : EndpointId)
  | connect (src : EndpointId) (k : Sink)
  | disconnect (e : EndpointId)
  | write (src : EndpointId) (v : Signal)
  | setFrequency (hz : Nat)
  | setRunning (b : Bool)
  | outside (w : World)
deriving DecidableEq, Repr

/-- What an event does. -/
def happen (e : Event) (s : State) : Res State :=
  match e with
  | .tick => tick s
  | .computerStep => computerStep s
  | .irqLine v => .next (irqLine v s)
  | .nmiLine v => .next (nmiLine v s)
  | .reset => .next (resetCall s)
  | .installBank b => installBank b s
  | .switch lo hi id => switchBank lo hi id s
  | .loadImage origin bytes => loadImage origin bytes s
  | .createWire id wide => createWire id wide s
  | .bindSource id src => bindSource id src s
  | .connect src k => connect src k s
  | .disconnect e => .next (disconnect e s)
  | .write src v => hostWrite src v s
  | .setFrequency hz => setFrequency hz s
  | .setRunning b => .next (setRunning b s)
  | .outside w => .next (s.setWorld w)

/-- A run: events one after the other. -/
def happenAll (es : List Event) (s : State) : Res State := runAll happen es s

end Sys2Proof.Machine
end

