-- ==== Sys2Proof/Machine/Plain.lean ====
section
/-! DEFINITION. The vocabulary of the statements: what the operand rules of 30_encoding R74 to R84 say an address is, and
which addresses 47_cycle_sequences R195 to R211 has an instruction access, written as closed formulas on what memory shows.
No meaning and no step calls any of it. -/

namespace Sys2Proof.Machine

/-! ## Addresses -/

/-- Absolute indexed: `(w + i) mod 65536` (R79, R80, R83). -/
def indexed (w : Addr) (i : Byte) : Addr := w + zext16 i

/-- The address before the carry into the page: the high byte of `w`, the low byte of the sum (R205 to R207, R210, R211). -/
def uncorrected (w : Addr) (i : Byte) : Addr := cat (hi w) (lo w + i)

/-- The pointer at a page-zero location, its second byte fetched within page zero (R82, R83). -/
def pointerAt (s : State) (z : Byte) : Addr := cat (shownByte s (zeroPage (z + 1))) (shownByte s (zeroPage z))

/-- The effective address of a read-class operand; an immediate has none (R74 to R83). -/
def readEa (m : ReadMode) (s : State) : Option Addr :=
  match m with
  | .imm _ => none
  | .zp z => some (zeroPage z)
  | .zpx z => some (zeroPage (z + s.x))
  | .zpy z => some (zeroPage (z + s.y))
  | .abs w => some w
  | .abx w => some (indexed w s.x)
  | .aby w => some (indexed w s.y)
  | .izx z => some (pointerAt s (z + s.x))
  | .izy z => some (indexed (pointerAt s z) s.y)

/-- The operand byte `M`: the immediate, or the byte memory shows at the effective address. -/
def operandByte (m : ReadMode) (s : State) : Byte :=
  match m, readEa m s with
  | .imm v, _ => v
  | _, some a => shownByte s a
  | _, none => 0#8

/-- The address a store writes to (R75 to R83). -/
def storeEa (m : WriteMode) (s : State) : Addr :=
  match m with
  | .zp z => zeroPage z
  | .zpx z => zeroPage (z + s.x)
  | .zpy z => zeroPage (z + s.y)
  | .abs w => w
  | .abx w => indexed w s.x
  | .aby w => indexed w s.y
  | .izx z => pointerAt s (z + s.x)
  | .izy z => indexed (pointerAt s z) s.y

/-- The address a read-modify-write instruction works on (R75, R76, R78, R79). -/
def rmwEa (m : RmwMode) (s : State) : Addr :=
  match m with
  | .zp z => zeroPage z
  | .zpx z => zeroPage (z + s.x)
  | .abs w => w
  | .abx w => indexed w s.x

/-- Where JMP goes: the pointer's second byte is fetched within the pointer's page (R78, R81). -/
def jumpEa (m : JumpMode) (s : State) : Addr :=
  match m with
  | .abs w => w
  | .ind p => cat (shownByte s (cat (hi p) (lo p + 1))) (shownByte s p)

/-- The discarded reads of a taken branch: at the next instruction, and to another page at the target's low byte in the
page not yet corrected (R161, R212). -/
def branchAccesses (taken : Bool) (rel : Byte) (s : State) : List Addr :=
  if taken then
    if hi (s.pc + sext16 rel) = hi s.pc then [s.pc] else [s.pc, cat (hi s.pc) (lo (s.pc + sext16 rel))]
  else []

/-! ## The addresses accessed after the operand bytes, in their order -/

/-- The data reads of an indexed read: one more where the index crosses a page (R205, R210). -/
def indexedReads (w : Addr) (i : Byte) : List Addr :=
  if 256 ≤ (lo w).toNat + i.toNat then [uncorrected w i, indexed w i] else [indexed w i]

/-- The reads of a read-class operand (R195, R196, R199, R202, R205, R208, R210). -/
def readAccesses (m : ReadMode) (s : State) : List Addr :=
  match m with
  | .imm _ => []
  | .zp z => [zeroPage z]
  | .zpx z => [zeroPage z, zeroPage (z + s.x)]
  | .zpy z => [zeroPage z, zeroPage (z + s.y)]
  | .abs w => [w]
  | .abx w => indexedReads w s.x
  | .aby w => indexedReads w s.y
  | .izx z => [zeroPage z, zeroPage (z + s.x), zeroPage (z + s.x + 1), pointerAt s (z + s.x)]
  | .izy z => [zeroPage z, zeroPage (z + 1)] ++ indexedReads (pointerAt s z) s.y

/-- The accesses of a store, its write the last (R197, R200, R203, R206, R209, R211). -/
def storeAccesses (m : WriteMode) (s : State) : List Addr :=
  match m with
  | .zp z => [zeroPage z]
  | .zpx z => [zeroPage z, zeroPage (z + s.x)]
  | .zpy z => [zeroPage z, zeroPage (z + s.y)]
  | .abs w => [w]
  | .abx w => [uncorrected w s.x, indexed w s.x]
  | .aby w => [uncorrected w s.y, indexed w s.y]
  | .izx z => [zeroPage z, zeroPage (z + s.x), zeroPage (z + s.x + 1), pointerAt s (z + s.x)]
  | .izy z => [zeroPage z, zeroPage (z + 1), uncorrected (pointerAt s z) s.y, indexed (pointerAt s z) s.y]

/-- The discarded read of a read-modify-write instruction before its operand is read (R201, R207). -/
def rmwBefore (m : RmwMode) (s : State) : List Addr :=
  match m with
  | .zp _ | .abs _ => []
  | .zpx z => [zeroPage z]
  | .abx w => [uncorrected w s.x]

/-- The accesses of a read-modify-write instruction: its read and its two writes the last three (R198, R201, R204, R207). -/
def rmwAccesses (m : RmwMode) (s : State) : List Addr := rmwBefore m s ++ [rmwEa m s, rmwEa m s, rmwEa m s]

/-! ## The same accesses made on the bus, whatever answers them

Here an address that memory gives is the one the reads before it answered, so that a handler bank may be behind any of them;
the latches of R17 play no part. -/

/-- Reads one after the other, their bytes discarded (R63). -/
def discardReads (as : List Addr) (s : State) : Res State := runAll discardRead as s

/-- The pointer at a page-zero location: its low byte, then its high byte, fetched within page zero (R208, R210). -/
def pointerThrough (z : Byte) (s : State) : Res (Addr × State) :=
  andThen (busRead (zeroPage z) s) fun (l, s) =>
  andThen (busRead (zeroPage (z + 1)) s) fun (h, s) => .next (cat h l, s)

/-- The operand byte of an indexed read: where the index crosses a page, the uncorrected address is read first (R205, R210). -/
def indexedThrough (w : Addr) (i : Byte) (s : State) : Res (Byte × State) :=
  andThen (discardReads (if 256 ≤ (lo w).toNat + i.toNat then [uncorrected w i] else []) s) fun s => busRead (indexed w i) s

/-- The operand byte of the read class (R195, R196, R199, R202, R205, R208, R210). -/
def readThrough (m : ReadMode) (s : State) : Res (Byte × State) :=
  match m with
  | .imm v => .next (v, s)
  | .zp z => busRead (zeroPage z) s
  | .zpx z => andThen (discardReads [zeroPage z] s) fun t => busRead (zeroPage (z + s.x)) t
  | .zpy z => andThen (discardReads [zeroPage z] s) fun t => busRead (zeroPage (z + s.y)) t
  | .abs w => busRead w s
  | .abx w => indexedThrough w s.x s
  | .aby w => indexedThrough w s.y s
  | .izx z =>
    andThen (discardReads [zeroPage z] s) fun t =>
    andThen (pointerThrough (z + s.x) t) fun (w, t) => busRead w t
  | .izy z => andThen (pointerThrough z s) fun (w, t) => indexedThrough w s.y t

/-- The address a store writes to, after the reads before its write (R197, R200, R203, R206, R209, R211). -/
def storeThrough (m : WriteMode) (s : State) : Res (Addr × State) :=
  match m with
  | .zp z => .next (zeroPage z, s)
  | .zpx z => andThen (discardReads [zeroPage z] s) fun t => .next (zeroPage (z + s.x), t)
  | .zpy z => andThen (discardReads [zeroPage z] s) fun t => .next (zeroPage (z + s.y), t)
  | .abs w => .next (w, s)
  | .abx w => andThen (discardReads [uncorrected w s.x] s) fun t => .next (indexed w s.x, t)
  | .aby w => andThen (discardReads [uncorrected w s.y] s) fun t => .next (indexed w s.y, t)
  | .izx z => andThen (discardReads [zeroPage z] s) fun t => pointerThrough (z + s.x) t
  | .izy z =>
    andThen (pointerThrough z s) fun (w, t) =>
    andThen (discardReads [uncorrected w s.y] t) fun t => .next (indexed w s.y, t)

/-- Taking an exception that pushes the address `r` (R220, R221, R269, R270): three writes to the stack, and the two reads of
the vector, which an NMI that is pending by then takes over. -/
def exceptionThrough (r : Addr) (brk : Bool) (s : State) : Res State :=
  andThen (busWrite (stackAddr s.sp) (hi r) s) fun t =>
  andThen (busWrite (stackAddr (s.sp - 1)) (lo r) t) fun t =>
  andThen (busWrite (stackAddr (s.sp - 2)) (s.p.toByte brk) t) fun t =>
  let v : Addr := if t.lines.nmiPending then 0xFFFA else 0xFFFE
  andThen (busRead v (t.setLines { t.lines with nmiPending := false })) fun (l, t) =>
  andThen (busRead (v + 1) t) fun (h, t) =>
  .next { t with sp := s.sp - 3, p := { s.p with i := true }, pc := cat h l }

/-- The deliveries of the value `v` of wire `w` to these sinks, in this order (R231, R232): each is complete, with every write
that a component makes inside it through `write`, before the next (R235), and `w` counts as being delivered while they last. -/
def deliverInOrder (onRise : State → Res State) (write : EndpointId → Signal → State → Res State) (w : Wire) (v : Signal)
    (sinks : List Sink) (s : State) : Res State :=
  andThen
    (sinks.foldl (fun r k => andThen r (deliverTo onRise write v k))
      (.next { s with fabric := { s.fabric with delivering := w.id :: s.fabric.delivering } }))
    fun t => .next { t with fabric := { t.fabric with delivering := t.fabric.delivering.tail } }

/-! ## What a state shows -/

/-- No callback is behind the address: RAM, ROM or no bank at all. -/
def State.noHandler (s : State) (a : Addr) : Prop := (s.mem.peek a).isSome = true

/-- A RAM bank is active at the address. -/
def Memory.isRam (m : Memory) (a : Addr) : Prop := (m.bankAt a).map Bank.kind = some .ram

/-- Memory shows the same at every address but those listed. -/
def SameBut (as : List Addr) (m m' : Memory) : Prop := ∀ b, b ∉ as → m'.peek b = m.peek b

/-- The state without the latches that are dead at a boundary (R17). -/
def State.visible (s : State) : State := { s with micro := { State.reset.micro with cycleIndex := s.micro.cycleIndex } }

/-- The instruction runs to its end, and the state it leaves is `u` but for the dead latches. -/
def Completes (i : Instr) (s u : State) : Prop := ∃ t, exec i s = .next t ∧ t.visible = u.visible

/-- The step runs to its end, and the state it leaves is `u` but for the dead latches. -/
def StepsTo (s u : State) : Prop := ∃ t, step s = .next t ∧ t.visible = u.visible

/-- Two answers are one: the same fault, the same refusal, or next states that differ in the dead latches at most. -/
def SameAnswer (r r' : Res State) : Prop := andThen r (fun t => .next t.visible) = andThen r' fun t => .next t.visible

/-- The instruction answers what the accesses and changes written out as `r` answer. -/
def RunsAs (i : Instr) (s : State) (r : Res State) : Prop := SameAnswer (exec i s) r

/-- N and Z as the byte says, the other flags kept: `setNZ` of R5. -/
def Flags.nz (p : Flags) (v : Byte) : Flags := { p with n := v.getLsbD 7, z := v == 0#8 }

/-- The machine is at a boundary where the next cycle fetches an opcode: no reset, no NMI, no unmasked IRQ (R190, R263). -/
def State.fetches (s : State) : Prop :=
  s.halted = none ∧ s.micro.cycleIndex = 0 ∧ s.lines.resetPending = false ∧ s.lines.nmiPending = false ∧
    (s.lines.irqLevel = false ∨ s.p.i = true)

/-- Memory shows the bytes from `PC` on. -/
def State.holdsAtPc (s : State) (bytes : List Byte) : Prop :=
  ∀ (k : Nat) (h : k < bytes.length), s.mem.peek (s.pc + BitVec.ofNat 16 k) = some bytes[k]

/-- The bytes that are fetched before anything else an instruction does: all, but for JSR, whose third comes last (R217). -/
def fetchedBytes (i : Instr) : Nat :=
  match i with
  | .jsr _ => 2
  | i => (encode i).length

/-- The state after the fetch of an opcode and its operand bytes, `n` in all (R191). -/
def State.fetched (s : State) (opcode : Byte) (n : Nat) : State :=
  { s with
    pc := s.pc + BitVec.ofNat 16 n
    cycles := s.cycles + n
    micro := { s.micro with seq := .instr, opcode := opcode } }

/-- Memory after the three pushes of an exception: return address, high byte first, then the status byte (R269). -/
def pushFrame (m : Memory) (sp : Byte) (r : Addr) (status : Byte) : Memory :=
  ((m.poke (stackAddr sp) (hi r)).poke (stackAddr (sp - 1)) (lo r)).poke (stackAddr (sp - 2)) status

/-- The byte a Memory shows at an address, the open bus value at a handler bank. -/
def Memory.shows (m : Memory) (a : Addr) : Byte := (m.peek a).getD Config.openBusValue

/-- Instructions of one byte and two cycles (R194), one a row: an opcode byte, its instruction and what it changes. In every
row the instruction completes with its change alone, and at `PC` the step makes that change, moves `PC` by one and takes two
cycles: the fetch, and a discarded read of the byte after the opcode. -/
def TwoCycleRows (rows : List (Byte × Instr × (State → State))) : Prop :=
  ∀ row ∈ rows, ∀ s : State,
    (s.noHandler s.pc → Completes row.2.1 s { row.2.2 s with cycles := s.cycles + 1 }) ∧
    (s.fetches → s.mem.peek s.pc = some row.1 → s.noHandler (s.pc + 1) →
      StepsTo s { row.2.2 s with pc := s.pc + 1, cycles := s.cycles + 2 })

/-- The transfers of R110 to R115. -/
def transferRows : List (Byte × Instr × (State → State)) :=
  [(0xAA, .tax, fun s => { s with x := s.a, p := s.p.nz s.a }),
   (0xA8, .tay, fun s => { s with y := s.a, p := s.p.nz s.a }),
   (0x8A, .txa, fun s => { s with a := s.x, p := s.p.nz s.x }),
   (0x98, .tya, fun s => { s with a := s.y, p := s.p.nz s.y }),
   (0xBA, .tsx, fun s => { s with x := s.sp, p := s.p.nz s.sp }),
   (0x9A, .txs, fun s => { s with sp := s.x })]

/-- The counts of R146 to R149, modulo 256. -/
def countRows : List (Byte × Instr × (State → State)) :=
  [(0xE8, .inx, fun s => { s with x := s.x + 1, p := s.p.nz (s.x + 1) }),
   (0xC8, .iny, fun s => { s with y := s.y + 1, p := s.p.nz (s.y + 1) }),
   (0xCA, .dex, fun s => { s with x := s.x - 1, p := s.p.nz (s.x - 1) }),
   (0x88, .dey, fun s => { s with y := s.y - 1, p := s.p.nz (s.y - 1) })]

/-- The flag instructions and NOP of R170 to R177. -/
def flagRows : List (Byte × Instr × (State → State)) :=
  [(0x18, .clc, fun s => { s with p := { s.p with c := false } }),
   (0x38, .sec, fun s => { s with p := { s.p with c := true } }),
   (0x58, .cli, fun s => { s with p := { s.p with i := false } }),
   (0x78, .sei, fun s => { s with p := { s.p with i := true } }),
   (0xD8, .cld, fun s => { s with p := { s.p with d := false } }),
   (0xF8, .sed, fun s => { s with p := { s.p with d := true } }),
   (0xB8, .clv, fun s => { s with p := { s.p with v := false } }),
   (0xEA, .nop, fun s => s)]

/-- Both decimal digits of a byte are at most 9. -/
def ValidBcd (v : Byte) : Prop := v.toNat / 16 ≤ 9 ∧ v.toNat % 16 ≤ 9

/-- The number that two decimal digits write. -/
def bcdValue (v : Byte) : Nat := v.toNat / 16 * 10 + v.toNat % 16

/-! ## The cycle table (R300) -/

/-- The cycles of a read-class instruction, fetch included. -/
def readCycles (m : ReadMode) (s : State) : Nat :=
  let p (w : Addr) (i : Byte) : Nat := if hi (indexed w i) = hi w then 0 else 1
  match m with
  | .imm _ => 2
  | .zp _ => 3
  | .zpx _ | .zpy _ => 4
  | .abs _ => 4
  | .abx w => 4 + p w s.x
  | .aby w => 4 + p w s.y
  | .izx _ => 6
  | .izy z => 5 + p (pointerAt s z) s.y

/-- The cycles of a store, fetch included. -/
def storeCycles : WriteMode → Nat
  | .zp _ => 3
  | .zpx _ | .zpy _ => 4
  | .abs _ => 4
  | .abx _ | .aby _ => 5
  | .izx _ | .izy _ => 6

/-- The cycles of a read-modify-write instruction on memory, fetch included. -/
def rmwCycles : RmwMode → Nat
  | .zp _ => 5
  | .zpx _ => 6
  | .abs _ => 6
  | .abx _ => 7

/-- The cycles of a shift or rotate, fetch included. -/
def shiftCycles : ShiftMode → Nat
  | .acc => 2
  | .mem m => rmwCycles m

/-- The cycles of a branch at `PC`, fetch included. -/
def branchTotal (taken : Bool) (rel : Byte) (s : State) : Nat :=
  if taken then if hi (s.pc + 2 + sext16 rel) = hi (s.pc + 2) then 3 else 4 else 2

/-- The cycles of the instruction that starts at `PC`, from its opcode fetch to the next boundary (R300). -/
def cyclesOf (i : Instr) (s : State) : Nat :=
  match i with
  | .lda m | .ldx m | .ldy m | .adc m | .sbc m | .cmp m | .cpx m | .cpy m | .and m | .ora m | .eor m | .bit m => readCycles m s
  | .sta m | .stx m | .sty m => storeCycles m
  | .asl m | .lsr m | .rol m | .ror m => shiftCycles m
  | .inc m | .dec m => rmwCycles m
  | .tax | .tay | .txa | .tya | .tsx | .txs | .inx | .iny | .dex | .dey => 2
  | .clc | .sec | .cli | .sei | .cld | .sed | .clv | .nop | .ill _ => 2
  | .pha | .php => 3
  | .pla | .plp => 4
  | .jmp (.abs _) => 3
  | .jmp (.ind _) => 5
  | .jsr _ | .rts | .rti => 6
  | .brk => 7
  | .bcc r => branchTotal (!s.p.c) r s
  | .bcs r => branchTotal s.p.c r s
  | .beq r => branchTotal s.p.z r s
  | .bne r => branchTotal (!s.p.z) r s
  | .bmi r => branchTotal s.p.n r s
  | .bpl r => branchTotal (!s.p.n) r s
  | .bvc r => branchTotal (!s.p.v) r s
  | .bvs r => branchTotal s.p.v r s

end Sys2Proof.Machine
end

