-- ==== Sys2Proof/Safety.lean ====
section
/-! DEFINITION. What counts as a safe run and as its end: 10_state R25, 70_reset_and_hazards R302. -/

namespace Sys2Proof.Machine

/-- No two wires of one identifier, no endpoint the source of two wires, and every sink of its wire's width (R230, R234). -/
def Fabric.wf (f : Fabric) : Bool :=
  decide ((f.wires.map Wire.id).Nodup) && decide ((f.wires.filterMap Wire.source).Nodup) &&
    f.wires.all fun w => w.sinks.all fun k => k.wide == isWide w.value

/-- The microexecution state is one that ticks lead to: `cycle_index` names a line of its sequence (R17, R25 f). -/
def State.microWf (s : State) : Bool := decide (s.micro.cycleIndex < s.sequenceLines.length)

/-- The invariants of R25 that are about the state itself. -/
def State.wf (s : State) : Bool := s.mem.wf && s.fabric.wf && s.microWf

/-- The machine has not halted: a halt is a fault, never the end of a program (R302). -/
def State.safe (s : State) : Bool := s.halted.isNone

/-- The machine is at an instruction boundary, where `END_CONDITION` is judged (R302). -/
def State.atBoundary (s : State) : Bool := s.micro.cycleIndex == 0

/-- A run ended by the observer's predicate on a boundary state, at most `fuel` steps (R302 c, D28): the state that meets it,
none where the machine halts or stops before. -/
def runUntil (endCondition : State → Bool) : Nat → State → Option State
  | 0, _ => none
  | fuel + 1, s =>
    if s.atBoundary && s.safe && endCondition s then some s
    else
      match step s with
      | .next s => if s.safe then runUntil endCondition fuel s else none
      | .fault _ => none
      | .refused _ => none

end Sys2Proof.Machine
end

