-- ==== Sys2Proof/Certificates/Slice0/Obligations.lean ====
section
/-! DEFINITION. The statements about the model, from the numbered rules of spec/. `Completes i s u` says that exec answers a
next state for `i` in `s`, namely `u` but for the latches that are dead at a boundary (R17); `u` is written as `s` with the
fields that change, so that it is the frame as well. Where a state is that after the fetch of the operand bytes, `PC` points
past them. `noHandler` asks that no callback is behind an address. `RunsAs i s r` says, whatever banks and callbacks are behind
the addresses, that the instruction makes the accesses of `r` in their order, each with the byte that answers it, and then the
change `r` ends in (R43, R52, R63); a fault or a refusal of an access is the instruction's. That a discarded read is a real
access is decision D1, that an address with no bank reads 0x00 and ignores writes is D2, and that `PC` wraps at 0xFFFF is D22
(log 16, DEDUCED); the statements that rest on another decision name it. -/

open Sys2Proof Sys2Proof.Machine

/-! ## Encoding -/

/-- Every well-formed instruction, with every operand, decodes from its own bytes (R70, R71, R85, R86, R87). That an illegal
opcode is one byte long is decision D5 (log 16, DEDUCED). -/
def Obligations.DecodeInvertsEncode : Prop :=
  ∀ (i : Instr) (rest : List Byte), i.wf = true → decode (encode i ++ rest) = .ok (i, rest)

/-- Bytes that decode are the encoding of the instruction they decode to, and that instruction is well formed. That an illegal
opcode is one byte long is decision D5 (log 16, DEDUCED). -/
def Obligations.EncodeInvertsDecode : Prop :=
  ∀ (bytes rest : List Byte) (i : Instr), decode bytes = .ok (i, rest) → i.wf = true ∧ encode i ++ rest = bytes

/-- The length, 1, 2 or 3, follows from the first byte alone; an illegal opcode has length 1 (R70, R88). This last clause is
decision D5 (log 16, DEDUCED). -/
def Obligations.FirstByteFixesLength : Prop :=
  ∀ b0 : Byte, ∃ n : Nat, 1 ≤ n ∧ n ≤ 3 ∧ (isIllegal b0 = true → n = 1) ∧
    ∀ tail : List Byte,
      (n ≤ tail.length + 1 → ∃ i, decode (b0 :: tail) = .ok (i, tail.drop (n - 1))) ∧
      (tail.length + 1 < n → decode (b0 :: tail) = .error .missingOperand)

/-- The opcode map leaves out exactly the 105 bytes listed in R87, and each of them is the one-byte instruction ILL. That one
byte is decision D5 (log 16, DEDUCED). -/
def Obligations.IllegalBytesAreTheListedOnes : Prop :=
  illegalBytes.length = 105 ∧
    ∀ (b : Byte) (rest : List Byte),
      (lookup b = none ↔ b.toNat ∈ illegalBytes) ∧ (b.toNat ∈ illegalBytes → decode (b :: rest) = .ok (.ill b, rest))

/-- A word of each family, written out from R86 and R71, decodes to the instruction it stands for. The last, an illegal opcode,
is one byte long by decision D5 (log 16, DEDUCED). -/
def Obligations.SampleWordsDecode : Prop :=
  decode [0xA9, 0x42] = .ok (.lda (.imm 0x42), []) ∧
  decode [0x91, 0x86] = .ok (.sta (.izy 0x86), []) ∧
  decode [0xBA] = .ok (.tsx, []) ∧
  decode [0x7D, 0x34, 0x12] = .ok (.adc (.abx 0x1234), []) ∧
  decode [0x2C, 0x34, 0x12] = .ok (.bit (.abs 0x1234), []) ∧
  decode [0x3E, 0x34, 0x12] = .ok (.rol (.mem (.abx 0x1234)), []) ∧
  decode [0x6C, 0xFF, 0x30] = .ok (.jmp (.ind 0x30FF), []) ∧
  decode [0xD0, 0x04] = .ok (.bne 0x04, []) ∧
  decode [0x00] = .ok (.brk, []) ∧
  decode [0x02] = .ok (.ill 0x02, [])

/-! ## The step -/

/-- Where memory shows the bytes of an instruction from `PC` on and the machine is about to fetch, the step is that
instruction's own, in the state after the fetch (R85, R88, R190, R191). An illegal opcode is one byte long by decision D5 (log
16, DEDUCED), and how a JSR stands for its third byte is log 10 (DEDUCED). -/
def Obligations.StepRunsDecodedInstruction : Prop :=
  ∀ (s : State) (b0 : Byte) (tail : List Byte) (i : Instr), s.fetches → decode (b0 :: tail) = .ok (i, []) →
    s.holdsAtPc (b0 :: tail) → step s = exec i (s.fetched b0 (fetchedBytes i))

/-- A halted machine never changes again (R19). That a halt is terminal, `reset()` included, is decision D15 (R19, R262), and
its form in the model is log 8 (DEDUCED). -/
def Obligations.HaltedMachineStays : Prop :=
  ∀ (s : State) (n : Nat), s.halted ≠ none → tick s = .next s ∧ step s = .next s ∧ ticks n s = .next s

/-- With no callback behind any address the machine never sticks: every step leads to a boundary, whatever the bytes, from the
middle of a sequence too (R190, R261). Under Strict an illegal opcode leads to a halted state, which counts as one: decision D16
(log 8, DEDUCED). -/
def Obligations.StepNeverSticksOnStorage : Prop :=
  ∀ s : State, s.mem.plain = true → s.microWf = true → s.halted = none →
    ∃ t, step s = .next t ∧ t.mem.plain = true ∧ t.micro.cycleIndex = 0

/-- The two levels agree: the ticks of a sequence from its first cycle to its last make exactly the step's change, every
access and every handler answer included (R7, R225). -/
def Obligations.TicksAgreeWithStep : Prop :=
  ∀ s : State, s.halted = none → s.micro.cycleIndex = 0 → finishSequence sequenceBound s = step s

/-- The cycles of every instruction are those of the table (R300), at most 7 and at least 2. An illegal opcode under Nop2 is one
byte long by decision D5 (log 16, DEDUCED). -/
def Obligations.CyclesAreThoseOfTheTable : Prop :=
  ∀ (s : State) (i : Instr) (code : List Byte), s.fetches → (∀ a, s.noHandler a) → decode code = .ok (i, []) →
    s.holdsAtPc code → (∀ b, i = .ill b → s.platform.illegalPolicy = .nop2) →
    2 ≤ cyclesOf i s ∧ cyclesOf i s ≤ 7 ∧ ∃ t, step s = .next t ∧ t.cycles = s.cycles + cyclesOf i s

/-! ## Loads, logic, arithmetic, compare -/

/-- LDA, LDX, LDY: the register takes the operand byte, N and Z follow it, nothing else changes (R100 to R102). At handler
banks too, the accesses are those of the operand's mode, in their order. -/
def Obligations.LoadsComplete : Prop :=
  ∀ (m : ReadMode) (s : State),
    ((∀ a ∈ readAccesses m s, s.noHandler a) →
      let v := operandByte m s
      let n := s.cycles + (readAccesses m s).length
      Completes (.lda m) s { s with a := v, p := s.p.nz v, cycles := n } ∧
      Completes (.ldx m) s { s with x := v, p := s.p.nz v, cycles := n } ∧
      Completes (.ldy m) s { s with y := v, p := s.p.nz v, cycles := n }) ∧
    RunsAs (.lda m) s (andThen (readThrough m s) fun (v, t) => .next { t with a := v, p := s.p.nz v }) ∧
    RunsAs (.ldx m) s (andThen (readThrough m s) fun (v, t) => .next { t with x := v, p := s.p.nz v }) ∧
    RunsAs (.ldy m) s (andThen (readThrough m s) fun (v, t) => .next { t with y := v, p := s.p.nz v })

/-- AND, ORA, EOR change A and N, Z; BIT changes N, V, Z alone, N and V from the operand itself (R130 to R133). At handler
banks too, the accesses are those of the operand's mode, in their order. -/
def Obligations.LogicCompletes : Prop :=
  ∀ (m : ReadMode) (s : State),
    let logic (i : Instr) (f : Byte → Byte) : Prop :=
      ((∀ a ∈ readAccesses m s, s.noHandler a) →
        let r := f (operandByte m s)
        Completes i s { s with a := r, p := s.p.nz r, cycles := s.cycles + (readAccesses m s).length }) ∧
      RunsAs i s (andThen (readThrough m s) fun (v, t) => .next { t with a := f v, p := s.p.nz (f v) })
    let bit (v : Byte) : Flags := { s.p with n := v.getLsbD 7, v := v.getLsbD 6, z := (s.a &&& v) == 0#8 }
    logic (.and m) (s.a &&& ·) ∧ logic (.ora m) (s.a ||| ·) ∧ logic (.eor m) (s.a ^^^ ·) ∧
    ((∀ a ∈ readAccesses m s, s.noHandler a) →
      Completes (.bit m) s { s with p := bit (operandByte m s), cycles := s.cycles + (readAccesses m s).length }) ∧
    RunsAs (.bit m) s (andThen (readThrough m s) fun (v, t) => .next { t with p := bit v })

/-- ADC and SBC: A and N, V, Z, C are those of the adder that D chooses; D and I stay (R120, R121). At handler banks too, the
accesses are those of the operand's mode, in their order. In decimal mode the flags of the adders are decision D20 (log 16,
DEDUCED), and what they give on invalid BCD is log 18 (DEDUCED: U5). -/
def Obligations.AddSubtractComplete : Prop :=
  ∀ (m : ReadMode) (s : State),
    let add (v : Byte) := if s.p.d then adcDec s.a v s.p.c else add8 s.a v s.p.c
    let sub (v : Byte) := if s.p.d then sbcDec s.a v s.p.c else add8 s.a (~~~v) s.p.c
    ∀ row ∈ [(Instr.adc m, add), (Instr.sbc m, sub)],
      ((∀ a ∈ readAccesses m s, s.noHandler a) →
        let r := row.2 (operandByte m s)
        Completes row.1 s
          { s with
            a := r.r
            p := { s.p with n := r.n, v := r.v, z := r.z, c := r.c }
            cycles := s.cycles + (readAccesses m s).length }) ∧
      RunsAs row.1 s
        (andThen (readThrough m s) fun (v, t) =>
          let r := row.2 v
          .next { t with a := r.r, p := { s.p with n := r.n, v := r.v, z := r.z, c := r.c } })

/-- CMP, CPX, CPY change N, Z and C alone, from the unsigned comparison and the 8-bit difference (R122 to R124). At handler
banks too, the accesses are those of the operand's mode, in their order. -/
def Obligations.ComparesComplete : Prop :=
  ∀ (m : ReadMode) (s : State),
    ∀ row ∈ [(Instr.cmp m, s.a), (Instr.cpx m, s.x), (Instr.cpy m, s.y)],
      let flags (v : Byte) : Flags :=
        { s.p with n := (row.2 - v).getLsbD 7, z := row.2 == v, c := decide (v.toNat ≤ row.2.toNat) }
      ((∀ a ∈ readAccesses m s, s.noHandler a) →
        Completes row.1 s { s with p := flags (operandByte m s), cycles := s.cycles + (readAccesses m s).length }) ∧
      RunsAs row.1 s (andThen (readThrough m s) fun (v, t) => .next { t with p := flags v })

/-- `add8` of R125: the wrapped sum, N and Z of it, the carry out of bit 7, and V by R125's formula. The last clause, that V
says whether the true signed sum fits 8 bits, is one that R125 marks [derived]: the spec's own inference, not its rule. -/
def Obligations.BinaryAddIsTheSpecsAdder : Prop :=
  ∀ (a m : Byte) (c : Bool),
    let s := a.toNat + m.toNat + c.toNat
    let r := add8 a m c
    r.r.toNat = s % 256 ∧ r.n = r.r.getLsbD 7 ∧ r.z = decide (r.r = 0#8) ∧ r.c = decide (256 ≤ s) ∧
      r.v = decide (((a ^^^ r.r) &&& (m ^^^ r.r) &&& 0x80#8) ≠ 0#8) ∧
      (r.v = true ↔ a.toInt + m.toInt + (c.toNat : Int) < -128 ∨ 127 < a.toInt + m.toInt + (c.toNat : Int))

/-- `adc_dec` of R126: the corrected digits, C the decimal carry, N, V and Z of the binary sum; on valid operands the sum
modulo 100 and its carry. What an operand that is no valid BCD gives rests on log 18 (DEDUCED: U5, no source supports it), and
V after a decimal addition on decision D20 (log 16, DEDUCED). -/
def Obligations.DecimalAddIsTheSpecsAdder : Prop :=
  ∀ (a m : Byte) (c : Bool),
    let low := a.toNat % 16 + m.toNat % 16 + c.toNat
    let al := if 0x0A ≤ low then (low + 6) % 16 + 0x10 else low
    let t := a.toNat / 16 * 16 + m.toNat / 16 * 16 + al
    let u := if 0xA0 ≤ t then t + 0x60 else t
    let r := adcDec a m c
    r.r.toNat = u % 256 ∧ r.c = decide (0x100 ≤ u) ∧
      r.n = (add8 a m c).n ∧ r.v = (add8 a m c).v ∧ r.z = (add8 a m c).z ∧
      (ValidBcd a → ValidBcd m →
        ValidBcd r.r ∧ bcdValue r.r + (if r.c then 100 else 0) = bcdValue a + bcdValue m + c.toNat)

/-- `sbc_dec` of R127: the corrected digits, C, N, V and Z of the binary difference; on valid operands the difference
modulo 100, and C its no-borrow. The flags, C among them, are decision D20 (log 16, DEDUCED), and what an operand that is no
valid BCD gives rests on log 18 (DEDUCED: U5). -/
def Obligations.DecimalSubtractIsTheSpecsAdder : Prop :=
  ∀ (a m : Byte) (c : Bool),
    let low : Int := (a.toNat % 16 : Nat) - (m.toNat % 16 : Nat) + (c.toNat : Nat) - 1
    let al : Int := if low < 0 then (low - 6) % 16 - 16 else low
    let t : Int := (a.toNat / 16 * 16 : Nat) - (m.toNat / 16 * 16 : Nat) + al
    let u : Int := if t < 0 then t - 0x60 else t
    let r := sbcDec a m c
    (r.r.toNat : Int) = u % 256 ∧
      r.n = (add8 a (~~~m) c).n ∧ r.v = (add8 a (~~~m) c).v ∧ r.z = (add8 a (~~~m) c).z ∧ r.c = (add8 a (~~~m) c).c ∧
      (ValidBcd a → ValidBcd m →
        ValidBcd r.r ∧
          (bcdValue r.r : Int) - (if r.c then 0 else 100) = (bcdValue a : Int) - bcdValue m - (1 - (c.toNat : Int)))

/-! ## Stores and read-modify-write -/

/-- STA, STX, STY write the register to the effective address and change nothing else; RAM takes the byte, ROM and the
unmapped stay (R103 to R105, R47, R51). At handler banks too, the accesses are those of the operand's mode, in their order,
the write the last. -/
def Obligations.StoresComplete : Prop :=
  ∀ (m : WriteMode) (s : State),
    ∀ row ∈ [(Instr.sta m, s.a), (Instr.stx m, s.x), (Instr.sty m, s.y)],
      (s.mem.wf = true → (∀ a ∈ storeAccesses m s, s.noHandler a) →
        ∀ a, storeEa m s = a →
          let mem := s.mem.poke a row.2
          Completes row.1 s { s with mem := mem, cycles := s.cycles + (storeAccesses m s).length } ∧
            SameBut [a] s.mem mem ∧ (s.mem.isRam a → mem.peek a = some row.2) ∧ (¬s.mem.isRam a → mem = s.mem)) ∧
      RunsAs row.1 s (andThen (storeThrough m s) fun (a, t) => busWrite a row.2 t)

/-- ASL, LSR, ROL, ROR of the accumulator (R73, R140 to R143). They, and every other instruction of one byte and two cycles, make
one discarded read of the byte at `PC`, whatever bank is there, and then their change (R63, R194). -/
def Obligations.AccumulatorShiftsComplete : Prop :=
  ∀ s : State,
    let a := s.a
    let old : Byte := if s.p.c then 1 else 0
    (∀ row ∈ [(Instr.asl .acc, a <<< 1, a.getLsbD 7), (Instr.lsr .acc, a >>> 1, a.getLsbD 0),
        (Instr.rol .acc, a <<< 1 ||| old, a.getLsbD 7), (Instr.ror .acc, a >>> 1 ||| old <<< 7, a.getLsbD 0)],
      (s.noHandler s.pc →
        Completes row.1 s
          { s with a := row.2.1, p := { s.p.nz row.2.1 with c := row.2.2 }, cycles := s.cycles + 1 }) ∧
      RunsAs row.1 s
        (andThen (discardRead s.pc s) fun t =>
          .next { t with a := row.2.1, p := { s.p.nz row.2.1 with c := row.2.2 } })) ∧
    ∀ row ∈ transferRows ++ countRows ++ flagRows,
      RunsAs row.2.1 s (andThen (discardRead s.pc s) fun t => .next (row.2.2 t))

/-- The six read-modify-write instructions on memory: the byte at the effective address is written back, then the result;
the shifts set N, Z and C, INC and DEC N and Z alone (R43, R140 to R145). At handler banks too: a read of the address, a write
of the byte read, a write of the result, in that order, after the discarded read of the indexed modes (R198, R201, R204, R207). -/
def Obligations.ReadModifyWriteCompletes : Prop :=
  ∀ (m : RmwMode) (s : State) (a : Addr), rmwEa m s = a →
    let old : Byte := if s.p.c then 1 else 0
    ∀ row ∈ [(Instr.asl (.mem m), fun v : Byte => (v <<< 1, v.getLsbD 7)),
        (Instr.lsr (.mem m), fun v => (v >>> 1, v.getLsbD 0)),
        (Instr.rol (.mem m), fun v => (v <<< 1 ||| old, v.getLsbD 7)),
        (Instr.ror (.mem m), fun v => (v >>> 1 ||| old <<< 7, v.getLsbD 0)),
        (Instr.inc m, fun v => (v + 1, s.p.c)), (Instr.dec m, fun v => (v - 1, s.p.c))],
      (s.mem.wf = true → (∀ a ∈ rmwAccesses m s, s.noHandler a) →
        let v := shownByte s a
        let r := row.2 v
        let mem := (s.mem.poke a v).poke a r.1
        Completes row.1 s
          { s with
            mem := mem
            p := { s.p.nz r.1 with c := r.2 }
            cycles := s.cycles + (rmwAccesses m s).length } ∧
          SameBut [a] s.mem mem ∧ (s.mem.isRam a → mem.peek a = some r.1) ∧ (¬s.mem.isRam a → mem = s.mem)) ∧
      RunsAs row.1 s
        (andThen (discardReads (rmwBefore m s) s) fun t =>
          andThen (busRead a t) fun (v, t) =>
          andThen (busWrite a v t) fun t =>
          andThen (busWrite a (row.2 v).1 t) fun t =>
          .next { t with p := { s.p.nz (row.2 v).1 with c := (row.2 v).2 } })

/-! ## Instructions of one byte and two cycles -/

/-- TAX, TAY, TXA, TYA, TSX set N and Z by the byte moved; TXS moves X to SP and sets no flag (R110 to R115). -/
def Obligations.TransfersComplete : Prop := TwoCycleRows transferRows

/-- INX, INY, DEX, DEY count modulo 256 and set N and Z (R146 to R149). -/
def Obligations.RegisterCountsComplete : Prop := TwoCycleRows countRows

/-- CLC, SEC, CLI, SEI, CLD, SED, CLV change exactly one flag; NOP changes nothing (R170 to R177). -/
def Obligations.FlagInstructionsComplete : Prop := TwoCycleRows flagRows

/-- Each of the 105 illegal bytes: under Nop2 exactly as NOP; under Strict the fetch halts the machine with the opcode and
its address, `PC` already past it (R180, R191). That the halt is a next state with `halted` set, after which the machine stays,
is D16 (log 8, DEDUCED); that an illegal opcode is one byte long under Nop2 is D5 (log 16, DEDUCED). -/
def Obligations.IllegalOpcodesComplete : Prop :=
  ∀ (b : Byte) (s : State), isIllegal b = true →
    (s.platform.illegalPolicy = .nop2 →
      (s.noHandler s.pc → Completes (.ill b) s { s with cycles := s.cycles + 1 }) ∧ RunsAs (.ill b) s (discardRead s.pc s)) ∧
    (s.platform.illegalPolicy = .nop2 → s.fetches → s.mem.peek s.pc = some b → s.noHandler (s.pc + 1) →
      StepsTo s { s with pc := s.pc + 1, cycles := s.cycles + 2 }) ∧
    (s.platform.illegalPolicy = .strict → s.fetches → s.mem.peek s.pc = some b →
      StepsTo s { s with pc := s.pc + 1, cycles := s.cycles + 1, halted := some (.invalidOpcode b s.pc) })

/-! ## The stack -/

/-- PHA and PHP write A or the status byte with bits 5 and 4 set at `0x0100 | SP`, then SP goes down by one, modulo 256;
no flag changes (R11, R116, R117). At handler banks too: a discarded read at `PC`, then the write (R213). -/
def Obligations.PushesComplete : Prop :=
  ∀ s : State,
    ∀ row ∈ [(Instr.pha, s.a), (Instr.php, s.p.toByte true)],
      (s.mem.wf = true → s.noHandler s.pc → s.noHandler (0x0100#16 ||| s.sp.setWidth 16) →
        ∀ a, stackAddr s.sp = a →
          let mem := s.mem.poke a row.2
          Completes row.1 s { s with sp := s.sp - 1, mem := mem, cycles := s.cycles + 2 } ∧
            SameBut [a] s.mem mem ∧ (s.mem.isRam a → mem.peek a = some row.2) ∧ (¬s.mem.isRam a → mem = s.mem)) ∧
      RunsAs row.1 s
        (andThen (discardReads [s.pc] s) fun t =>
          andThen (busWrite (0x0100#16 ||| s.sp.setWidth 16) row.2 t) fun t => .next { t with sp := s.sp - 1 })

/-- PLA and PLP: SP goes up by one, modulo 256, then the byte at `0x0100 | SP` goes to A, with N and Z, or to the six flags
(R11, R118, R119). At handler banks too: discarded reads at `PC` and at the old SP, then the read of the byte (R214). -/
def Obligations.PullsComplete : Prop :=
  ∀ s : State,
    let from_ := 0x0100#16 ||| (s.sp + 1).setWidth 16
    let flags (v : Byte) : Flags :=
      { n := v.getLsbD 7
        v := v.getLsbD 6
        d := v.getLsbD 3
        i := v.getLsbD 2
        z := v.getLsbD 1
        c := v.getLsbD 0 }
    (s.noHandler s.pc → s.noHandler (0x0100#16 ||| s.sp.setWidth 16) → s.noHandler from_ →
      let v := shownByte s from_
      Completes .pla s { s with a := v, p := s.p.nz v, sp := s.sp + 1, cycles := s.cycles + 3 } ∧
      Completes .plp s { s with p := flags v, sp := s.sp + 1, cycles := s.cycles + 3 }) ∧
    let pulled := andThen (discardReads [s.pc, 0x0100#16 ||| s.sp.setWidth 16] s) (busRead from_)
    RunsAs .pla s (andThen pulled fun (v, t) => .next { t with a := v, p := s.p.nz v, sp := s.sp + 1 }) ∧
    RunsAs .plp s (andThen pulled fun (v, t) => .next { t with p := flags v, sp := s.sp + 1 })

/-- The status byte of R16: N, V, 1, B, D, I, Z, C from bit 7 to bit 0; loading one reads six bits and drops bits 5 and 4; the
snapshot shows it with B = 0. That bit 4 of the snapshot is 0 is decision D9 (R15, R27; log 16, DEDUCED). -/
def Obligations.StatusByteHasTheSpecsBits : Prop :=
  ∀ (p : Flags) (b : Bool) (v : Byte),
    (List.range 8).map (p.toByte b).getLsbD = [p.c, p.z, p.i, p.d, b, true, p.v, p.n] ∧
      Flags.ofByte v =
        { n := v.getLsbD 7
          v := v.getLsbD 6
          d := v.getLsbD 3
          i := v.getLsbD 2
          z := v.getLsbD 1
          c := v.getLsbD 0 } ∧
      Flags.ofByte (p.toByte b) = p ∧
      (Flags.ofByte v).toByte b = (v &&& 0xCF#8) ||| (if b then 0x30#8 else 0x20#8) ∧
      ∀ s : State, s.registers.p = s.p.toByte false

/-- A push followed by the matching pull restores what was pushed and SP: PHA then PLA, PHP then PLP (R116 to R119). -/
def Obligations.PushThenPullRestores : Prop :=
  ∀ s : State, s.mem.wf = true → (∀ a, s.noHandler a) → s.mem.isRam (stackAddr s.sp) →
    (∃ t u, exec .pha s = .next t ∧ exec .pla t = .next u ∧ u.a = s.a ∧ u.sp = s.sp ∧ u.p = s.p.nz s.a) ∧
    (∃ t u, exec .php s = .next t ∧ exec .plp t = .next u ∧ u.p = s.p ∧ u.sp = s.sp ∧ u.a = s.a)

/-! ## Control transfer -/

/-- JMP changes `PC` alone: to the operand, or to the word at the pointer, whose second byte lies in the pointer's own page
(R81, R150); at handler banks too, its low byte read first (R216). -/
def Obligations.JumpsComplete : Prop :=
  ∀ (w : Addr) (s : State),
    Completes (.jmp (.abs w)) s { s with pc := w } ∧
    (s.noHandler w → s.noHandler (cat (hi w) (lo w + 1)) →
      Completes (.jmp (.ind w)) s
        { s with pc := cat (shownByte s (cat (hi w) (lo w + 1))) (shownByte s w), cycles := s.cycles + 2 }) ∧
    RunsAs (.jmp (.ind w)) s
      (andThen (busRead w s) fun (l, t) =>
        andThen (busRead (cat (hi w) (lo w + 1)) t) fun (h, t) => .next { t with pc := cat h l })

/-- JSR, its third byte at `PC`: the address of that byte is pushed, high byte first, and only then is the byte read, so that it
may be one just pushed; else `PC` goes to the operand (R151, R217). At handler banks too, in that order, after a discarded read
of the stack. That the operand's high byte plays no part of its own is log 10 (DEDUCED). -/
def Obligations.JsrCompletes : Prop :=
  ∀ (w : Addr) (s : State) (a b : Addr), stackAddr s.sp = a → stackAddr (s.sp - 1) = b →
    (s.mem.wf = true → s.noHandler s.pc → s.noHandler a → s.noHandler b →
      let mem := (s.mem.poke a (hi s.pc)).poke b (lo s.pc)
      Completes (.jsr w) s
        { s with pc := cat (mem.shows s.pc) (lo w), sp := s.sp - 2, mem := mem, cycles := s.cycles + 4 } ∧
      SameBut [a, b] s.mem mem ∧
      (s.mem.isRam a → mem.peek a = some (hi s.pc)) ∧ (s.mem.isRam b → mem.peek b = some (lo s.pc)) ∧
      (s.pc ≠ a → s.pc ≠ b → s.mem.peek s.pc = some (hi w) → cat (mem.shows s.pc) (lo w) = w)) ∧
    RunsAs (.jsr w) s
      (andThen (discardReads [a] s) fun t =>
        andThen (busWrite a (hi s.pc) t) fun t =>
        andThen (busWrite b (lo s.pc) t) fun t =>
        andThen (busRead s.pc t) fun (h, t) =>
        .next { t with pc := cat h (lo w), sp := s.sp - 2 })

/-- RTS pulls the low byte, then the high byte, and goes to one more than the address pulled (R152, R218). At handler banks too:
discarded reads at `PC`, at the old SP and, last, at the address pulled. The statement is over every state, one whose stack
holds the frame of an interrupt included; there R272 says otherwise, and that RTS follows R152 and R218 is the model's choice
(log 30, DESIGN CHOICE). -/
def Obligations.RtsCompletes : Prop :=
  ∀ s : State,
    (s.noHandler s.pc → s.noHandler (stackAddr s.sp) → s.noHandler (stackAddr (s.sp + 1)) →
      s.noHandler (stackAddr (s.sp + 2)) →
      let r := cat (shownByte s (stackAddr (s.sp + 2))) (shownByte s (stackAddr (s.sp + 1)))
      s.noHandler r → Completes .rts s { s with pc := r + 1, sp := s.sp + 2, cycles := s.cycles + 5 }) ∧
    RunsAs .rts s
      (andThen (discardReads [s.pc, stackAddr s.sp] s) fun t =>
        andThen (busRead (stackAddr (s.sp + 1)) t) fun (l, t) =>
        andThen (busRead (stackAddr (s.sp + 2)) t) fun (h, t) =>
        andThen (discardReads [cat h l] t) fun t =>
        .next { t with pc := cat h l + 1, sp := s.sp + 2 })

/-- JSR and then RTS: back to the byte after the JSR, with SP as before (R151, R152). -/
def Obligations.JsrThenRtsReturns : Prop :=
  ∀ (w : Addr) (s : State), s.mem.wf = true → (∀ a, s.noHandler a) → s.mem.isRam (stackAddr s.sp) →
    s.mem.isRam (stackAddr (s.sp - 1)) →
    ∃ t u, exec (.jsr w) s = .next t ∧ exec .rts t = .next u ∧ u.pc = s.pc + 1 ∧ u.sp = s.sp ∧ u.p = s.p ∧ u.a = s.a

/-- The eight branches, `PC` being that of the next instruction: taken on their flag, to `PC` plus the signed offset, one
cycle more, or two to another page; nothing but `PC` changes (R84, R153 to R161). At handler banks too, a branch taken makes
its discarded reads there. -/
def Obligations.BranchesComplete : Prop :=
  ∀ (rel : Byte) (s : State),
    ∀ row ∈ [(Instr.bcc rel, !s.p.c), (Instr.bcs rel, s.p.c), (Instr.beq rel, s.p.z), (Instr.bne rel, !s.p.z),
        (Instr.bmi rel, s.p.n), (Instr.bpl rel, !s.p.n), (Instr.bvc rel, !s.p.v), (Instr.bvs rel, s.p.v)],
      let pc := if row.2 then s.pc + rel.signExtend 16 else s.pc
      ((∀ a ∈ branchAccesses row.2 rel s, s.noHandler a) →
        Completes row.1 s
          { s with
            pc := pc
            cycles :=
              s.cycles + (if row.2 then if hi (s.pc + rel.signExtend 16) = hi s.pc then 1 else 2 else 0) }) ∧
      RunsAs row.1 s (andThen (discardReads (branchAccesses row.2 rel s) s) fun t => .next { t with pc := pc })

/-! ## Exceptions and reset -/

/-- BRK, its padding byte at `PC`: the return address, one past the padding, and the status byte with B = 1 are pushed, I is
set, and `PC` comes from 0xFFFE, or from 0xFFFA where an NMI is pending, which is then no longer pending (R178, R269, R270). At
handler banks too, an NMI that one of the pushes latches among them. That the vector is chosen after the pushes, and that a
pending NMI takes the BRK over, is decision D6 (R270; log 16, DEDUCED). -/
def Obligations.BrkTakesTheException : Prop :=
  ∀ s : State,
    (s.mem.wf = true →
      (∀ a ∈ [s.pc, stackAddr s.sp, stackAddr (s.sp - 1), stackAddr (s.sp - 2), 0xFFFA#16, 0xFFFB#16, 0xFFFE#16, 0xFFFF#16],
        s.noHandler a) →
      let mem := pushFrame s.mem s.sp (s.pc + 1) (s.p.toByte true)
      let v : Addr := if s.lines.nmiPending then 0xFFFA else 0xFFFE
      Completes .brk s
        { s with
          pc := cat (mem.shows (v + 1)) (mem.shows v)
          sp := s.sp - 3
          p := { s.p with i := true }
          lines := { s.lines with nmiPending := false }
          mem := mem
          cycles := s.cycles + 6 } ∧
      SameBut [stackAddr s.sp, stackAddr (s.sp - 1), stackAddr (s.sp - 2)] s.mem mem) ∧
    RunsAs .brk s (andThen (discardReads [s.pc] s) (exceptionThrough (s.pc + 1) true))

/-- Interrupt entry at a boundary, for a pending NMI or for an IRQ with I = 0: no opcode is fetched, `PC` itself and the status
byte with B = 0 are pushed, I is set, D stays, and `PC` comes from the vector, 7 cycles (R221, R263 to R265, R267 to R270). At
handler banks too, after two discarded reads at `PC`. That the vector is chosen after the pushes, an NMI latched by then
included, is decision D6 (R270; log 16, DEDUCED). -/
def Obligations.InterruptEntryCompletes : Prop :=
  ∀ s : State, s.halted = none → s.micro.cycleIndex = 0 → s.lines.resetPending = false →
    (s.lines.nmiPending = true ∨ s.lines.irqLevel = true ∧ s.p.i = false) →
    (s.mem.wf = true →
      (∀ a ∈ [s.pc, stackAddr s.sp, stackAddr (s.sp - 1), stackAddr (s.sp - 2), 0xFFFA#16, 0xFFFB#16, 0xFFFE#16, 0xFFFF#16],
        s.noHandler a) →
      let mem := pushFrame s.mem s.sp s.pc (s.p.toByte false)
      let v : Addr := if s.lines.nmiPending then 0xFFFA else 0xFFFE
      StepsTo s
        { s with
          pc := cat (mem.shows (v + 1)) (mem.shows v)
          sp := s.sp - 3
          p := { s.p with i := true }
          lines := { s.lines with nmiPending := false }
          mem := mem
          cycles := s.cycles + 7 } ∧
      SameBut [stackAddr s.sp, stackAddr (s.sp - 1), stackAddr (s.sp - 2)] s.mem mem) ∧
    SameAnswer (step s) (andThen (discardReads [s.pc, s.pc] s) (exceptionThrough s.pc false))

/-- The frame that an exception pushes into RAM is the three bytes of R269, each address wrapped inside page one. -/
def Obligations.ExceptionFrameInRam : Prop :=
  ∀ (m : Memory) (sp status : Byte) (r : Addr), m.wf = true → m.isRam (stackAddr sp) → m.isRam (stackAddr (sp - 1)) →
    m.isRam (stackAddr (sp - 2)) →
    let mem := pushFrame m sp r status
    mem.peek (0x0100#16 ||| sp.setWidth 16) = some (hi r) ∧ mem.peek (0x0100#16 ||| (sp - 1).setWidth 16) = some (lo r) ∧
      mem.peek (0x0100#16 ||| (sp - 2).setWidth 16) = some status

/-- RTI pulls the six flags, then the return address, low byte first, and adds nothing to it (R179, R219, R272). At handler
banks too, after discarded reads at `PC` and at the old SP. -/
def Obligations.RtiCompletes : Prop :=
  ∀ s : State,
    let flags (v : Byte) : Flags :=
      { n := v.getLsbD 7
        v := v.getLsbD 6
        d := v.getLsbD 3
        i := v.getLsbD 2
        z := v.getLsbD 1
        c := v.getLsbD 0 }
    ((∀ a ∈ [s.pc, stackAddr s.sp, stackAddr (s.sp + 1), stackAddr (s.sp + 2), stackAddr (s.sp + 3)], s.noHandler a) →
      Completes .rti s
        { s with
          p := flags (shownByte s (stackAddr (s.sp + 1)))
          pc := cat (shownByte s (stackAddr (s.sp + 3))) (shownByte s (stackAddr (s.sp + 2)))
          sp := s.sp + 3
          cycles := s.cycles + 5 }) ∧
    RunsAs .rti s
      (andThen (discardReads [s.pc, stackAddr s.sp] s) fun t =>
        andThen (busRead (stackAddr (s.sp + 1)) t) fun (v, t) =>
        andThen (busRead (stackAddr (s.sp + 2)) t) fun (l, t) =>
        andThen (busRead (stackAddr (s.sp + 3)) t) fun (h, t) =>
        .next { t with p := flags v, pc := cat h l, sp := s.sp + 3 })

/-- BRK and then RTI: back past the padding byte, with the flags and SP as before (R178, R179, R272). -/
def Obligations.BrkThenRtiReturns : Prop :=
  ∀ s : State, s.mem.wf = true → (∀ a, s.noHandler a) → s.mem.isRam (stackAddr s.sp) →
    s.mem.isRam (stackAddr (s.sp - 1)) → s.mem.isRam (stackAddr (s.sp - 2)) →
    ∃ t u, exec .brk s = .next t ∧ exec .rti t = .next u ∧ u.pc = s.pc + 1 ∧ u.sp = s.sp ∧ u.p = s.p ∧ u.a = s.a

/-- A reset sequence: SP 0xFD, I set, D clear, `PC` from 0xFFFC, low byte first, 7 cycles; everything else stays, a pending
NMI and the IRQ level among it, and the reset is no longer pending (R222, R266, R290). At handler banks too: five discarded
reads, two at `PC` and three on the stack, then the two of the vector. That D is cleared, that SP comes from three stack reads
and that a pending NMI survives are the decisions D3, D4 and D25 (log 16, DEDUCED). -/
def Obligations.ResetSequenceCompletes : Prop :=
  ∀ s : State, s.halted = none → s.micro.cycleIndex = 0 → s.lines.resetPending = true →
    let s' := s.setLines { s.lines with resetPending := false }
    ((∀ a ∈ [s.pc, 0x0100#16, 0x01FF#16, 0x01FE#16, 0xFFFC#16, 0xFFFD#16], s.noHandler a) →
      StepsTo s
        { s' with
          sp := 0xFD
          p := { s.p with i := true, d := false }
          pc := cat (shownByte s 0xFFFD) (shownByte s 0xFFFC)
          cycles := s.cycles + 7 }) ∧
    SameAnswer (step s)
      (andThen (discardReads [s.pc, s.pc, 0x0100, 0x01FF, 0x01FE] s') fun t =>
        andThen (busRead 0xFFFC t) fun (l, t) =>
        andThen (busRead 0xFFFD t) fun (h, t) =>
        .next { t with sp := 0xFD, p := { s.p with i := true, d := false }, pc := cat h l })

/-- The two columns of R26. At construction, for every INIT (decision D10), frequency, platform and world: the values it gives.
From there `reset()` and its sequence, 7 cycles, lead to the second column, A, X, Y, N, V, Z and C still those of INIT. The
model's reset state is that second column, on an empty bus, and well formed; that its A, X, Y, N, V, Z and C are zero is the
model's choice (log 2) and is not stated. The model's choices here: a frequency of 0 makes a machine like any other (log 28), no
bank is installed (log 3), and the clock's wire is the one wire (log 15), all DESIGN CHOICE. Decisions of the spec here: D clear
after the reset (D3), SP through three stack reads (D4), `running` false (D12), `cycles` never cleared (D17) and, for the vector on
the empty bus, the open bus 0x00 (D2), and the wire's value 0 (D19) (log 16, DEDUCED). -/
def Obligations.ResetStateIsAsStated : Prop :=
  (∀ (init : Init) (hz : Nat) (platform : Platform) (world : World),
    let s := State.constructed init hz platform world
    s.wf = true ∧ s.a = init.a ∧ s.x = init.x ∧ s.y = init.y ∧ s.sp = init.sp ∧ s.pc = init.pc ∧ s.p = init.p ∧
      s.micro =
        { seq := .instr
          cycleIndex := 0
          opcode := init.opcode
          adl := init.adl
          adh := init.adh
          ptr := init.ptr
          operand := init.operand
          pageCross := init.pageCross } ∧
      s.halted = none ∧ s.cycles = 0 ∧
      s.lines = { irqLevel := false, nmiPending := false, nmiPrev := false, resetPending := false, clkPrev := false } ∧
      s.mem.banks = [] ∧ (∀ a, s.mem.resolve a = none) ∧
      s.fabric.wires = [{ id := 0, value := .bit false, source := some clockEndpoint, sinks := [] }] ∧
      s.fabric.delivering = [] ∧ s.platform = platform ∧ s.world = world ∧ s.fabric.clock.frequency = hz ∧
      s.fabric.clock.phase = 0 ∧ s.fabric.clock.out = false ∧ s.fabric.clock.running = false ∧ s.fabric.tickCount = 0 ∧
      StepsTo (resetCall s)
        { s with
          sp := 0xFD
          p := { init.p with i := true, d := false }
          pc := cat (s.mem.shows 0xFFFD) (s.mem.shows 0xFFFC)
          cycles := 7 }) ∧
  State.reset.wf = true ∧ State.reset.mem.wf = true ∧ State.reset.sp = 0xFD ∧ State.reset.p.i = true ∧ State.reset.p.d = false ∧
    State.reset.micro.cycleIndex = 0 ∧ State.reset.halted = none ∧ State.reset.cycles = 7 ∧
    State.reset.lines = { irqLevel := false, nmiPending := false, nmiPrev := false, resetPending := false, clkPrev := false } ∧
    State.reset.mem.banks = [] ∧ (∀ a, State.reset.mem.resolve a = none) ∧
    State.reset.fabric.wires = [{ id := 0, value := .bit false, source := some clockEndpoint, sinks := [] }] ∧
    State.reset.fabric.delivering = [] ∧
    State.reset.pc = cat (State.reset.mem.shows 0xFFFD) (State.reset.mem.shows 0xFFFC) ∧
    State.reset.fabric.clock.phase = 0 ∧ State.reset.fabric.clock.out = false ∧ State.reset.fabric.clock.running = false ∧
    State.reset.fabric.tickCount = 0

/-! ## Memory and the bus -/

/-- A bus read resolves the active bank: no bank reads 0x00, RAM and ROM answer their storage, a handler bank its callback,
which receives the full address and may fault (R46, R51, R53). The open bus 0x00 is decision D2 and the full address D14
(log 16, DEDUCED); that a fault of the callback ends the step as the model's fault is log 7 (DEDUCED). What the callback's calls
do is BusWriteDispatches; that a read callback may call `switch` is log 31 (DESIGN CHOICE). -/
def Obligations.BusReadDispatches : Prop :=
  ∀ (a : Addr) (s : State),
    (s.mem.bankAt a = none → busRead a s = .next (0x00, s.addCycle)) ∧
    (∀ b, s.mem.bankAt a = some b → b.kind ≠ .handler →
      busRead a s = .next (cellsGet (a.toNat - b.lo.toNat) b.cells, s.addCycle)) ∧
    (∀ b, s.mem.bankAt a = some b → b.kind = .handler →
      match Config.onRead s.world b.id a with
      | .fault k => busRead a s = .fault (.busError k)
      | .value v calls w =>
        busRead a s = andThen (runAll handlerCall calls (s.addCycle.setWorld w)) fun t => .next (v, t))

/-- A bus write resolves the active bank: RAM stores, ROM and no bank ignore it, a handler bank calls its callback, which may
fault (R47, R51, R53). The calls of a callback are made one after the other inside the access (R50, R52): a `switch` within its
preconditions is in force from the next access on and changes no storage, one outside them changes nothing (R49, R50); `stop`
clears `running` (R243, R247); a wire write stores the value and has its deliveries made in order, the writes made inside them
included, before the next call (R232, R235), and through an endpoint that is no source changes nothing (R234). Decisions of the
spec: D2 an unmapped write is ignored (log 16), D13 the rejected switch and D26 a value of another width (log 14), D12 `stop`
clears `running` (log 16), all DEDUCED; how a fault ends the step is log 7, what a callback may call log 17 (DEDUCED), that a
read callback may call `switch` log 31 (DESIGN CHOICE). The
refusals are U9 (a callback that calls read, write or tick, a rising clock edge among them) and U6 (a write of a wire from inside
its own delivery), log 13; that a callback may write through the clock's own endpoint is log 22 (DESIGN CHOICE). -/
def Obligations.BusWriteDispatches : Prop :=
  ∀ (a : Addr) (v : Byte) (s : State),
    (s.mem.bankAt a = none → busWrite a v s = .next s.addCycle) ∧
    (∀ b, s.mem.bankAt a = some b → b.kind = .rom → busWrite a v s = .next s.addCycle) ∧
    (∀ b, s.mem.bankAt a = some b → b.kind = .ram →
      busWrite a v s = .next (s.addCycle.setMem (s.mem.poke a v)) ∧
        (s.mem.wf = true → (s.mem.poke a v).peek a = some v ∧ SameBut [a] s.mem (s.mem.poke a v))) ∧
    (∀ b, s.mem.bankAt a = some b → b.kind = .handler →
      match Config.onWrite s.world b.id a v with
      | .fault k => busWrite a v s = .fault (.busError k)
      | .ok calls w =>
        busWrite a v s = calls.foldl (fun r c => andThen r (handlerCall c)) (.next (s.addCycle.setWorld w))) ∧
    (∀ lo hi id b, s.mem.wf = true → s.mem.bank id = some b → lo.toNat ≤ hi.toNat → b.lo.toNat ≤ lo.toNat → hi.toNat ≤ b.hi.toNat →
      ∃ m, handlerCall (.switch lo hi id) s = .next { s with mem := m } ∧ m.banks = s.mem.banks ∧
        ∀ c : Addr, m.bankAt c = if lo.toNat ≤ c.toNat ∧ c.toNat ≤ hi.toNat then some b else s.mem.bankAt c) ∧
    (∀ lo hi id,
      (∀ b, s.mem.bank id = some b → ¬(lo.toNat ≤ hi.toNat ∧ b.lo.toNat ≤ lo.toNat ∧ hi.toNat ≤ b.hi.toNat)) →
        handlerCall (.switch lo hi id) s = .next s) ∧
    handlerCall (.fabric .stop) s =
      .next { s with fabric := { s.fabric with clock := { s.fabric.clock with running := false } } } ∧
    handlerCall .reenter s = .refused .handlerReentry ∧
    (∀ src u, s.fabric.wireOfSource src = none → handlerCall (.fabric (.writeWire src u)) s = .next s) ∧
    (∀ src u w, s.fabric.wireOfSource src = some w →
      (w.id ∈ s.fabric.delivering → handlerCall (.fabric (.writeWire src u)) s = .refused .wireReentry) ∧
      (w.id ∉ s.fabric.delivering → isWide u ≠ isWide w.value →
        handlerCall (.fabric (.writeWire src u)) s = .refused .illTypedWrite) ∧
      (w.id ∉ s.fabric.delivering → isWide u = isWide w.value →
        handlerCall (.fabric (.writeWire src u)) s =
          deliverInOrder (fun _ => .refused .handlerReentry) (fun e x => handlerCall (.fabric (.writeWire e x))) w u w.sinks
            { s with fabric := s.fabric.setWire { w with value := u } }))

/-- Whatever a callback does, one access leaves the registers, the flags, the latches of the sequence, the halt state and the
configuration alone, and counts one cycle; a read changes no storage (R52, R192, R235). What a callback may call is log 17
(DEDUCED), that a read callback may call `switch` log 31 (DESIGN CHOICE). -/
def Obligations.AccessesTouchNoRegister : Prop :=
  ∀ (a : Addr) (v : Byte) (s t : State), (busRead a s = .next (v, t) ∨ busWrite a v s = .next t) →
    t.a = s.a ∧ t.x = s.x ∧ t.y = s.y ∧ t.sp = s.sp ∧ t.pc = s.pc ∧ t.p = s.p ∧ t.micro = s.micro ∧ t.halted = s.halted ∧
      t.platform = s.platform ∧ t.cycles = s.cycles + 1 ∧ (busRead a s = .next (v, t) → t.mem.banks = s.mem.banks)

/-- A byte written to RAM is what the next read of the address answers, and a read of any other address of storage answers
what it did before (R54, R56). -/
def Obligations.ReadAfterWrite : Prop :=
  ∀ (a b : Addr) (v : Byte) (s t : State), s.mem.wf = true → s.mem.isRam a → busWrite a v s = .next t → s.noHandler b →
    busRead b t = .next (if b = a then v else shownByte s b, t.addCycle)

/-- `install_bank`: within its preconditions the bank is added and becomes active on its whole range, every other address
stays; outside them the call is rejected: a storage of another length than its range, among them (R48). The preconditions
and the rejection are decision D13 (log 14, DEDUCED). -/
def Obligations.InstallBankActivatesItsRange : Prop :=
  ∀ (b : Bank) (s : State), s.mem.wf = true →
    (b.wf = true → (∀ c ∈ s.mem.banks, c.id ≠ b.id) →
      ∃ m, installBank b s = .next (s.setMem m) ∧ m.banks = s.mem.banks ++ [b] ∧
        ∀ a : Addr, m.resolve a = if b.lo.toNat ≤ a.toNat ∧ a.toNat ≤ b.hi.toNat then some b.id else s.mem.resolve a) ∧
    (b.wf = false ∨ (∃ c ∈ s.mem.banks, c.id = b.id) → installBank b s = .refused (.config .badBank))

/-- `switch`: within its preconditions the bank becomes active on the range, every other address and all storage stay;
outside them the call is rejected (R49). The preconditions and the rejection are decision D13 (log 14, DEDUCED). -/
def Obligations.SwitchActivatesTheRange : Prop :=
  ∀ (lo hi : Addr) (id : BankId) (s : State), s.mem.wf = true →
    (∀ b, s.mem.bank id = some b → lo.toNat ≤ hi.toNat → b.lo.toNat ≤ lo.toNat → hi.toNat ≤ b.hi.toNat →
      ∃ m, switchBank lo hi id s = .next (s.setMem m) ∧ m.banks = s.mem.banks ∧
        ∀ a : Addr, m.resolve a = if lo.toNat ≤ a.toNat ∧ a.toNat ≤ hi.toNat then some id else s.mem.resolve a) ∧
    ((∀ b, s.mem.bank id = some b → ¬(lo.toNat ≤ hi.toNat ∧ b.lo.toNat ≤ lo.toNat ∧ hi.toNat ≤ b.hi.toNat)) →
      switchBank lo hi id s = .refused (.config .badSwitch))

/-- Loading an image where storage is active: byte `i` of it becomes the content of `origin + i`, in ROM too, every other
address stays; an image past 0xFFFF is rejected (R60). This rejection is decision D23 (log 14, DEDUCED). -/
def Obligations.ImageLoadSetsItsBytes : Prop :=
  ∀ (origin : Addr) (bytes : List Byte) (s : State), s.mem.wf = true →
    (65536 < origin.toNat + bytes.length → loadImage origin bytes s = .refused (.config .imageTooLong)) ∧
    (origin.toNat + bytes.length ≤ 65536 →
      (∀ i < bytes.length, ∃ b, s.mem.bankAt (origin + BitVec.ofNat 16 i) = some b ∧ b.kind ≠ .handler) →
      ∃ m, loadImage origin bytes s = .next (s.setMem m) ∧
        (∀ (i : Nat) (h : i < bytes.length), m.peek (origin + BitVec.ofNat 16 i) = some bytes[i]) ∧
        ∀ a : Addr, (a.toNat < origin.toNat ∨ origin.toNat + bytes.length ≤ a.toNat) → m.peek a = s.mem.peek a)

/-- No step writes ROM, whatever the handlers do: a ROM bank after it is a ROM bank before it, byte for byte; and no step adds,
removes, moves or resizes a bank (R47, R48, R50, R61). What a callback may call is log 17 (DEDUCED), that a read
callback may call `switch` log 31 (DESIGN CHOICE). -/
def Obligations.StepsNeverWriteRom : Prop :=
  ∀ s t : State, s.mem.wf = true → step s = .next t →
    (∀ b ∈ t.mem.banks, b.kind = .rom → b ∈ s.mem.banks) ∧
      t.mem.banks.map (fun b => (b.id, b.kind, b.lo, b.hi, b.length)) =
        s.mem.banks.map (fun b => (b.id, b.kind, b.lo, b.hi, b.length))

/-! ## Invariants -/

/-- Every step, handlers and the middle of a sequence included, keeps Memory in its canonical form: no two banks of one id,
storage and the active map canonical, and every active bank installed and in its range (R21, R25 a). That a read callback may
call `switch` is log 31 (DESIGN CHOICE). -/
def Obligations.StepKeepsMemoryForm : Prop :=
  ∀ s t : State, s.mem.wf = true → step s = .next t → t.mem.wf = true

/-- Everything that can happen to the machine, ticks, harness steps and host calls, keeps the state well formed: Memory
canonical, one source a wire, every sink of its wire's width, and `cycle_index` on a line of its sequence (R17, R25, R234,
R245); and one wire a source, which no rule asks for and is the model's choice (log 26, DESIGN CHOICE). What a callback may call
is log 17 (DEDUCED), that a read callback may call `switch` log 31 (DESIGN CHOICE). -/
def Obligations.EventsKeepTheStateWellFormed : Prop :=
  ∀ (e : Event) (s t : State), s.wf = true → happen e s = .next t → t.wf = true

/-- From a well-formed state no tick finds its sequence without a line (R190, R223). What a line without a sequence would be is
log 12 (DEDUCED). -/
def Obligations.TickNeverLacksALine : Prop :=
  ∀ s : State, s.microWf = true → tick s ≠ .refused .noSuchCycle

/-! ## The cycle level -/

/-- A tick of a running machine makes exactly one bus access, whatever it meets: `cycles` counts one (R20, R25 d, R192). Exactly
one access, not at most one, is decision D1, and that `cycles` is never cleared is D17 (log 16, DEDUCED). -/
def Obligations.TickCountsOneCycle : Prop :=
  ∀ s t : State, s.halted = none → tick s = .next t → t.cycles = s.cycles + 1

/-- Within a sequence the registers A, X, Y and the flags N, V, Z, C keep their values until its last cycle; D changes only
inside a reset, I only inside BRK, an interrupt entry or a reset (R193). That a reset changes D is decision D3 (log 16,
DEDUCED). -/
def Obligations.RegistersCommitOnTheLastCycle : Prop :=
  ∀ s t : State, s.halted = none → tick s = .next t → t.micro.cycleIndex ≠ 0 →
    t.a = s.a ∧ t.x = s.x ∧ t.y = s.y ∧ t.p.n = s.p.n ∧ t.p.v = s.p.v ∧ t.p.z = s.p.z ∧ t.p.c = s.p.c ∧
      (t.p.d = s.p.d ∨ t.micro.seq = .reset) ∧
      (t.p.i = s.p.i ∨ t.micro.seq ≠ .instr ∨ t.micro.opcode = 0x00)

/-- The IRQ level, a queued reset and the remembered levels of the inputs make no difference to a tick in the middle of a
sequence (R224, R263, R266). That a reset queued in the middle of a sequence waits for its end is decision D21 (R224, R266; log
16, DEDUCED). -/
def Obligations.LatchesExaminedOnlyAtBoundaries : Prop :=
  ∀ (s : State) (l : Latches), (∀ a, s.noHandler a) → s.micro.cycleIndex ≠ 0 → l.nmiPending = s.lines.nmiPending →
    tick (s.setLines l) = andThen (tick s) fun t => .next (t.setLines { l with nmiPending := t.lines.nmiPending })

/-- Which instructions can change which flag and register, whatever memory and its handlers answer (R10, R11, R174, R176, R193). -/
def Obligations.OnlyTheListedInstructionsWrite : Prop :=
  ∀ (i : Instr) (s t : State), exec i s = .next t →
    (match i with
      | .cld | .sed | .plp | .rti => True
      | _ => t.p.d = s.p.d) ∧
    (match i with
      | .cli | .sei | .plp | .rti | .brk => True
      | _ => t.p.i = s.p.i) ∧
    (match i with
      | .adc _ | .sbc _ | .bit _ | .clv | .plp | .rti => True
      | _ => t.p.v = s.p.v) ∧
    (match i with
      | .adc _ | .sbc _ | .cmp _ | .cpx _ | .cpy _ | .asl _ | .lsr _ | .rol _ | .ror _ | .clc | .sec | .plp | .rti => True
      | _ => t.p.c = s.p.c) ∧
    (match i with
      | .txs | .pha | .php | .pla | .plp | .jsr _ | .rts | .brk | .rti => True
      | _ => t.sp = s.sp) ∧
    (match i with
      | .lda _ | .pla | .txa | .tya | .adc _ | .sbc _ | .and _ | .ora _ | .eor _ => True
      | .asl .acc | .lsr .acc | .rol .acc | .ror .acc => True
      | _ => t.a = s.a) ∧
    (match i with
      | .ldx _ | .tax | .tsx | .inx | .dex => True
      | _ => t.x = s.x) ∧
    (match i with
      | .ldy _ | .tay | .iny | .dey => True
      | _ => t.y = s.y)

/-! ## Wires, clock and harness -/

/-- The inputs of R248, by call and by wire: the IRQ level is followed, a 0 to 1 transition latches an NMI, a 1 on RESET queues
a reset; nothing else changes and no cycle runs. That `nmi_line` receives a level and the CPU finds the edge is decision D7, and
that RESET is an event, not a level, is D8 (log 16, DEDUCED). -/
def Obligations.InputsSetTheirLatches : Prop :=
  ∀ (v : Bool) (s : State) (onRise : State → Res State) (write : EndpointId → Signal → State → Res State) (e : EndpointId),
    let l := s.lines
    let irq := s.setLines { l with irqLevel := v }
    let nmi := s.setLines { l with nmiPending := l.nmiPending || (v && !l.nmiPrev), nmiPrev := v }
    irqLine v s = irq ∧ nmiLine v s = nmi ∧ resetCall s = s.setLines { l with resetPending := true } ∧
      deliverTo onRise write (.bit v) { endpoint := e, action := .cpu .irq } s = .next irq ∧
      deliverTo onRise write (.bit v) { endpoint := e, action := .cpu .nmi } s = .next nmi ∧
      deliverTo onRise write (.bit v) { endpoint := e, action := .cpu .reset } s =
        .next (s.setLines { l with resetPending := l.resetPending || v })

/-- A write of a wire, whatever its sinks: the wire keeps the value, every other wire stays, and each sink has its delivery, in
registration order, also where the value is the old one; a write made inside a delivery is a whole write, complete before the
next (R230, R232, R235). `connect` registers the sink last and delivers the value to it alone (R231). A delivery to a component
of the platform is its `on_value`, then the writes and the `stop` it makes, in their order (R230, R235, R247); one to the clock
input ticks on a rising edge (R246). Where the sinks are interrupt and reset inputs of the CPU only these latches and the
wire's value change. What those sinks do with the value is as decisions D7 and D8 say (R248), a delivery on connect is one like any
other by D27 (log 16, DEDUCED), and the refusal of a value of another width is D26 (log 14, DEDUCED). That a write of a wire
from inside its own delivery is refused is U6 (log 13); that the source may be the clock's own endpoint is log 22, and that a sink
whose endpoint is in use is connected all the same log 26 (DESIGN CHOICE); what a component may do is log 17 (DEDUCED). -/
def Obligations.WireWriteReachesEverySink : Prop :=
  ∀ (src : EndpointId) (v : Signal) (w : Wire) (s : State), s.fabric.wireOfSource src = some w →
    (∀ w' : Wire, w'.id = w.id →
      s.fabric.setWire w' = { s.fabric with wires := (s.fabric.setWire w').wires } ∧
        ∀ id, (s.fabric.setWire w').wire id = if id = w.id then some w' else s.fabric.wire id) ∧
    (w.id ∈ s.fabric.delivering → hostWrite src v s = .refused .wireReentry) ∧
    (w.id ∉ s.fabric.delivering → isWide v ≠ isWide w.value → hostWrite src v s = .refused .illTypedWrite) ∧
    (w.id ∉ s.fabric.delivering → isWide v = isWide w.value →
      hostWrite src v s =
        deliverInOrder tick (writeWire tick) w v w.sinks { s with fabric := s.fabric.setWire { w with value := v } }) ∧
    (∀ b, w.id ∉ s.fabric.delivering → isWide w.value = false →
      (∀ k ∈ w.sinks, k.action = .cpu .irq ∨ k.action = .cpu .nmi ∨ k.action = .cpu .reset) →
      hostWrite src (.bit b) s =
        .next
          { s with
            fabric := s.fabric.setWire { w with value := .bit b }
            lines :=
              w.sinks.foldl
                (fun l k =>
                  match k.action with
                  | .cpu .irq => l.irqLine b
                  | .cpu .nmi => l.nmiLine b
                  | .cpu .reset => l.resetLine b
                  | _ => l)
                s.lines }) ∧
    (∀ k : Sink, k.wide = isWide w.value →
      connect src k s =
        deliverInOrder tick (writeWire tick) w w.value [k]
          { s with fabric := s.fabric.setWire { w with sinks := w.sinks ++ [k] } }) ∧
    ∀ (onRise : State → Res State) (write : EndpointId → Signal → State → Res State) (e : EndpointId) (n : Nat) (b wide : Bool),
      deliverTo onRise write (.bit b) { endpoint := e, action := .cpu .clock } s =
        andThen (if b = true ∧ s.lines.clkPrev = false then onRise s else .next s) (fun t =>
          .next { t with lines := { t.lines with clkPrev := b } }) ∧
      deliverTo onRise write v { endpoint := e, action := .component n wide } s =
        (Config.onValue s.world n v).calls.foldl
          (fun r c =>
            andThen r fun t =>
              match c with
              | .stop => .next { t with fabric := { t.fabric with clock := { t.fabric.clock with running := false } } }
              | .writeWire e u => write e u t)
          (.next { s with world := (Config.onValue s.world n v).after })

/-- The clock's step: below the period the phase counts; at it the output toggles, the phase restarts and the output wire is
written (R241). That the comparison is `>=` is decision D24 (log 16, DEDUCED). The statement is over every state: where the
clock's source endpoint has been disconnected or bound to another wire, that the toggle goes on, and what it then writes, is the
model's choice (log 29, DESIGN CHOICE). -/
def Obligations.ClockStepTogglesAtThePeriod : Prop :=
  ∀ s : State,
    let c := s.fabric.clock
    let period := s.platform.periodSteps c.frequency
    0 < period →
    (c.phase + 1 < period → clockStep s = .next (s.setFabric { s.fabric with clock := { c with phase := c.phase + 1 } })) ∧
    (period ≤ c.phase + 1 →
      clockStep s =
        writeWire tick clockEndpoint (.bit !c.out)
          (s.setFabric { s.fabric with clock := { c with phase := 0, out := !c.out } }))

/-- One CPU cycle is one period of the clock: with the CPU the sink of the clock's wire, `2 * PERIOD_STEPS` harness steps from a
low output run exactly one tick (R241, R246, R247, R301). The period of a frequency that the platform does not list is 1, the
default of decision D11 (log 5). -/
def Obligations.OneClockPeriodIsOneCycle : Prop :=
  ∀ (s : State) (w : Wire) (e : EndpointId), (∀ a, s.noHandler a) → s.microWf = true → s.fabric.wf = true →
    s.fabric.delivering = [] → s.fabric.wireOfSource clockEndpoint = some w → w.value = .bit false →
    w.sinks = [{ endpoint := e, action := .cpu .clock }] → s.fabric.clock.out = false →
    s.fabric.clock.phase = 0 → s.lines.clkPrev = false → 0 < s.platform.periodSteps s.fabric.clock.frequency →
    ∃ t, tick s = .next t ∧
      happenAll (List.replicate (2 * s.platform.periodSteps s.fabric.clock.frequency) .computerStep) s =
        .next
          { t with
            fabric :=
              { s.fabric with tickCount := s.fabric.tickCount + 2 * s.platform.periodSteps s.fabric.clock.frequency } }

/-- Host calls that are rejected: a second source, a sink of another width and a write through an endpoint that is no source, as
R231, R232 and R234 say; and a connect through an endpoint that is no source, which no rule rejects by name and is log 14
(DEDUCED). None answers a state, so none changes one. -/
def Obligations.RejectedWireCalls : Prop :=
  ∀ (src : EndpointId) (id : WireId) (k : Sink) (v : Signal) (s : State),
    (∀ w, s.fabric.wire id = some w → w.source.isSome → bindSource id src s = .refused (.config .secondSource)) ∧
    (∀ w, s.fabric.wireOfSource src = some w → k.wide ≠ isWide w.value → connect src k s = .refused (.config .widthMismatch)) ∧
    (s.fabric.wireOfSource src = none →
      hostWrite src v s = .refused (.config .notASource) ∧ connect src k s = .refused (.config .notASource))
end

