-- ==== Sys2Proof/Laws/Bits.lean ====
section
/-! SUPPORT. The byte and address helpers of 00_scope R4: halves and words, the zero page, the carry into the page. -/

namespace Sys2Proof.Machine

theorem toNat_lo (w : Addr) : (lo w).toNat = w.toNat % 256 := by simp [lo]

theorem toNat_hi (w : Addr) : (hi w).toNat = w.toNat / 256 := by
  have := w.isLt
  simp only [hi, BitVec.toNat_setWidth, BitVec.toNat_ushiftRight, Nat.shiftRight_eq_div_pow]
  omega

/-- The offset of a branch, read as a signed number (R4, R84). -/
theorem sext16_eq (b : Byte) : sext16 b = b.signExtend 16 := by
  revert b
  decide

theorem toNat_zext16 (b : Byte) : (zext16 b).toNat = b.toNat := by
  have := b.isLt
  simp only [zext16, BitVec.toNat_setWidth]
  omega

theorem toNat_cat (h l : Byte) : (cat h l).toNat = h.toNat * 256 + l.toNat := by
  have hh := h.isLt
  have hl := l.isLt
  have e : ((h.setWidth 16 <<< 8) &&& l.setWidth 16 : Addr) = 0#16 := by
    apply BitVec.eq_of_getElem_eq
    intro i hi
    simp only [BitVec.getElem_and, BitVec.getElem_shiftLeft, BitVec.getElem_setWidth, BitVec.getElem_zero]
    by_cases h8 : i < 8
    · simp [h8]
    · have : l.getLsbD i = false := BitVec.getLsbD_of_ge _ _ (by omega)
      simp [this]
  have hsum : cat h l = (h.setWidth 16 <<< 8) + l.setWidth 16 := (BitVec.add_eq_or_of_and_eq_zero _ _ e).symm
  rw [hsum]
  simp only [BitVec.toNat_add, BitVec.toNat_shiftLeft, BitVec.toNat_setWidth, Nat.shiftLeft_eq]
  omega

/-- The halves of a word make it (R4). -/
@[simp] theorem cat_hi_lo (w : Addr) : cat (hi w) (lo w) = w := by
  apply BitVec.eq_of_toNat_eq
  rw [toNat_cat, toNat_hi, toNat_lo]
  omega

@[simp] theorem lo_cat (h l : Byte) : lo (cat h l) = l := by
  apply BitVec.eq_of_toNat_eq
  have := l.isLt
  rw [toNat_lo, toNat_cat]
  omega

@[simp] theorem hi_cat (h l : Byte) : hi (cat h l) = h := by
  apply BitVec.eq_of_toNat_eq
  have := l.isLt
  rw [toNat_hi, toNat_cat]
  omega

@[simp] theorem lo_zeroPage (z : Byte) : lo (zeroPage z) = z := by
  apply BitVec.eq_of_toNat_eq
  have := z.isLt
  rw [toNat_lo, zeroPage, toNat_zext16]
  omega

theorem carries_iff (b i : Byte) : carries b i = true ↔ 256 ≤ b.toNat + i.toNat := by simp [carries]

/-- With a carry out of the low byte the corrected page gives the indexed address (R79, R205). -/
theorem cat_carry {w : Addr} {i : Byte} (h : 256 ≤ (lo w).toNat + i.toNat) : cat (hi w + 1) (lo w + i) = indexed w i := by
  apply BitVec.eq_of_toNat_eq
  have hw := w.isLt
  have hi' := i.isLt
  rw [toNat_lo] at h
  rw [toNat_cat, indexed, BitVec.toNat_add, BitVec.toNat_add, BitVec.toNat_add, toNat_hi, toNat_lo, toNat_zext16]
  have h1 : (1 : Byte).toNat = 1 := rfl
  omega

/-- Without one the indexed address needs no correction. -/
theorem uncorrected_eq {w : Addr} {i : Byte} (h : (lo w).toNat + i.toNat < 256) : uncorrected w i = indexed w i := by
  apply BitVec.eq_of_toNat_eq
  have hw := w.isLt
  rw [toNat_lo] at h
  rw [uncorrected, toNat_cat, indexed, BitVec.toNat_add, BitVec.toNat_add, toNat_hi, toNat_lo, toNat_zext16]
  omega

/-- The stack location of `SP` in numbers (R58). -/
theorem toNat_stackAddr (sp : Byte) : (stackAddr sp).toNat = 256 + sp.toNat := by
  have h : stackAddr sp = cat 1#8 sp := by
    apply BitVec.eq_of_getElem_eq
    intro i hi
    simp only [stackAddr, zext16, cat, BitVec.getElem_or, BitVec.getElem_setWidth]
    congr 1
  rw [h, toNat_cat]
  rfl

/-- Different values of `SP` designate different locations. -/
theorem stackAddr_inj {a b : Byte} : stackAddr a = stackAddr b ↔ a = b := by
  refine ⟨fun h => ?_, fun h => h ▸ rfl⟩
  apply BitVec.eq_of_toNat_eq
  have := congrArg BitVec.toNat h
  rw [toNat_stackAddr, toNat_stackAddr] at this
  omega

theorem sub_one_ne (a : Byte) : a - 1 ≠ a := by
  intro h
  have := congrArg BitVec.toNat h
  rw [BitVec.toNat_sub] at this
  have ha := a.isLt
  have h1 : (1 : Byte).toNat = 1 := rfl
  omega

theorem sub_two_ne (a : Byte) : a - 2 ≠ a := by
  intro h
  have := congrArg BitVec.toNat h
  rw [BitVec.toNat_sub] at this
  have ha := a.isLt
  have h1 : (2 : Byte).toNat = 2 := rfl
  omega

theorem sub_sub_byte (a : Byte) : a - 1 - 1 = a - 2 := by
  rw [BitVec.sub_sub]
  rfl

end Sys2Proof.Machine
end

