-- ==== Sys2Proof/Laws/Memory.lean ====
section
/-! SUPPORT. The Memory's laws: what each operation reads back as (R45 to R49, R60), and that each keeps the canonical form
`Memory.wf`. -/

namespace Sys2Proof.Machine

/-! ## Storage -/

theorem cellsWf_mono {f g n : Nat} {cs : List Host.Cell} (h : cellsWf f n cs = true) (hg : g ≤ f) :
    cellsWf g n cs = true := by
  cases cs with
  | nil => rfl
  | cons c cs =>
    simp only [cellsWf, Bool.and_eq_true, decide_eq_true_eq] at h ⊢
    exact ⟨⟨⟨by omega, h.1.1.2⟩, h.1.2⟩, h.2⟩

/-- An offset below every listed one reads as the blank byte. -/
theorem cellsGet_below {f n k : Nat} {cs : List Host.Cell} (h : cellsWf f n cs = true) (hk : k < f) :
    cellsGet k cs = Config.blankByte := by
  induction cs generalizing f with
  | nil => rfl
  | cons c cs ih =>
    simp only [cellsWf, Bool.and_eq_true, decide_eq_true_eq] at h
    rw [cellsGet, if_neg (by omega)]
    exact ih h.2 (by omega)

theorem cellsGet_cons {f n j k : Nat} {v : Byte} {cs : List Host.Cell} (h : cellsWf f n cs = true) (hk : k < f) :
    cellsGet j (cellsCons k v cs) = if j = k then v else cellsGet j cs := by
  unfold cellsCons
  split
  · next hv =>
    split
    · next hj => rw [hj, cellsGet_below h hk, hv]
    · rfl
  · simp only [cellsGet, eq_comm]

/-- Storage reads back what was written, and every other offset as before. -/
theorem cellsGet_put {f n j k : Nat} {v : Byte} {cs : List Host.Cell} (h : cellsWf f n cs = true) :
    cellsGet j (cellsPut k v cs) = if j = k then v else cellsGet j cs := by
  induction cs generalizing f with
  | nil => exact cellsGet_cons (f := k + 1) (n := n) rfl (by omega)
  | cons c cs ih =>
    have hc := h
    simp only [cellsWf, Bool.and_eq_true, decide_eq_true_eq] at hc
    simp only [cellsPut]
    split
    · next hlt =>
      simp only [cellsGet, ih hc.2]
      split
      · next hj => rw [if_neg (by omega)]
      · rfl
    · split
      · next heq =>
        rw [cellsGet_cons hc.2 (by omega)]
        split
        · rfl
        · next hj => rw [cellsGet, if_neg (by omega)]
      · next hne =>
        exact cellsGet_cons (f := c.1) (n := n) (by simp [cellsWf, hc.1.1.2, hc.1.2, hc.2]) (by omega)

theorem cellsCons_wf {f n k : Nat} {v : Byte} {cs : List Host.Cell} (h : cellsWf (k + 1) n cs = true) (hf : f ≤ k)
    (hk : k < n) : cellsWf f n (cellsCons k v cs) = true := by
  unfold cellsCons
  split
  · exact cellsWf_mono h (by omega)
  · next hv => simp [cellsWf, hf, hk, hv, h]

/-- A write keeps storage canonical. -/
theorem cellsPut_wf {f n k : Nat} {v : Byte} {cs : List Host.Cell} (h : cellsWf f n cs = true) (hf : f ≤ k) (hk : k < n) :
    cellsWf f n (cellsPut k v cs) = true := by
  induction cs generalizing f with
  | nil => exact cellsCons_wf rfl hf hk
  | cons c cs ih =>
    have hc := h
    simp only [cellsWf, Bool.and_eq_true, decide_eq_true_eq] at hc
    simp only [cellsPut]
    split
    · next hlt =>
      simp [cellsWf, hc.1.1.1, hc.1.1.2, hc.1.2, ih hc.2 (by omega)]
    · split
      · next heq => exact cellsCons_wf (by rw [← heq]; exact hc.2) hf hk
      · next hne =>
        exact cellsCons_wf (by simp only [cellsWf, Bool.and_eq_true, decide_eq_true_eq]; exact ⟨⟨⟨by omega, hc.1.1.2⟩, hc.1.2⟩, hc.2⟩) hf hk

/-! ## The active map -/

/-- The id at an address of a map. -/
def idAt (a : Nat) (segs : List Segment) : Option BankId :=
  (segs.find? (fun s => decide (s.lo ≤ a) && decide (a ≤ s.hi))).map Segment.id

theorem resolve_eq_idAt (m : Memory) (a : Addr) : m.resolve a = idAt a.toNat m.active := rfl

@[simp] theorem idAt_nil (a : Nat) : idAt a [] = none := rfl

theorem idAt_cons (a : Nat) (s : Segment) (ss : List Segment) :
    idAt a (s :: ss) = if s.lo ≤ a ∧ a ≤ s.hi then some s.id else idAt a ss := by
  simp only [idAt, List.find?_cons]
  by_cases h : s.lo ≤ a ∧ a ≤ s.hi
  · simp [h]
  · rw [if_neg h]
    have : (decide (s.lo ≤ a) && decide (a ≤ s.hi)) = false := by simpa using h
    simp [this]

theorem idAt_append (a : Nat) (xs ys : List Segment) : idAt a (xs ++ ys) = (idAt a xs).or (idAt a ys) := by
  induction xs with
  | nil => simp
  | cons x xs ih =>
    rw [List.cons_append, idAt_cons, idAt_cons]
    split
    · simp
    · exact ih

theorem filterMap_below (lo : Nat) (s : Segment) (ss : List Segment) :
    (s :: ss).filterMap (Segment.below lo) =
      if s.lo < lo then { s with hi := min s.hi (lo - 1) } :: ss.filterMap (Segment.below lo)
      else ss.filterMap (Segment.below lo) := by
  by_cases h : s.lo < lo <;> simp [Segment.below, h]

theorem filterMap_above (hi : Nat) (s : Segment) (ss : List Segment) :
    (s :: ss).filterMap (Segment.above hi) =
      if hi < s.hi then { s with lo := max s.lo (hi + 1) } :: ss.filterMap (Segment.above hi)
      else ss.filterMap (Segment.above hi) := by
  by_cases h : hi < s.hi <;> simp [Segment.above, h]

theorem idAt_below (a lo : Nat) (segs : List Segment) :
    idAt a (segs.filterMap (Segment.below lo)) = if a < lo then idAt a segs else none := by
  induction segs with
  | nil => simp
  | cons s ss ih =>
    rw [filterMap_below, idAt_cons]
    by_cases hlo : s.lo < lo
    · rw [if_pos hlo, idAt_cons, ih]
      dsimp only
      split_ifs <;> first | rfl | omega
    · rw [if_neg hlo, ih]
      split_ifs <;> first | rfl | omega

theorem idAt_above (a hi : Nat) (segs : List Segment) :
    idAt a (segs.filterMap (Segment.above hi)) = if hi < a then idAt a segs else none := by
  induction segs with
  | nil => simp
  | cons s ss ih =>
    rw [filterMap_above, idAt_cons]
    by_cases hhi : hi < s.hi
    · rw [if_pos hhi, idAt_cons, ih]
      dsimp only
      split_ifs <;> first | rfl | omega
    · rw [if_neg hhi, ih]
      split_ifs <;> first | rfl | omega

/-- Stretches in rising order from `f`, each not empty and inside a bank of its id; neighbours need not be joined. -/
def Rising (banks : List Bank) : Nat → List Segment → Prop
  | _, [] => True
  | f, s :: ss =>
    f ≤ s.lo ∧ s.lo ≤ s.hi ∧ s.hi < 65536 ∧ (∃ b ∈ banks, b.id = s.id ∧ b.lo.toNat ≤ s.lo ∧ s.hi ≤ b.hi.toNat) ∧
      Rising banks (s.hi + 1) ss

theorem Rising.mono {banks : List Bank} {f g : Nat} {ss : List Segment} (h : Rising banks f ss) (hg : g ≤ f) :
    Rising banks g ss := by
  cases ss with
  | nil => trivial
  | cons s ss => exact ⟨by have := h.1; omega, h.2⟩

theorem activeWf_cons {banks : List Bank} {f : Nat} {prev : Option BankId} {s : Segment} {ss : List Segment} :
    activeWf banks f prev (s :: ss) = true ↔
      f ≤ s.lo ∧ s.lo ≤ s.hi ∧ s.hi < 65536 ∧ ¬(s.lo = f ∧ prev = some s.id) ∧
        (∃ b ∈ banks, b.id = s.id ∧ b.lo.toNat ≤ s.lo ∧ s.hi ≤ b.hi.toNat) ∧ activeWf banks (s.hi + 1) (some s.id) ss = true := by
  simp only [activeWf, Bool.and_eq_true, decide_eq_true_eq, Bool.not_eq_true', Bool.and_eq_false_iff,
    decide_eq_false_iff_not, List.any_eq_true, and_assoc, not_and_or]

theorem activeWf_rising {banks : List Bank} {f : Nat} {prev : Option BankId} {ss : List Segment}
    (h : activeWf banks f prev ss = true) : Rising banks f ss := by
  induction ss generalizing f prev with
  | nil => trivial
  | cons s ss ih =>
    obtain ⟨h1, h2, h3, -, h5, h6⟩ := activeWf_cons.1 h
    exact ⟨h1, h2, h3, h5, ih h6⟩

/-- The ids of a well-formed map are installed. -/
theorem Rising.bank_of_idAt {banks : List Bank} {f a : Nat} {ss : List Segment} {id : BankId} (h : Rising banks f ss)
    (ha : idAt a ss = some id) : ∃ b ∈ banks, b.id = id ∧ b.lo.toNat ≤ a ∧ a ≤ b.hi.toNat := by
  induction ss generalizing f with
  | nil => simp at ha
  | cons s ss ih =>
    rw [idAt_cons] at ha
    split at ha
    · next hc =>
      cases ha
      obtain ⟨b, hb, hid, h1, h2⟩ := h.2.2.2.1
      exact ⟨b, hb, hid, by omega, by omega⟩
    · exact ih h.2.2.2.2 ha

theorem idAt_joinSegment {banks : List Bank} {f : Nat} (a : Nat) {s : Segment} {ss : List Segment} (hs : s.lo ≤ s.hi)
    (h : Rising banks f ss) : idAt a (joinSegment s ss) = if s.lo ≤ a ∧ a ≤ s.hi then some s.id else idAt a ss := by
  cases ss with
  | nil => simp [joinSegment, idAt_cons]
  | cons t ts =>
    simp only [joinSegment]
    split
    · next hj =>
      have ht := h.2.1
      rw [idAt_cons, idAt_cons, ← hj.2]
      simp only
      split_ifs <;> first | rfl | omega
    · rw [idAt_cons]

theorem banks_same_id {banks : List Bank} (hn : (banks.map Bank.id).Nodup) {b c : Bank} (hb : b ∈ banks) (hc : c ∈ banks)
    (h : b.id = c.id) : b = c := by
  induction banks with
  | nil => cases hb
  | cons d ds ih =>
    simp only [List.map_cons, List.nodup_cons, List.mem_map, not_exists, not_and] at hn
    rcases List.mem_cons.1 hb with hb' | hb' <;> rcases List.mem_cons.1 hc with hc' | hc'
    · rw [hb', hc']
    · exact absurd (by rw [← h, hb']) (hn.1 c hc')
    · exact absurd (by rw [h, hc']) (hn.1 b hb')
    · exact ih hn.2 hb' hc'

/-- Joining a rising list gives a canonical map that starts where the list does. -/
theorem join_wf {banks : List Bank} (hn : (banks.map Bank.id).Nodup) {f : Nat} {ss : List Segment} (h : Rising banks f ss) :
    activeWf banks f none (ss.foldr joinSegment []) = true := by
  induction ss generalizing f with
  | nil => rfl
  | cons s ss ih =>
    obtain ⟨h1, h2, h3, ⟨b, hb, hid, hl, hh⟩, h5⟩ := h
    have hr := ih h5
    rw [List.foldr_cons]
    generalize ss.foldr joinSegment [] = r at hr
    cases r with
    | nil => exact activeWf_cons.2 ⟨h1, h2, h3, by simp, ⟨b, hb, hid, hl, hh⟩, rfl⟩
    | cons t ts =>
      obtain ⟨g1, g2, g3, -, ⟨c, hc, hcid, hcl, hch⟩, g6⟩ := activeWf_cons.1 hr
      simp only [joinSegment]
      split
      · next hj =>
        have hbc : b = c := banks_same_id hn hb hc (by rw [hid, hcid, hj.2])
        subst hbc
        exact activeWf_cons.2 ⟨h1, by simp only; omega, g3, by simp, ⟨b, hb, hid, hl, hch⟩, by simpa [hj.2] using g6⟩
      · next hj =>
        refine activeWf_cons.2 ⟨h1, h2, h3, by simp, ⟨b, hb, hid, hl, hh⟩, activeWf_cons.2 ⟨g1, g2, g3, ?_, ⟨c, hc, hcid, hcl, hch⟩, g6⟩⟩
        rintro ⟨e1, e2⟩
        exact hj ⟨e1.symm, Option.some.inj e2⟩

theorem idAt_join {banks : List Bank} (a : Nat) {f : Nat} {ss : List Segment} (hn : (banks.map Bank.id).Nodup)
    (h : Rising banks f ss) : idAt a (ss.foldr joinSegment []) = idAt a ss := by
  induction ss generalizing f with
  | nil => rfl
  | cons s ss ih =>
    rw [List.foldr_cons, idAt_joinSegment a h.2.1 (activeWf_rising (join_wf hn h.2.2.2.2)), ih h.2.2.2.2, idAt_cons]

theorem rising_append {banks : List Bank} {f g : Nat} {xs ys : List Segment} (hx : Rising banks f xs)
    (hlt : ∀ s ∈ xs, s.hi < g) (hy : Rising banks g ys) (hfg : f ≤ g) : Rising banks f (xs ++ ys) := by
  induction xs generalizing f with
  | nil => exact hy.mono hfg
  | cons x xs ih =>
    have hxg := hlt x (by simp)
    exact ⟨hx.1, hx.2.1, hx.2.2.1, hx.2.2.2.1, ih hx.2.2.2.2 (fun s hs => hlt s (by simp [hs])) (by omega)⟩

theorem rising_below {banks : List Bank} {f lo : Nat} {ss : List Segment} (h : Rising banks f ss) :
    Rising banks f (ss.filterMap (Segment.below lo)) := by
  induction ss generalizing f with
  | nil => trivial
  | cons s ss ih =>
    obtain ⟨h1, h2, h3, ⟨b, hb, hid, hl, hh⟩, h5⟩ := h
    rw [filterMap_below]
    split
    · exact ⟨h1, by dsimp only; omega, by dsimp only; omega, ⟨b, hb, hid, hl, by dsimp only; omega⟩,
        (ih h5).mono (by dsimp only; omega)⟩
    · exact (ih h5).mono (by omega)

theorem below_lt {lo : Nat} {ss : List Segment} : ∀ s ∈ ss.filterMap (Segment.below lo), s.hi < lo := by
  intro s hs
  obtain ⟨t, -, ht⟩ := List.mem_filterMap.1 hs
  unfold Segment.below at ht
  split at ht
  · cases ht
    simp only
    omega
  · cases ht

theorem rising_above {banks : List Bank} {f hi : Nat} {ss : List Segment} (h : Rising banks f ss) :
    Rising banks (max f (hi + 1)) (ss.filterMap (Segment.above hi)) := by
  induction ss generalizing f with
  | nil => trivial
  | cons s ss ih =>
    obtain ⟨h1, h2, h3, ⟨b, hb, hid, hl, hh⟩, h5⟩ := h
    rw [filterMap_above]
    split
    · exact ⟨by dsimp only; omega, by dsimp only; omega, h3, ⟨b, hb, hid, by dsimp only; omega, hh⟩, (ih h5).mono (by dsimp only; omega)⟩
    · exact (ih h5).mono (by omega)

theorem rising_assign {banks : List Bank} {ss : List Segment} {lo hi : Nat} {b : Bank} (h : Rising banks 0 ss)
    (hb : b ∈ banks) (hlh : lo ≤ hi) (hl : b.lo.toNat ≤ lo) (hh : hi ≤ b.hi.toNat) :
    Rising banks 0 (ss.filterMap (Segment.below lo) ++ { lo := lo, hi := hi, id := b.id } :: ss.filterMap (Segment.above hi)) := by
  have hb16 := b.hi.isLt
  refine rising_append (rising_below h) below_lt (g := lo) ⟨le_refl _, hlh, by simp only; omega, ⟨b, hb, rfl, hl, hh⟩, ?_⟩ (by omega)
  exact (rising_above h).mono (by simp only; omega)

/-- What the map answers after `for a in lo .. hi: active[a] <- id` (R48, R49). -/
theorem idAt_assignActive {banks : List Bank} (hn : (banks.map Bank.id).Nodup) {ss : List Segment} {lo hi : Nat} {b : Bank}
    (h : Rising banks 0 ss) (hb : b ∈ banks) (hlh : lo ≤ hi) (hl : b.lo.toNat ≤ lo) (hh : hi ≤ b.hi.toNat) (a : Nat) :
    idAt a (assignActive lo hi b.id ss) = if lo ≤ a ∧ a ≤ hi then some b.id else idAt a ss := by
  unfold assignActive
  rw [idAt_join a hn (rising_assign h hb hlh hl hh), idAt_append, idAt_below, idAt_cons, idAt_above]
  simp only
  by_cases h1 : a < lo
  · have h2 : ¬(lo ≤ a ∧ a ≤ hi) := by omega
    have h3 : ¬hi < a := by omega
    simp [h1, h2, h3]
  · by_cases h2 : a ≤ hi
    · have h3 : lo ≤ a ∧ a ≤ hi := by omega
      simp [h1, h3]
    · have h3 : ¬(lo ≤ a ∧ a ≤ hi) := by omega
      have h4 : hi < a := by omega
      simp [h1, h3, h4]

/-- The assignment keeps the map canonical. -/
theorem assignActive_wf {banks : List Bank} (hn : (banks.map Bank.id).Nodup) {ss : List Segment} {lo hi : Nat} {b : Bank}
    (h : Rising banks 0 ss) (hb : b ∈ banks) (hlh : lo ≤ hi) (hl : b.lo.toNat ≤ lo) (hh : hi ≤ b.hi.toNat) :
    activeWf banks 0 none (assignActive lo hi b.id ss) = true :=
  join_wf hn (rising_assign h hb hlh hl hh)

/-! ## The Memory as a whole -/

theorem Memory.wf_iff (m : Memory) :
    m.wf = true ↔ (∀ b ∈ m.banks, b.wf = true) ∧ (m.banks.map Bank.id).Nodup ∧ activeWf m.banks 0 none m.active = true := by
  simp [Memory.wf, and_assoc]

theorem Memory.bank_mem {m : Memory} {id : BankId} {b : Bank} (h : m.bank id = some b) : b ∈ m.banks ∧ b.id = id := by
  unfold Memory.bank at h
  exact ⟨List.mem_of_find?_eq_some h, by simpa using List.find?_some h⟩

theorem Memory.bank_of_mem {m : Memory} (hn : (m.banks.map Bank.id).Nodup) {b : Bank} (hb : b ∈ m.banks) :
    m.bank b.id = some b := by
  unfold Memory.bank
  cases h : m.banks.find? (fun c => c.id == b.id) with
  | none => exact absurd (List.find?_eq_none.1 h b hb) (by simp)
  | some c =>
    have hc := List.mem_of_find?_eq_some h
    have hid : c.id = b.id := by simpa using List.find?_some h
    rw [banks_same_id hn hc hb hid]

/-- The bank active at an address is installed and covers it (R25 a). -/
theorem Memory.bankAt_covers {m : Memory} (hm : m.wf = true) {a : Addr} {b : Bank} (h : m.bankAt a = some b) :
    b ∈ m.banks ∧ b.lo.toNat ≤ a.toNat ∧ a.toNat ≤ b.hi.toNat := by
  obtain ⟨hw, hn, hact⟩ := (Memory.wf_iff m).1 hm
  unfold Memory.bankAt at h
  obtain ⟨id, hid, hb⟩ := Option.bind_eq_some_iff.1 h
  obtain ⟨hmem, hbid⟩ := Memory.bank_mem hb
  obtain ⟨c, hc, hcid, h1, h2⟩ := (activeWf_rising hact).bank_of_idAt hid
  have : b = c := banks_same_id hn hmem hc (by rw [hbid, hcid])
  subst this
  exact ⟨hmem, h1, h2⟩

theorem activeWf_congr {banks banks' : List Bank} {f : Nat} {prev : Option BankId} {ss : List Segment}
    (hb : ∀ b ∈ banks, ∃ c ∈ banks', c.id = b.id ∧ c.lo = b.lo ∧ c.hi = b.hi) (h : activeWf banks f prev ss = true) :
    activeWf banks' f prev ss = true := by
  induction ss generalizing f prev with
  | nil => rfl
  | cons s ss ih =>
    obtain ⟨h1, h2, h3, h4, ⟨b, hbm, hid, hl, hh⟩, h6⟩ := activeWf_cons.1 h
    obtain ⟨c, hc, e1, e2, e3⟩ := hb b hbm
    exact activeWf_cons.2 ⟨h1, h2, h3, h4, ⟨c, hc, by rw [e1, hid], by rw [e2]; exact hl, by rw [e3]; exact hh⟩, ih h6⟩

@[simp] theorem Memory.setBank_active (m : Memory) (b : Bank) : (m.setBank b).active = m.active := rfl

@[simp] theorem Memory.resolve_setBank (m : Memory) (b : Bank) (a : Addr) : (m.setBank b).resolve a = m.resolve a := rfl

theorem Memory.map_id_setBank (m : Memory) (b : Bank) : (m.setBank b).banks.map Bank.id = m.banks.map Bank.id := by
  unfold Memory.setBank
  simp only [List.map_map]
  apply List.map_congr_left
  intro c _
  simp only [Function.comp]
  split
  · next h => exact h.symm
  · rfl

/-- The banks after a change of one bank's storage. -/
theorem Memory.bank_setBank {m : Memory} {b : Bank} (hb : ∃ c ∈ m.banks, c.id = b.id) (id : BankId) :
    (m.setBank b).bank id = if id = b.id then some b else m.bank id := by
  unfold Memory.bank Memory.setBank
  rw [List.find?_map]
  have hf : ((fun c : Bank => c.id == id) ∘ fun c => if c.id = b.id then b else c) = fun c => c.id == id := by
    funext c
    simp only [Function.comp]
    split
    · next h => rw [h]
    · rfl
  rw [hf]
  split
  · next hid =>
    subst hid
    obtain ⟨c, hc, hcid⟩ := hb
    cases h : m.banks.find? (fun c => c.id == b.id) with
    | none => exact absurd (List.find?_eq_none.1 h c hc) (by simp [hcid])
    | some d =>
      have hd : d.id = b.id := by simpa using List.find?_some h
      simp [hd]
  · next hid =>
    cases h : m.banks.find? (fun c => c.id == id) with
    | none => rfl
    | some d =>
      have hd : d.id = id := by simpa using List.find?_some h
      simp [hd, hid]

theorem Bank.size_lt {b : Bank} {a : Addr} (hl : b.lo.toNat ≤ a.toNat) (hh : a.toNat ≤ b.hi.toNat) :
    a.toNat - b.lo.toNat < b.size := by
  unfold Bank.size
  omega

theorem Bank.wf_storage {b : Bank} (h : b.wf = true) (hk : b.kind ≠ .handler) : cellsWf 0 b.size b.cells = true := by
  unfold Bank.wf at h
  cases hkind : b.kind <;> simp_all

theorem Bank.put_wf {b : Bank} {a : Addr} {v : Byte} (h : b.wf = true) (hk : b.kind ≠ .handler)
    (hl : b.lo.toNat ≤ a.toNat) (hh : a.toNat ≤ b.hi.toNat) : (b.put a v).wf = true := by
  have hc := cellsPut_wf (v := v) (Bank.wf_storage h hk) (Nat.zero_le _) (Bank.size_lt hl hh)
  simp only [Bank.wf, Bank.size, Bank.put, Bool.and_eq_true] at h hc ⊢
  cases hkind : b.kind with
  | handler => exact absurd hkind hk
  | ram | rom =>
    simp only [hkind, Bool.and_eq_true] at h ⊢
    exact ⟨h.1, h.2.1, hc⟩

/-- Changing the storage of an installed bank keeps the Memory canonical. -/
theorem Memory.setBank_put_wf {m : Memory} (hm : m.wf = true) {a : Addr} {v : Byte} {b : Bank} (h : m.bankAt a = some b)
    (hk : b.kind ≠ .handler) : (m.setBank (b.put a v)).wf = true := by
  obtain ⟨hb, hl, hh⟩ := Memory.bankAt_covers hm h
  obtain ⟨hw, hn, hact⟩ := (Memory.wf_iff m).1 hm
  refine (Memory.wf_iff _).2 ⟨?_, by rw [Memory.map_id_setBank]; exact hn, ?_⟩
  · intro c hc
    obtain ⟨d, hd, rfl⟩ := List.mem_map.1 hc
    split
    · exact Bank.put_wf (hw b hb) hk hl hh
    · exact hw d hd
  · refine activeWf_congr ?_ hact
    intro c hc
    refine ⟨_, List.mem_map_of_mem hc, ?_⟩
    split
    · next he =>
      have : c = b := banks_same_id hn hc hb he
      subst this
      exact ⟨rfl, rfl, rfl⟩
    · exact ⟨rfl, rfl, rfl⟩

/-- A write keeps the Memory canonical (R47). -/
theorem Memory.poke_wf {m : Memory} (hm : m.wf = true) (a : Addr) (v : Byte) : (m.poke a v).wf = true := by
  unfold Memory.poke
  cases h : m.bankAt a with
  | none => exact hm
  | some b =>
    cases hk : b.kind with
    | ram => simpa [hk] using Memory.setBank_put_wf hm h (by simp [hk])
    | rom => simpa [hk] using hm
    | handler => simpa [hk] using hm

/-- A host load keeps the Memory canonical (R60). -/
theorem Memory.loadByte_wf {m m' : Memory} (hm : m.wf = true) {a : Addr} {v : Byte} (h : m.loadByte a v = some m') :
    m'.wf = true := by
  unfold Memory.loadByte at h
  cases hb : m.bankAt a with
  | none => simp [hb] at h
  | some b =>
    cases hk : b.kind with
    | ram =>
      simp only [hb, hk, Option.some.injEq] at h
      exact h ▸ Memory.setBank_put_wf hm hb (by simp [hk])
    | rom =>
      simp only [hb, hk, Option.some.injEq] at h
      exact h ▸ Memory.setBank_put_wf hm hb (by simp [hk])
    | handler => simp [hb, hk] at h

theorem Memory.loadBytes_wf {m m' : Memory} (hm : m.wf = true) {a : Addr} {vs : List Byte}
    (h : m.loadBytes a vs = some m') : m'.wf = true := by
  induction vs generalizing m a with
  | nil => exact Option.some.inj h ▸ hm
  | cons v vs ih =>
    obtain ⟨m1, h1, h2⟩ := Option.bind_eq_some_iff.1 h
    exact ih (Memory.loadByte_wf hm h1) h2

/-- `install_bank` keeps the Memory canonical (R48). -/
theorem Memory.install_wf {m m' : Memory} (hm : m.wf = true) {b : Bank} (h : m.install b = some m') : m'.wf = true := by
  obtain ⟨hw, hn, hact⟩ := (Memory.wf_iff m).1 hm
  unfold Memory.install at h
  split at h
  · next hc =>
    cases h
    simp only [Bool.and_eq_true, Bool.not_eq_true', List.any_eq_false, beq_iff_eq] at hc
    have hn' : ((m.banks ++ [b]).map Bank.id).Nodup := by
      rw [List.map_append, List.nodup_append]
      refine ⟨hn, by simp, ?_⟩
      intro i hi j hj
      obtain ⟨c, hcm, rfl⟩ := List.mem_map.1 hi
      simp only [List.map_cons, List.map_nil, List.mem_singleton] at hj
      subst hj
      exact hc.2 c hcm
    have hlh : b.lo.toNat ≤ b.hi.toNat := by
      have := hc.1
      unfold Bank.wf at this
      simp only [Bool.and_eq_true, decide_eq_true_eq] at this
      exact this.1
    refine (Memory.wf_iff _).2 ⟨?_, hn', ?_⟩
    · intro c hcm
      rcases List.mem_append.1 hcm with hcm | hcm
      · exact hw c hcm
      · rw [List.mem_singleton.1 hcm]
        exact hc.1
    · refine assignActive_wf hn' (activeWf_rising (activeWf_congr ?_ hact)) (b := b) (by simp) hlh (le_refl _) (le_refl _)
      intro c hcm
      exact ⟨c, by simp [hcm], rfl, rfl, rfl⟩
  · cases h

/-- `switch` keeps the Memory canonical (R49). -/
theorem Memory.switch_wf {m m' : Memory} (hm : m.wf = true) {lo hi : Addr} {id : BankId} (h : m.switch lo hi id = some m') :
    m'.wf = true := by
  obtain ⟨hw, hn, hact⟩ := (Memory.wf_iff m).1 hm
  unfold Memory.switch at h
  split at h
  · cases h
  · next b hb =>
    split at h
    · next hc =>
      cases h
      simp only [Bool.and_eq_true, decide_eq_true_eq] at hc
      obtain ⟨hbm, hbid⟩ := Memory.bank_mem hb
      refine (Memory.wf_iff _).2 ⟨hw, hn, ?_⟩
      rw [← hbid]
      exact assignActive_wf hn (activeWf_rising hact) hbm hc.1.1 hc.1.2 hc.2
    · cases h

/-- Which bank is active at an address after a `switch` within its preconditions (R49). -/
theorem Memory.bankAt_switch {m : Memory} (hm : m.wf = true) {lo hi : Addr} {id : BankId} {b : Bank} (hb : m.bank id = some b)
    (h1 : lo.toNat ≤ hi.toNat) (h2 : b.lo.toNat ≤ lo.toNat) (h3 : hi.toNat ≤ b.hi.toNat) :
    ∃ m', m.switch lo hi id = some m' ∧ m'.banks = m.banks ∧
      ∀ a : Addr, m'.bankAt a = if lo.toNat ≤ a.toNat ∧ a.toNat ≤ hi.toNat then some b else m.bankAt a := by
  obtain ⟨-, hn, hact⟩ := (Memory.wf_iff m).1 hm
  obtain ⟨hbm, hbid⟩ := Memory.bank_mem hb
  refine ⟨{ m with active := assignActive lo.toNat hi.toNat id m.active }, by simp [Memory.switch, hb, h1, h2, h3], rfl, fun a => ?_⟩
  have active (m : Memory) : m.bankAt a = (idAt a.toNat m.active).bind m.bank := rfl
  rw [active, active, ← hbid]
  dsimp only
  rw [idAt_assignActive hn (activeWf_rising hact) hbm h1 h2 h3]
  split
  · rw [Option.bind_some, hbid]
    exact hb
  · rfl

/-! ## Reading after writing -/

theorem Memory.bankAt_poke {m : Memory} {a : Addr} {b : Bank} (ha : m.bankAt a = some b) (hk : b.kind = .ram) (v : Byte)
    (a' : Addr) :
    (m.poke a v).bankAt a' = (m.bankAt a').map fun c => if c.id = b.id then b.put a v else c := by
  have hb : m.poke a v = m.setBank (b.put a v) := by simp [Memory.poke, ha, hk]
  have hex : ∃ c ∈ m.banks, c.id = (b.put a v).id := by
    unfold Memory.bankAt at ha
    obtain ⟨id, -, h2⟩ := Option.bind_eq_some_iff.1 ha
    exact ⟨b, (Memory.bank_mem h2).1, rfl⟩
  rw [hb]
  unfold Memory.bankAt
  rw [Memory.resolve_setBank]
  cases m.resolve a' with
  | none => rfl
  | some id =>
    simp only [Option.bind_some]
    rw [Memory.bank_setBank hex]
    cases hid : m.bank id with
    | none =>
      obtain ⟨c, hc, hce⟩ := hex
      have hne : id ≠ (b.put a v).id := by
        rintro rfl
        have hn := List.find?_eq_none.1 hid c hc
        simp [hce] at hn
      simp [hne]
    | some c =>
      have hc := (Memory.bank_mem hid).2
      simp only [Option.map_some]
      by_cases h : id = b.id
      · rw [if_pos (show id = (b.put a v).id from h), if_pos (by rw [hc, h])]
      · rw [if_neg (show id ≠ (b.put a v).id from h), if_neg (by rw [hc]; exact h)]

/-- A read after a write to RAM at the same address gives the byte written (R54). -/
theorem Memory.peek_poke_same {m : Memory} (hm : m.wf = true) {a : Addr} {b : Bank} (ha : m.bankAt a = some b)
    (hk : b.kind = .ram) (v : Byte) : (m.poke a v).peek a = some v := by
  obtain ⟨hb, -, -⟩ := Memory.bankAt_covers hm ha
  have hs := Bank.wf_storage (((Memory.wf_iff m).1 hm).1 b hb) (by simp [hk])
  unfold Memory.peek
  rw [Memory.bankAt_poke ha hk, ha]
  simp only [Option.map_some, if_true, Bank.put, hk, Bank.byteAt]
  rw [cellsGet_put hs, if_pos rfl]

/-- A write leaves every other address as it was (R54). -/
theorem Memory.peek_poke_other {m : Memory} (hm : m.wf = true) {a a' : Addr} (h : a' ≠ a) (v : Byte) :
    (m.poke a v).peek a' = m.peek a' := by
  cases ha : m.bankAt a with
  | none => simp [Memory.poke, ha]
  | some b =>
    cases hk : b.kind with
    | rom => simp [Memory.poke, ha, hk]
    | handler => simp [Memory.poke, ha, hk]
    | ram =>
      unfold Memory.peek
      rw [Memory.bankAt_poke ha hk]
      cases hc : m.bankAt a' with
      | none => rfl
      | some c =>
        simp only [Option.map_some]
        by_cases hid : c.id = b.id
        · obtain ⟨hb, hl, hh⟩ := Memory.bankAt_covers hm ha
          obtain ⟨hcm, hl', hh'⟩ := Memory.bankAt_covers hm hc
          obtain ⟨hw, hn, -⟩ := (Memory.wf_iff m).1 hm
          have : c = b := banks_same_id hn hcm hb hid
          subst this
          have hs := Bank.wf_storage (hw c hb) (by simp [hk])
          have hne : a'.toNat ≠ a.toNat := fun e => h (BitVec.eq_of_toNat_eq e)
          simp only [if_true, Bank.put, hk, Bank.byteAt]
          rw [cellsGet_put hs, if_neg (by omega)]
        · simp only [hid, if_false]

/-- A write to ROM, to an unmapped address or to a handler bank changes nothing in the Memory (R47, R51). -/
theorem Memory.poke_not_ram {m : Memory} {a : Addr} {v : Byte} (h : ∀ b, m.bankAt a = some b → b.kind ≠ .ram) :
    m.poke a v = m := by
  unfold Memory.poke
  cases ha : m.bankAt a with
  | none => rfl
  | some b =>
    have := h b ha
    cases hk : b.kind <;> simp_all

/-! ## Plain memory: no handler bank is active -/

theorem Memory.plain_bankAt {m : Memory} (h : m.plain = true) {a : Addr} {b : Bank} (ha : m.bankAt a = some b) :
    b.kind ≠ .handler := by
  unfold Memory.bankAt Memory.resolve at ha
  obtain ⟨id, h1, h2⟩ := Option.bind_eq_some_iff.1 ha
  obtain ⟨s, hs, rfl⟩ := Option.map_eq_some_iff.1 h1
  have hp := List.all_eq_true.1 h s (List.mem_of_find?_eq_some hs)
  simp only [h2] at hp
  simpa using hp

/-- On plain memory every address shows a byte. -/
theorem Memory.plain_peek {m : Memory} (h : m.plain = true) (a : Addr) : ∃ v, m.peek a = some v := by
  unfold Memory.peek
  cases ha : m.bankAt a with
  | none => exact ⟨_, rfl⟩
  | some b =>
    have := Memory.plain_bankAt h ha
    cases hk : b.kind <;> simp_all

theorem Memory.bank_kind_setBank {m : Memory} {a : Addr} {v : Byte} {b : Bank} (hb : m.bankAt a = some b) (id : BankId) :
    ((m.setBank (b.put a v)).bank id).map Bank.kind = (m.bank id).map Bank.kind := by
  unfold Memory.bankAt at hb
  obtain ⟨i, -, h2⟩ := Option.bind_eq_some_iff.1 hb
  have hid := (Memory.bank_mem h2).2
  rw [Memory.bank_setBank (b := b.put a v) ⟨b, (Memory.bank_mem h2).1, rfl⟩]
  split
  · next he =>
    have : id = i := he.trans hid
    subst this
    rw [h2]
    rfl
  · rfl

/-- A write keeps plain memory plain. -/
theorem Memory.plain_poke {m : Memory} (h : m.plain = true) (a : Addr) (v : Byte) : (m.poke a v).plain = true := by
  unfold Memory.poke
  cases ha : m.bankAt a with
  | none => exact h
  | some b =>
    cases hk : b.kind with
    | rom => simpa [hk] using h
    | handler => simpa [hk] using h
    | ram =>
      simp only [hk]
      refine List.all_eq_true.2 fun s hs => ?_
      have hp := List.all_eq_true.1 h s hs
      have he := Memory.bank_kind_setBank (v := v) ha s.id
      cases h1 : (m.setBank (b.put a v)).bank s.id with
      | none => rfl
      | some c =>
        rw [h1] at he
        cases h2 : m.bank s.id with
        | none => simp [h2] at he
        | some d =>
          rw [h2] at he
          simp only [Option.map_some, Option.some.injEq] at he
          simp only [h2] at hp
          simpa [he] using hp

end Sys2Proof.Machine
end

