-- ==== Sys2Proof/Laws/Result.lean ====
section
/-! SUPPORT. Sequencing of answers: how `andThen` computes, and what it means that it answers a next value. -/

namespace Sys2Proof.Machine

variable {α β γ : Type}

@[simp] theorem andThen_next (a : α) (k : α → Res β) : andThen (.next a) k = k a := rfl

@[simp] theorem andThen_fault (f : Fault) (k : α → Res β) : andThen (.fault f : Res α) k = .fault f := rfl

@[simp] theorem andThen_refused (e : Refusal) (k : α → Res β) : andThen (.refused e : Res α) k = .refused e := rfl

theorem andThen_assoc (r : Res α) (k : α → Res β) (l : β → Res γ) :
    andThen (andThen r k) l = andThen r fun a => andThen (k a) l := by
  cases r <;> rfl

/-- A sequence answers a next value exactly when its first part does and then its second. -/
theorem andThen_eq_next {r : Res α} {k : α → Res β} {b : β} :
    andThen r k = .next b ↔ ∃ a, r = .next a ∧ k a = .next b := by
  cases r <;> simp [andThen]

/-- Going on with the value unchanged is doing nothing. -/
theorem andThen_id (r : Res α) : (andThen r fun a => .next a) = r := by
  cases r <;> rfl

/-- Two continuations that agree wherever the first part answers give the same whole. -/
theorem andThen_congr {r : Res α} {k l : α → Res β} (h : ∀ a, r = .next a → k a = l a) : andThen r k = andThen r l := by
  cases r with
  | next a => exact h a rfl
  | fault f => rfl
  | refused e => rfl

end Sys2Proof.Machine
end

