-- ==== Sys2Proof/Laws/State.lean ====
section
/-! SUPPORT. What each update of the state does to each field: one lemma a field and update, by rfl. -/

namespace Sys2Proof.Machine

/-! ### setA -/

@[simp] theorem State.setA_a (s : State) (v : Byte) : (s.setA v).a = v := rfl
@[simp] theorem State.setA_x (s : State) (v : Byte) : (s.setA v).x = s.x := rfl
@[simp] theorem State.setA_y (s : State) (v : Byte) : (s.setA v).y = s.y := rfl
@[simp] theorem State.setA_sp (s : State) (v : Byte) : (s.setA v).sp = s.sp := rfl
@[simp] theorem State.setA_pc (s : State) (v : Byte) : (s.setA v).pc = s.pc := rfl
@[simp] theorem State.setA_p (s : State) (v : Byte) : (s.setA v).p = s.p := rfl
@[simp] theorem State.setA_micro (s : State) (v : Byte) : (s.setA v).micro = s.micro := rfl
@[simp] theorem State.setA_lines (s : State) (v : Byte) : (s.setA v).lines = s.lines := rfl
@[simp] theorem State.setA_halted (s : State) (v : Byte) : (s.setA v).halted = s.halted := rfl
@[simp] theorem State.setA_cycles (s : State) (v : Byte) : (s.setA v).cycles = s.cycles := rfl
@[simp] theorem State.setA_mem (s : State) (v : Byte) : (s.setA v).mem = s.mem := rfl
@[simp] theorem State.setA_fabric (s : State) (v : Byte) : (s.setA v).fabric = s.fabric := rfl
@[simp] theorem State.setA_platform (s : State) (v : Byte) : (s.setA v).platform = s.platform := rfl
@[simp] theorem State.setA_world (s : State) (v : Byte) : (s.setA v).world = s.world := rfl

/-! ### setX -/

@[simp] theorem State.setX_a (s : State) (v : Byte) : (s.setX v).a = s.a := rfl
@[simp] theorem State.setX_x (s : State) (v : Byte) : (s.setX v).x = v := rfl
@[simp] theorem State.setX_y (s : State) (v : Byte) : (s.setX v).y = s.y := rfl
@[simp] theorem State.setX_sp (s : State) (v : Byte) : (s.setX v).sp = s.sp := rfl
@[simp] theorem State.setX_pc (s : State) (v : Byte) : (s.setX v).pc = s.pc := rfl
@[simp] theorem State.setX_p (s : State) (v : Byte) : (s.setX v).p = s.p := rfl
@[simp] theorem State.setX_micro (s : State) (v : Byte) : (s.setX v).micro = s.micro := rfl
@[simp] theorem State.setX_lines (s : State) (v : Byte) : (s.setX v).lines = s.lines := rfl
@[simp] theorem State.setX_halted (s : State) (v : Byte) : (s.setX v).halted = s.halted := rfl
@[simp] theorem State.setX_cycles (s : State) (v : Byte) : (s.setX v).cycles = s.cycles := rfl
@[simp] theorem State.setX_mem (s : State) (v : Byte) : (s.setX v).mem = s.mem := rfl
@[simp] theorem State.setX_fabric (s : State) (v : Byte) : (s.setX v).fabric = s.fabric := rfl
@[simp] theorem State.setX_platform (s : State) (v : Byte) : (s.setX v).platform = s.platform := rfl
@[simp] theorem State.setX_world (s : State) (v : Byte) : (s.setX v).world = s.world := rfl

/-! ### setY -/

@[simp] theorem State.setY_a (s : State) (v : Byte) : (s.setY v).a = s.a := rfl
@[simp] theorem State.setY_x (s : State) (v : Byte) : (s.setY v).x = s.x := rfl
@[simp] theorem State.setY_y (s : State) (v : Byte) : (s.setY v).y = v := rfl
@[simp] theorem State.setY_sp (s : State) (v : Byte) : (s.setY v).sp = s.sp := rfl
@[simp] theorem State.setY_pc (s : State) (v : Byte) : (s.setY v).pc = s.pc := rfl
@[simp] theorem State.setY_p (s : State) (v : Byte) : (s.setY v).p = s.p := rfl
@[simp] theorem State.setY_micro (s : State) (v : Byte) : (s.setY v).micro = s.micro := rfl
@[simp] theorem State.setY_lines (s : State) (v : Byte) : (s.setY v).lines = s.lines := rfl
@[simp] theorem State.setY_halted (s : State) (v : Byte) : (s.setY v).halted = s.halted := rfl
@[simp] theorem State.setY_cycles (s : State) (v : Byte) : (s.setY v).cycles = s.cycles := rfl
@[simp] theorem State.setY_mem (s : State) (v : Byte) : (s.setY v).mem = s.mem := rfl
@[simp] theorem State.setY_fabric (s : State) (v : Byte) : (s.setY v).fabric = s.fabric := rfl
@[simp] theorem State.setY_platform (s : State) (v : Byte) : (s.setY v).platform = s.platform := rfl
@[simp] theorem State.setY_world (s : State) (v : Byte) : (s.setY v).world = s.world := rfl

/-! ### setSp -/

@[simp] theorem State.setSp_a (s : State) (v : Byte) : (s.setSp v).a = s.a := rfl
@[simp] theorem State.setSp_x (s : State) (v : Byte) : (s.setSp v).x = s.x := rfl
@[simp] theorem State.setSp_y (s : State) (v : Byte) : (s.setSp v).y = s.y := rfl
@[simp] theorem State.setSp_sp (s : State) (v : Byte) : (s.setSp v).sp = v := rfl
@[simp] theorem State.setSp_pc (s : State) (v : Byte) : (s.setSp v).pc = s.pc := rfl
@[simp] theorem State.setSp_p (s : State) (v : Byte) : (s.setSp v).p = s.p := rfl
@[simp] theorem State.setSp_micro (s : State) (v : Byte) : (s.setSp v).micro = s.micro := rfl
@[simp] theorem State.setSp_lines (s : State) (v : Byte) : (s.setSp v).lines = s.lines := rfl
@[simp] theorem State.setSp_halted (s : State) (v : Byte) : (s.setSp v).halted = s.halted := rfl
@[simp] theorem State.setSp_cycles (s : State) (v : Byte) : (s.setSp v).cycles = s.cycles := rfl
@[simp] theorem State.setSp_mem (s : State) (v : Byte) : (s.setSp v).mem = s.mem := rfl
@[simp] theorem State.setSp_fabric (s : State) (v : Byte) : (s.setSp v).fabric = s.fabric := rfl
@[simp] theorem State.setSp_platform (s : State) (v : Byte) : (s.setSp v).platform = s.platform := rfl
@[simp] theorem State.setSp_world (s : State) (v : Byte) : (s.setSp v).world = s.world := rfl

/-! ### setPc -/

@[simp] theorem State.setPc_a (s : State) (v : Addr) : (s.setPc v).a = s.a := rfl
@[simp] theorem State.setPc_x (s : State) (v : Addr) : (s.setPc v).x = s.x := rfl
@[simp] theorem State.setPc_y (s : State) (v : Addr) : (s.setPc v).y = s.y := rfl
@[simp] theorem State.setPc_sp (s : State) (v : Addr) : (s.setPc v).sp = s.sp := rfl
@[simp] theorem State.setPc_pc (s : State) (v : Addr) : (s.setPc v).pc = v := rfl
@[simp] theorem State.setPc_p (s : State) (v : Addr) : (s.setPc v).p = s.p := rfl
@[simp] theorem State.setPc_micro (s : State) (v : Addr) : (s.setPc v).micro = s.micro := rfl
@[simp] theorem State.setPc_lines (s : State) (v : Addr) : (s.setPc v).lines = s.lines := rfl
@[simp] theorem State.setPc_halted (s : State) (v : Addr) : (s.setPc v).halted = s.halted := rfl
@[simp] theorem State.setPc_cycles (s : State) (v : Addr) : (s.setPc v).cycles = s.cycles := rfl
@[simp] theorem State.setPc_mem (s : State) (v : Addr) : (s.setPc v).mem = s.mem := rfl
@[simp] theorem State.setPc_fabric (s : State) (v : Addr) : (s.setPc v).fabric = s.fabric := rfl
@[simp] theorem State.setPc_platform (s : State) (v : Addr) : (s.setPc v).platform = s.platform := rfl
@[simp] theorem State.setPc_world (s : State) (v : Addr) : (s.setPc v).world = s.world := rfl

/-! ### setP -/

@[simp] theorem State.setP_a (s : State) (v : Flags) : (s.setP v).a = s.a := rfl
@[simp] theorem State.setP_x (s : State) (v : Flags) : (s.setP v).x = s.x := rfl
@[simp] theorem State.setP_y (s : State) (v : Flags) : (s.setP v).y = s.y := rfl
@[simp] theorem State.setP_sp (s : State) (v : Flags) : (s.setP v).sp = s.sp := rfl
@[simp] theorem State.setP_pc (s : State) (v : Flags) : (s.setP v).pc = s.pc := rfl
@[simp] theorem State.setP_p (s : State) (v : Flags) : (s.setP v).p = v := rfl
@[simp] theorem State.setP_micro (s : State) (v : Flags) : (s.setP v).micro = s.micro := rfl
@[simp] theorem State.setP_lines (s : State) (v : Flags) : (s.setP v).lines = s.lines := rfl
@[simp] theorem State.setP_halted (s : State) (v : Flags) : (s.setP v).halted = s.halted := rfl
@[simp] theorem State.setP_cycles (s : State) (v : Flags) : (s.setP v).cycles = s.cycles := rfl
@[simp] theorem State.setP_mem (s : State) (v : Flags) : (s.setP v).mem = s.mem := rfl
@[simp] theorem State.setP_fabric (s : State) (v : Flags) : (s.setP v).fabric = s.fabric := rfl
@[simp] theorem State.setP_platform (s : State) (v : Flags) : (s.setP v).platform = s.platform := rfl
@[simp] theorem State.setP_world (s : State) (v : Flags) : (s.setP v).world = s.world := rfl

/-! ### setMicro -/

@[simp] theorem State.setMicro_a (s : State) (v : Micro) : (s.setMicro v).a = s.a := rfl
@[simp] theorem State.setMicro_x (s : State) (v : Micro) : (s.setMicro v).x = s.x := rfl
@[simp] theorem State.setMicro_y (s : State) (v : Micro) : (s.setMicro v).y = s.y := rfl
@[simp] theorem State.setMicro_sp (s : State) (v : Micro) : (s.setMicro v).sp = s.sp := rfl
@[simp] theorem State.setMicro_pc (s : State) (v : Micro) : (s.setMicro v).pc = s.pc := rfl
@[simp] theorem State.setMicro_p (s : State) (v : Micro) : (s.setMicro v).p = s.p := rfl
@[simp] theorem State.setMicro_micro (s : State) (v : Micro) : (s.setMicro v).micro = v := rfl
@[simp] theorem State.setMicro_lines (s : State) (v : Micro) : (s.setMicro v).lines = s.lines := rfl
@[simp] theorem State.setMicro_halted (s : State) (v : Micro) : (s.setMicro v).halted = s.halted := rfl
@[simp] theorem State.setMicro_cycles (s : State) (v : Micro) : (s.setMicro v).cycles = s.cycles := rfl
@[simp] theorem State.setMicro_mem (s : State) (v : Micro) : (s.setMicro v).mem = s.mem := rfl
@[simp] theorem State.setMicro_fabric (s : State) (v : Micro) : (s.setMicro v).fabric = s.fabric := rfl
@[simp] theorem State.setMicro_platform (s : State) (v : Micro) : (s.setMicro v).platform = s.platform := rfl
@[simp] theorem State.setMicro_world (s : State) (v : Micro) : (s.setMicro v).world = s.world := rfl

/-! ### setLines -/

@[simp] theorem State.setLines_a (s : State) (v : Latches) : (s.setLines v).a = s.a := rfl
@[simp] theorem State.setLines_x (s : State) (v : Latches) : (s.setLines v).x = s.x := rfl
@[simp] theorem State.setLines_y (s : State) (v : Latches) : (s.setLines v).y = s.y := rfl
@[simp] theorem State.setLines_sp (s : State) (v : Latches) : (s.setLines v).sp = s.sp := rfl
@[simp] theorem State.setLines_pc (s : State) (v : Latches) : (s.setLines v).pc = s.pc := rfl
@[simp] theorem State.setLines_p (s : State) (v : Latches) : (s.setLines v).p = s.p := rfl
@[simp] theorem State.setLines_micro (s : State) (v : Latches) : (s.setLines v).micro = s.micro := rfl
@[simp] theorem State.setLines_lines (s : State) (v : Latches) : (s.setLines v).lines = v := rfl
@[simp] theorem State.setLines_halted (s : State) (v : Latches) : (s.setLines v).halted = s.halted := rfl
@[simp] theorem State.setLines_cycles (s : State) (v : Latches) : (s.setLines v).cycles = s.cycles := rfl
@[simp] theorem State.setLines_mem (s : State) (v : Latches) : (s.setLines v).mem = s.mem := rfl
@[simp] theorem State.setLines_fabric (s : State) (v : Latches) : (s.setLines v).fabric = s.fabric := rfl
@[simp] theorem State.setLines_platform (s : State) (v : Latches) : (s.setLines v).platform = s.platform := rfl
@[simp] theorem State.setLines_world (s : State) (v : Latches) : (s.setLines v).world = s.world := rfl

/-! ### setHalted -/

@[simp] theorem State.setHalted_a (s : State) (v : Option HaltCause) : (s.setHalted v).a = s.a := rfl
@[simp] theorem State.setHalted_x (s : State) (v : Option HaltCause) : (s.setHalted v).x = s.x := rfl
@[simp] theorem State.setHalted_y (s : State) (v : Option HaltCause) : (s.setHalted v).y = s.y := rfl
@[simp] theorem State.setHalted_sp (s : State) (v : Option HaltCause) : (s.setHalted v).sp = s.sp := rfl
@[simp] theorem State.setHalted_pc (s : State) (v : Option HaltCause) : (s.setHalted v).pc = s.pc := rfl
@[simp] theorem State.setHalted_p (s : State) (v : Option HaltCause) : (s.setHalted v).p = s.p := rfl
@[simp] theorem State.setHalted_micro (s : State) (v : Option HaltCause) : (s.setHalted v).micro = s.micro := rfl
@[simp] theorem State.setHalted_lines (s : State) (v : Option HaltCause) : (s.setHalted v).lines = s.lines := rfl
@[simp] theorem State.setHalted_halted (s : State) (v : Option HaltCause) : (s.setHalted v).halted = v := rfl
@[simp] theorem State.setHalted_cycles (s : State) (v : Option HaltCause) : (s.setHalted v).cycles = s.cycles := rfl
@[simp] theorem State.setHalted_mem (s : State) (v : Option HaltCause) : (s.setHalted v).mem = s.mem := rfl
@[simp] theorem State.setHalted_fabric (s : State) (v : Option HaltCause) : (s.setHalted v).fabric = s.fabric := rfl
@[simp] theorem State.setHalted_platform (s : State) (v : Option HaltCause) : (s.setHalted v).platform = s.platform := rfl
@[simp] theorem State.setHalted_world (s : State) (v : Option HaltCause) : (s.setHalted v).world = s.world := rfl

/-! ### setMem -/

@[simp] theorem State.setMem_a (s : State) (v : Memory) : (s.setMem v).a = s.a := rfl
@[simp] theorem State.setMem_x (s : State) (v : Memory) : (s.setMem v).x = s.x := rfl
@[simp] theorem State.setMem_y (s : State) (v : Memory) : (s.setMem v).y = s.y := rfl
@[simp] theorem State.setMem_sp (s : State) (v : Memory) : (s.setMem v).sp = s.sp := rfl
@[simp] theorem State.setMem_pc (s : State) (v : Memory) : (s.setMem v).pc = s.pc := rfl
@[simp] theorem State.setMem_p (s : State) (v : Memory) : (s.setMem v).p = s.p := rfl
@[simp] theorem State.setMem_micro (s : State) (v : Memory) : (s.setMem v).micro = s.micro := rfl
@[simp] theorem State.setMem_lines (s : State) (v : Memory) : (s.setMem v).lines = s.lines := rfl
@[simp] theorem State.setMem_halted (s : State) (v : Memory) : (s.setMem v).halted = s.halted := rfl
@[simp] theorem State.setMem_cycles (s : State) (v : Memory) : (s.setMem v).cycles = s.cycles := rfl
@[simp] theorem State.setMem_mem (s : State) (v : Memory) : (s.setMem v).mem = v := rfl
@[simp] theorem State.setMem_fabric (s : State) (v : Memory) : (s.setMem v).fabric = s.fabric := rfl
@[simp] theorem State.setMem_platform (s : State) (v : Memory) : (s.setMem v).platform = s.platform := rfl
@[simp] theorem State.setMem_world (s : State) (v : Memory) : (s.setMem v).world = s.world := rfl

/-! ### setFabric -/

@[simp] theorem State.setFabric_a (s : State) (v : Fabric) : (s.setFabric v).a = s.a := rfl
@[simp] theorem State.setFabric_x (s : State) (v : Fabric) : (s.setFabric v).x = s.x := rfl
@[simp] theorem State.setFabric_y (s : State) (v : Fabric) : (s.setFabric v).y = s.y := rfl
@[simp] theorem State.setFabric_sp (s : State) (v : Fabric) : (s.setFabric v).sp = s.sp := rfl
@[simp] theorem State.setFabric_pc (s : State) (v : Fabric) : (s.setFabric v).pc = s.pc := rfl
@[simp] theorem State.setFabric_p (s : State) (v : Fabric) : (s.setFabric v).p = s.p := rfl
@[simp] theorem State.setFabric_micro (s : State) (v : Fabric) : (s.setFabric v).micro = s.micro := rfl
@[simp] theorem State.setFabric_lines (s : State) (v : Fabric) : (s.setFabric v).lines = s.lines := rfl
@[simp] theorem State.setFabric_halted (s : State) (v : Fabric) : (s.setFabric v).halted = s.halted := rfl
@[simp] theorem State.setFabric_cycles (s : State) (v : Fabric) : (s.setFabric v).cycles = s.cycles := rfl
@[simp] theorem State.setFabric_mem (s : State) (v : Fabric) : (s.setFabric v).mem = s.mem := rfl
@[simp] theorem State.setFabric_fabric (s : State) (v : Fabric) : (s.setFabric v).fabric = v := rfl
@[simp] theorem State.setFabric_platform (s : State) (v : Fabric) : (s.setFabric v).platform = s.platform := rfl
@[simp] theorem State.setFabric_world (s : State) (v : Fabric) : (s.setFabric v).world = s.world := rfl

/-! ### setWorld -/

@[simp] theorem State.setWorld_a (s : State) (v : World) : (s.setWorld v).a = s.a := rfl
@[simp] theorem State.setWorld_x (s : State) (v : World) : (s.setWorld v).x = s.x := rfl
@[simp] theorem State.setWorld_y (s : State) (v : World) : (s.setWorld v).y = s.y := rfl
@[simp] theorem State.setWorld_sp (s : State) (v : World) : (s.setWorld v).sp = s.sp := rfl
@[simp] theorem State.setWorld_pc (s : State) (v : World) : (s.setWorld v).pc = s.pc := rfl
@[simp] theorem State.setWorld_p (s : State) (v : World) : (s.setWorld v).p = s.p := rfl
@[simp] theorem State.setWorld_micro (s : State) (v : World) : (s.setWorld v).micro = s.micro := rfl
@[simp] theorem State.setWorld_lines (s : State) (v : World) : (s.setWorld v).lines = s.lines := rfl
@[simp] theorem State.setWorld_halted (s : State) (v : World) : (s.setWorld v).halted = s.halted := rfl
@[simp] theorem State.setWorld_cycles (s : State) (v : World) : (s.setWorld v).cycles = s.cycles := rfl
@[simp] theorem State.setWorld_mem (s : State) (v : World) : (s.setWorld v).mem = s.mem := rfl
@[simp] theorem State.setWorld_fabric (s : State) (v : World) : (s.setWorld v).fabric = s.fabric := rfl
@[simp] theorem State.setWorld_platform (s : State) (v : World) : (s.setWorld v).platform = s.platform := rfl
@[simp] theorem State.setWorld_world (s : State) (v : World) : (s.setWorld v).world = v := rfl

/-! ### addCycle -/

@[simp] theorem State.addCycle_a (s : State) : (s.addCycle).a = s.a := rfl
@[simp] theorem State.addCycle_x (s : State) : (s.addCycle).x = s.x := rfl
@[simp] theorem State.addCycle_y (s : State) : (s.addCycle).y = s.y := rfl
@[simp] theorem State.addCycle_sp (s : State) : (s.addCycle).sp = s.sp := rfl
@[simp] theorem State.addCycle_pc (s : State) : (s.addCycle).pc = s.pc := rfl
@[simp] theorem State.addCycle_p (s : State) : (s.addCycle).p = s.p := rfl
@[simp] theorem State.addCycle_micro (s : State) : (s.addCycle).micro = s.micro := rfl
@[simp] theorem State.addCycle_lines (s : State) : (s.addCycle).lines = s.lines := rfl
@[simp] theorem State.addCycle_halted (s : State) : (s.addCycle).halted = s.halted := rfl
@[simp] theorem State.addCycle_cycles (s : State) : (s.addCycle).cycles = s.cycles + 1 := rfl
@[simp] theorem State.addCycle_mem (s : State) : (s.addCycle).mem = s.mem := rfl
@[simp] theorem State.addCycle_fabric (s : State) : (s.addCycle).fabric = s.fabric := rfl
@[simp] theorem State.addCycle_platform (s : State) : (s.addCycle).platform = s.platform := rfl
@[simp] theorem State.addCycle_world (s : State) : (s.addCycle).world = s.world := rfl

end Sys2Proof.Machine
end

