-- ==== Sys2Proof/Laws/Bus.lean ====
section
/-! SUPPORT. One lemma a shared operation over storage (no callback behind the addresses it accesses): the bus, the stack,
the addressing modes. -/

namespace Sys2Proof.Machine

/-! ## Reading the state's memory -/

@[simp] theorem peek_isSome_iff {o : Option Byte} : o.isSome = true ↔ ∃ v, o = some v := Option.isSome_iff_exists

theorem noHandler_iff {s : State} {a : Addr} : s.noHandler a ↔ s.mem.peek a = some (shownByte s a) := by
  unfold State.noHandler shownByte
  cases s.mem.peek a <;> simp

@[simp] theorem shownByte_congr {s t : State} (h : t.mem = s.mem) (a : Addr) : shownByte t a = shownByte s a := by
  unfold shownByte
  rw [h]

/-! ## The bus (R46, R47) -/

theorem busRead_noHandler {s : State} {a : Addr} (h : s.noHandler a) : busRead a s = .next (shownByte s a, s.addCycle) := by
  unfold State.noHandler Memory.peek at h
  unfold busRead shownByte Memory.peek
  cases hb : s.mem.bankAt a with
  | none => rfl
  | some b =>
    rw [hb] at h
    cases hk : b.kind with
    | ram => simp [hk]
    | rom => simp [hk]
    | handler => simp [hk] at h

theorem busWrite_noHandler {s : State} {a : Addr} (h : s.noHandler a) (v : Byte) :
    busWrite a v s = .next (s.addCycle.setMem (s.mem.poke a v)) := by
  unfold State.noHandler Memory.peek at h
  unfold busWrite Memory.poke
  cases hb : s.mem.bankAt a with
  | none => rfl
  | some b =>
    rw [hb] at h
    cases hk : b.kind with
    | ram => simp [hk]
    | rom => simp [hk]; rfl
    | handler => simp [hk] at h

/-- The same in record form, from what memory shows: the form in which `simp only` runs through a whole sequence. -/
theorem busRead_next {s : State} {a : Addr} (h : (s.mem.peek a).isSome = true) :
    busRead a s = .next (s.mem.shows a, { s with cycles := s.cycles + 1 }) := busRead_noHandler h

theorem busWrite_next {s : State} {a : Addr} (h : (s.mem.peek a).isSome = true) (v : Byte) :
    busWrite a v s = .next { s with cycles := s.cycles + 1, mem := s.mem.poke a v } := busWrite_noHandler h v

theorem discardRead_noHandler {s : State} {a : Addr} (h : s.noHandler a) : discardRead a s = .next s.addCycle := by
  rw [discardRead, busRead_noHandler h]
  rfl

/-- A write changes neither the map nor the kind of the bank at an address. -/
theorem bankAt_poke_kind (m : Memory) (a b : Addr) (v : Byte) :
    ((m.poke a v).bankAt b).map Bank.kind = (m.bankAt b).map Bank.kind := by
  cases ha : m.bankAt a with
  | none => rw [Memory.poke_not_ram (by simp [ha])]
  | some c =>
    by_cases hk : c.kind = .ram
    · rw [Memory.bankAt_poke ha hk, Option.map_map]
      cases hb : m.bankAt b with
      | none => rfl
      | some d =>
        simp only [Option.map_some, Function.comp]
        split
        · next hid =>
          have hd : m.bank d.id = some d := by
            unfold Memory.bankAt at hb
            obtain ⟨i, -, h2⟩ := Option.bind_eq_some_iff.1 hb
            rw [(Memory.bank_mem h2).2, h2]
          have hc : m.bank c.id = some c := by
            unfold Memory.bankAt at ha
            obtain ⟨i, -, h2⟩ := Option.bind_eq_some_iff.1 ha
            rw [(Memory.bank_mem h2).2, h2]
          rw [hid, hc] at hd
          cases hd
          rfl
        · rfl
    · rw [Memory.poke_not_ram (by simpa [ha] using hk)]

theorem peek_isSome (m : Memory) (a : Addr) : (m.peek a).isSome = true ↔ (m.bankAt a).map Bank.kind ≠ some .handler := by
  unfold Memory.peek
  cases m.bankAt a with
  | none => simp
  | some b =>
    simp only [Option.map_some]
    cases b.kind <;> simp

/-- Whether a callback is behind an address does not change with a write. -/
@[simp] theorem isSome_peek_poke (m : Memory) (a b : Addr) (v : Byte) : ((m.poke a v).peek b).isSome = (m.peek b).isSome := by
  rw [Bool.eq_iff_iff, peek_isSome, peek_isSome, bankAt_poke_kind]

@[simp] theorem isRam_poke (m : Memory) (a b : Addr) (v : Byte) : (m.poke a v).isRam b ↔ m.isRam b := by
  unfold Memory.isRam
  rw [bankAt_poke_kind]

/-- What a write to RAM leaves at its address. -/
theorem peek_poke_ram {m : Memory} (hm : m.wf = true) {a : Addr} (h : m.isRam a) (v : Byte) : (m.poke a v).peek a = some v := by
  unfold Memory.isRam at h
  obtain ⟨b, hb, hk⟩ := Option.map_eq_some_iff.1 h
  exact Memory.peek_poke_same hm hb hk v

/-- A write to anything but RAM changes nothing. -/
theorem poke_of_not_isRam {m : Memory} {a : Addr} (h : ¬m.isRam a) (v : Byte) : m.poke a v = m := by
  refine Memory.poke_not_ram fun b hb hk => h ?_
  unfold Memory.isRam
  rw [hb, Option.map_some, hk]

theorem sameBut_poke {m : Memory} (hm : m.wf = true) (a : Addr) (v : Byte) : SameBut [a] m (m.poke a v) :=
  fun _ hb => Memory.peek_poke_other hm (by simpa using hb) v

theorem SameBut.trans {as bs : List Addr} {m n o : Memory} (h : SameBut as m n) (k : SameBut bs n o) :
    SameBut (as ++ bs) m o := by
  intro b hb
  simp only [List.mem_append, not_or] at hb
  rw [k b hb.2, h b hb.1]

theorem SameBut.mono {as bs : List Addr} {m n : Memory} (h : SameBut as m n) (hs : ∀ a ∈ as, a ∈ bs) : SameBut bs m n :=
  fun b hb => h b fun ha => hb (hs b ha)

/-! ## States that differ in fields the bus does not look at -/

@[simp] theorem noHandler_setMem_poke (s t : State) (a b : Addr) (v : Byte) :
    (s.setMem (t.mem.poke a v)).noHandler b ↔ t.noHandler b := by
  simp [State.noHandler]

theorem noHandler_congr {s t : State} (h : ∀ a, (t.mem.peek a).isSome = (s.mem.peek a).isSome) {a : Addr} (ha : s.noHandler a) :
    t.noHandler a := by
  unfold State.noHandler at *
  rw [h]
  exact ha

/-! ## The stack (R5, R58) -/

theorem push_noHandler {s : State} (h : s.noHandler (stackAddr s.sp)) (v : Byte) :
    push v s = .next ((s.addCycle.setMem (s.mem.poke (stackAddr s.sp) v)).setSp (s.sp - 1)) := by
  rw [push, busWrite_noHandler h]
  rfl

theorem pull_noHandler {s : State} (h : s.noHandler (stackAddr (s.sp + 1))) :
    pull s = .next (shownByte s (stackAddr (s.sp + 1)), (s.setSp (s.sp + 1)).addCycle) := by
  rw [pull, busRead_noHandler (s := s.setSp (s.sp + 1)) h]
  rfl

theorem discardStack_noHandler {s : State} (h : s.noHandler (stackAddr s.sp)) : discardStack s = .next s.addCycle :=
  discardRead_noHandler h

theorem implied_noHandler {s : State} (h : s.noHandler s.pc) (f : State → State) : implied f s = .next (f s.addCycle) := by
  rw [implied, discardRead_noHandler h]
  rfl

end Sys2Proof.Machine
end

