-- ==== Sys2Proof/Laws/Callback.lean ====
section
/-! SUPPORT. What a delivery, a callback and a bus access can do, whatever the platform answers (R50, R52, R235): one rule for
deliveries, and what it gives for callbacks and for the two accesses. -/

namespace Sys2Proof.Machine

/-! ## Running a list of actions -/

theorem runAll_nil {α : Type} (f : α → State → Res State) (s : State) : runAll f [] s = .next s := rfl


theorem foldl_stopped {α : Type} (f : α → State → Res State) (xs : List α) (r : Res State) (h : ∀ s, r ≠ .next s) :
    xs.foldl (fun r x => andThen r (f x)) r = r := by
  induction xs with
  | nil => rfl
  | cons x xs ih =>
    rw [List.foldl_cons]
    cases r with
    | next s => exact absurd rfl (h s)
    | fault k => exact ih
    | refused e => exact ih

theorem runAll_cons {α : Type} (f : α → State → Res State) (x : α) (xs : List α) (s : State) :
    runAll f (x :: xs) s = andThen (f x s) (runAll f xs) := by
  unfold runAll
  rw [List.foldl_cons, andThen_next]
  cases h : f x s with
  | next t => rfl
  | fault k => exact foldl_stopped f xs _ (by simp)
  | refused e => exact foldl_stopped f xs _ (by simp)

/-- A relation that holds of each action holds of the run. -/
theorem runAll_rel {α : Type} {R : State → State → Prop} (refl : ∀ s, R s s) (trans : ∀ s t u, R s t → R t u → R s u)
    {f : α → State → Res State} {xs : List α} (h : ∀ x ∈ xs, ∀ s t, f x s = .next t → R s t) {s t : State}
    (hr : runAll f xs s = .next t) : R s t := by
  induction xs generalizing s with
  | nil =>
    cases hr
    exact refl _
  | cons x xs ih =>
    rw [runAll_cons] at hr
    obtain ⟨u, h1, h2⟩ := andThen_eq_next.1 hr
    exact trans s u t (h x (by simp) s u h1) (ih (fun y hy => h y (by simp [hy])) h2)

/-! ## Deliveries -/

/-- A relation between states that every single thing a delivery does keeps: it is what a whole write of a wire keeps. -/
structure Delivered (onRise : State → Res State) (R : State → State → Prop) : Prop where
  refl : ∀ s, R s s
  trans : ∀ s t u, R s t → R t u → R s u
  lines : ∀ (s : State) (l : Latches), R s (s.setLines l)
  world : ∀ (s : State) (w : World), R s (s.setWorld w)
  stop : ∀ s : State, R s (s.setFabric s.fabric.stop)
  value : ∀ (s : State) (src : EndpointId) (w : Wire) (v : Signal), s.fabric.wireOfSource src = some w →
    isWide v = isWide w.value → R s (s.setFabric (s.fabric.setWire { w with value := v }))
  nested : ∀ (s t : State) (id : WireId),
    R (s.setFabric { s.fabric with delivering := id :: s.fabric.delivering }) t →
      R s (t.setFabric { t.fabric with delivering := t.fabric.delivering.tail })
  rise : ∀ s t : State, onRise s = .next t → R s t

theorem Delivered.cpu {onRise : State → Res State} {R : State → State → Prop} (d : Delivered onRise R) {port : CpuPort}
    {v : Bool} {s t : State} (h : cpuInput onRise port v s = .next t) : R s t := by
  cases port with
  | clock =>
    simp only [cpuInput, onClock] at h
    obtain ⟨u, h1, h2⟩ := andThen_eq_next.1 h
    cases h2
    refine d.trans s u _ ?_ (d.lines u _)
    split at h1
    · exact d.rise s u h1
    · cases h1
      exact d.refl s
  | irq =>
    cases h
    exact d.lines s _
  | nmi =>
    cases h
    exact d.lines s _
  | reset =>
    cases h
    exact d.lines s _

theorem Delivered.deliver {onRise : State → Res State} {R : State → State → Prop} (d : Delivered onRise R)
    {write : EndpointId → Signal → State → Res State} (hw : ∀ e v s t, write e v s = .next t → R s t) {v : Signal} {k : Sink}
    {s t : State} (h : deliverTo onRise write v k s = .next t) : R s t := by
  unfold deliverTo at h
  split at h
  · split at h
    · exact d.cpu h
    · cases h
  · next n _ _ =>
    refine d.trans s _ t (d.world s (Config.onValue s.world n v).after) (runAll_rel d.refl d.trans ?_ h)
    intro c _ s t hc
    cases c with
    | stop =>
      cases hc
      exact d.stop s
    | writeWire e u => exact hw e u s t hc

theorem Delivered.during {onRise : State → Res State} {R : State → State → Prop} (d : Delivered onRise R) {id : WireId}
    {f : State → Res State} (hf : ∀ s t, f s = .next t → R s t) {s t : State} (h : whileDelivering id f s = .next t) : R s t := by
  obtain ⟨u, h1, h2⟩ := andThen_eq_next.1 h
  cases h2
  exact d.nested s u id (hf _ u h1)

theorem Delivered.writeWith {onRise : State → Res State} {R : State → State → Prop} (d : Delivered onRise R) {n : Nat}
    {src : EndpointId} {v : Signal} {s t : State} (h : writeWireWith onRise n src v s = .next t) : R s t := by
  induction n generalizing src v s t with
  | zero => cases h
  | succ n ih =>
    unfold writeWireWith at h
    split at h
    · cases h
      exact d.refl s
    · next w hw =>
      split at h
      · cases h
      · split at h
        · cases h
        · next hwide =>
          refine d.trans s _ t (d.value s src w v hw (by simpa using hwide)) (d.during (fun s t hs => ?_) h)
          exact runAll_rel d.refl d.trans (fun k _ s t hk => d.deliver (fun e v s t hc => ih hc) hk) hs

/-- What every single thing does, the whole write does. -/
theorem Delivered.write {onRise : State → Res State} {R : State → State → Prop} (d : Delivered onRise R) {src : EndpointId}
    {v : Signal} {s t : State} (h : writeWire onRise src v s = .next t) : R s t := d.writeWith h

/-! ## Callbacks -/

/-- What a callback, with all it calls, leaves alone (R50, R52, R235). -/
structure Bystander (s t : State) : Prop where
  a : t.a = s.a
  x : t.x = s.x
  y : t.y = s.y
  sp : t.sp = s.sp
  pc : t.pc = s.pc
  p : t.p = s.p
  micro : t.micro = s.micro
  halted : t.halted = s.halted
  cycles : t.cycles = s.cycles
  platform : t.platform = s.platform
  banks : t.mem.banks = s.mem.banks
  memWf : s.mem.wf = true → t.mem.wf = true
  fabricWf : s.fabric.wf = true → t.fabric.wf = true
  delivering : t.fabric.delivering = s.fabric.delivering
  wireIds : t.fabric.wires.map Wire.id = s.fabric.wires.map Wire.id

theorem Bystander.refl (s : State) : Bystander s s :=
  ⟨rfl, rfl, rfl, rfl, rfl, rfl, rfl, rfl, rfl, rfl, rfl, id, id, rfl, rfl⟩

theorem Bystander.trans {s t u : State} (h : Bystander s t) (k : Bystander t u) : Bystander s u where
  a := k.a.trans h.a
  x := k.x.trans h.x
  y := k.y.trans h.y
  sp := k.sp.trans h.sp
  pc := k.pc.trans h.pc
  p := k.p.trans h.p
  micro := k.micro.trans h.micro
  halted := k.halted.trans h.halted
  cycles := k.cycles.trans h.cycles
  platform := k.platform.trans h.platform
  banks := k.banks.trans h.banks
  memWf := fun w => k.memWf (h.memWf w)
  fabricWf := fun w => k.fabricWf (h.fabricWf w)
  delivering := k.delivering.trans h.delivering
  wireIds := k.wireIds.trans h.wireIds

/-- Replacing a wire renames none. -/
theorem Fabric.setWire_ids (f : Fabric) (w : Wire) : (f.setWire w).wires.map Wire.id = f.wires.map Wire.id := by
  simp only [Fabric.setWire, List.map_map]
  refine List.map_congr_left fun u _ => ?_
  by_cases h : u.id = w.id <;> simp [h]

/-- Replacing a wire by one of its own identifier, source, sinks and width keeps the wires well formed. -/
theorem Fabric.setWire_wf {f : Fabric} (hf : f.wf = true) {w : Wire} (hw : w ∈ f.wires) {w' : Wire} (hid : w'.id = w.id)
    (hs : w'.source = w.source) (hk : w'.sinks = w.sinks) (hv : isWide w'.value = isWide w.value) :
    (f.setWire w').wf = true := by
  simp only [Fabric.wf, Bool.and_eq_true, decide_eq_true_eq] at hf ⊢
  have hmap : ∀ u ∈ f.wires, (if u.id = w'.id then w' else u).id = u.id ∧ (if u.id = w'.id then w' else u).source = u.source ∧
      (if u.id = w'.id then w' else u).sinks = u.sinks ∧
      isWide (if u.id = w'.id then w' else u).value = isWide u.value := by
    intro u hu
    split
    · next h =>
      have : u = w := List.inj_on_of_nodup_map hf.1.1 hu hw (h.trans hid)
      subst this
      exact ⟨hid, hs, hk, hv⟩
    · exact ⟨rfl, rfl, rfl, rfl⟩
  refine ⟨⟨?_, ?_⟩, ?_⟩
  · rw [Fabric.setWire_ids]
    exact hf.1.1
  · have e2 : (f.setWire w').wires.filterMap Wire.source = f.wires.filterMap Wire.source := by
      simp only [Fabric.setWire, List.filterMap_map]
      exact List.filterMap_congr fun u hu => (hmap u hu).2.1
    rw [e2]
    exact hf.1.2
  · simp only [Fabric.setWire, List.all_map, List.all_eq_true] at hf ⊢
    intro u hu
    obtain ⟨-, -, h3, h4⟩ := hmap u hu
    simp only [Function.comp_apply, h3, h4]
    exact List.all_eq_true.2 (hf.2 u hu)

theorem Fabric.wireOfSource_mem {f : Fabric} {e : EndpointId} {w : Wire} (h : f.wireOfSource e = some w) :
    w ∈ f.wires ∧ w.source = some e := by
  unfold Fabric.wireOfSource at h
  exact ⟨List.mem_of_find?_eq_some h, by simpa using List.find?_some h⟩

/-- A delivery inside a callback, where a rising clock edge is refused. -/
theorem delivered_bystander {e : Refusal} : Delivered (fun _ => .refused e) Bystander where
  refl := Bystander.refl
  trans := fun _ _ _ => Bystander.trans
  lines := fun s l => { Bystander.refl s with }
  world := fun s w => { Bystander.refl s with }
  stop := fun s => { Bystander.refl s with }
  value := fun s src w v hw hv =>
    { Bystander.refl s with
      fabricWf := fun h => Fabric.setWire_wf h (Fabric.wireOfSource_mem hw).1 rfl rfl rfl hv
      wireIds := Fabric.setWire_ids _ _ }
  nested := fun s t id h =>
    { h with
      delivering := by
        have := h.delivering
        simp only [State.setFabric] at this ⊢
        rw [this]
        rfl }
  rise := fun _ _ h => by cases h

theorem handlerCall_bystander {c : HandlerCall} {s t : State} (h : handlerCall c s = .next t) : Bystander s t := by
  unfold handlerCall at h
  split at h
  · split at h
    · next m hm =>
      cases h
      exact
        { Bystander.refl s with
          banks := by
            unfold Memory.switch at hm
            split at hm
            · cases hm
            · split at hm
              · cases hm
                rfl
              · cases hm
          memWf := fun w => Memory.switch_wf w hm }
    · cases h
      exact Bystander.refl s
  · cases h
    exact { Bystander.refl s with }
  · exact delivered_bystander.write h
  · cases h

theorem callbacks_bystander {cs : List HandlerCall} {s t : State} (h : runAll handlerCall cs s = .next t) : Bystander s t :=
  runAll_rel Bystander.refl (fun _ _ _ => Bystander.trans) (fun _ _ _ _ hc => handlerCall_bystander hc) h

/-! ## The two accesses -/

/-- A read is one cycle and otherwise a callback at most (R46). -/
theorem busRead_bystander {a : Addr} {v : Byte} {s t : State} (h : busRead a s = .next (v, t)) : Bystander s.addCycle t := by
  unfold busRead at h
  split at h
  · cases h
    exact Bystander.refl _
  · split at h
    · cases h
      exact Bystander.refl _
    · cases h
      exact Bystander.refl _
    · split at h
      · cases h
      · next v' calls w _ =>
        obtain ⟨u, h1, h2⟩ := andThen_eq_next.1 h
        cases h2
        exact Bystander.trans (t := s.addCycle.setWorld w) { Bystander.refl s.addCycle with } (callbacks_bystander h1)

/-- A write is one cycle, and either the store of a byte or a callback at most (R47). -/
theorem busWrite_bystander {a : Addr} {v : Byte} {s t : State} (h : busWrite a v s = .next t) :
    t = s.addCycle.setMem (s.mem.poke a v) ∨ Bystander s.addCycle t := by
  unfold busWrite at h
  split at h
  · cases h
    exact .inr (Bystander.refl _)
  · next b hb =>
    split at h
    · next hk =>
      cases h
      left
      simp [Memory.poke, hb, hk]
    · cases h
      exact .inr (Bystander.refl _)
    · split at h
      · cases h
      · next calls w _ =>
        exact .inr (Bystander.trans (t := s.addCycle.setWorld w) { Bystander.refl s.addCycle with } (callbacks_bystander h))

/-! ## An access does not depend on the registers -/

/-- The registers, flags and latches of the sequence, as another state has them. -/
def State.putCpu (c s : State) : State :=
  { s with a := c.a, x := c.x, y := c.y, sp := c.sp, pc := c.pc, p := c.p, micro := c.micro }

/-- It makes no difference whether the registers change before or after. -/
def Unread (f : State → Res State) : Prop :=
  ∀ c s : State, f (State.putCpu c s) = andThen (f s) fun t => .next (State.putCpu c t)

theorem unread_refused (e : Refusal) : Unread fun _ => .refused e := fun _ _ => rfl

theorem unread_runAll {α : Type} {f : α → State → Res State} {xs : List α} (h : ∀ x ∈ xs, Unread (f x)) :
    Unread (runAll f xs) := by
  induction xs with
  | nil => exact fun _ _ => rfl
  | cons x xs ih =>
    intro c s
    rw [runAll_cons, runAll_cons, h x (by simp) c s]
    cases f x s with
    | next t => exact ih (fun y hy => h y (by simp [hy])) c t
    | fault k => rfl
    | refused e => rfl

theorem unread_during {id : WireId} {f : State → Res State} (h : Unread f) : Unread (whileDelivering id f) := by
  intro c s
  have := h c (s.setFabric { s.fabric with delivering := id :: s.fabric.delivering })
  unfold whileDelivering
  rw [show (State.putCpu c s).setFabric { (State.putCpu c s).fabric with delivering := id :: (State.putCpu c s).fabric.delivering } =
    State.putCpu c (s.setFabric { s.fabric with delivering := id :: s.fabric.delivering }) from rfl, this]
  cases f (s.setFabric { s.fabric with delivering := id :: s.fabric.delivering }) <;> rfl

theorem unread_cpuInput {e : Refusal} (port : CpuPort) (v : Bool) : Unread (cpuInput (fun _ => .refused e) port v) := by
  intro c s
  cases port with
  | clock =>
    simp only [cpuInput, onClock, show (State.putCpu c s).lines = s.lines from rfl]
    split <;> rfl
  | irq => rfl
  | nmi => rfl
  | reset => rfl

theorem unread_deliver {e : Refusal} {write : EndpointId → Signal → State → Res State} (hw : ∀ e v, Unread (write e v))
    (v : Signal) (k : Sink) : Unread (deliverTo (fun _ => .refused e) write v k) := by
  obtain ⟨end_, action⟩ := k
  cases action with
  | cpu port =>
    cases v with
    | bit b => exact unread_cpuInput port b
    | byte _ => exact fun _ _ => rfl
  | component n wide =>
    intro c s
    refine unread_runAll (fun x _ => ?_) c (s.setWorld (Config.onValue s.world n v).after)
    cases x with
    | stop => exact fun _ _ => rfl
    | writeWire e u => exact hw e u

theorem unread_writeWith {e : Refusal} (n : Nat) (src : EndpointId) (v : Signal) :
    Unread (writeWireWith (fun _ => .refused e) n src v) := by
  induction n generalizing src v with
  | zero => exact fun _ _ => rfl
  | succ n ih =>
    intro c s
    unfold writeWireWith
    rw [show (State.putCpu c s).fabric = s.fabric from rfl]
    split
    · rfl
    · next w _ =>
      split
      · rfl
      · split
        · rfl
        · exact unread_during (unread_runAll fun k _ => unread_deliver (fun e v => ih e v) v k) c
            (s.setFabric (s.fabric.setWire { w with value := v }))

theorem unread_handlerCall (call : HandlerCall) : Unread (handlerCall call) := by
  intro c s
  unfold handlerCall
  split
  · rw [show (State.putCpu c s).mem = s.mem from rfl]
    split <;> rfl
  · rfl
  · exact unread_writeWith _ _ _ c s
  · rfl

/-- A read answers the same whatever the registers hold (R46, R52). -/
theorem busRead_putCpu (a : Addr) (c s : State) :
    busRead a (State.putCpu c s) = andThen (busRead a s) fun r => .next (r.1, State.putCpu c r.2) := by
  unfold busRead
  rw [show (State.putCpu c s).mem = s.mem from rfl, show (State.putCpu c s).world = s.world from rfl]
  split
  · rfl
  · split
    · rfl
    · rfl
    · split
      · rfl
      · next v calls w _ =>
        rw [show (State.putCpu c s).addCycle.setWorld w = State.putCpu c (s.addCycle.setWorld w) from rfl,
          unread_runAll (fun x _ => unread_handlerCall x) c (s.addCycle.setWorld w)]
        cases runAll handlerCall calls (s.addCycle.setWorld w) <;> rfl

/-- A write does the same whatever the registers hold (R47, R52). -/
theorem busWrite_putCpu (a : Addr) (v : Byte) : Unread (busWrite a v) := by
  intro c s
  unfold busWrite
  rw [show (State.putCpu c s).mem = s.mem from rfl, show (State.putCpu c s).world = s.world from rfl]
  split
  · rfl
  · split
    · rfl
    · rfl
    · split
      · rfl
      · next calls w _ => exact unread_runAll (fun x _ => unread_handlerCall x) c (s.addCycle.setWorld w)

end Sys2Proof.Machine
end

