-- ==== Sys2Proof/Laws/Decode.lean ====
section
/-! SUPPORT. The decoder and the encoder (R70, R71, R85 to R88): the opcode map is one to one and leaves out the illegal bytes;
the bytes of an instruction of a cell of R86, and what decoding them answers. -/

namespace Sys2Proof

open Machine (lo hi cat cat_hi_lo)

/-- The opcode map leaves out exactly the illegal bytes, byte by byte (R87). -/
theorem lookup_lt : ∀ n < 256, ((lookup (BitVec.ofNat 8 n)).isNone = isIllegal (BitVec.ofNat 8 n)) := by
  decide +kernel

/-- A byte has no cell of R86 exactly where it is illegal (R87). -/
theorem lookup_none (b : Byte) : lookup b = none ↔ isIllegal b = true := by
  have := lookup_lt b.toNat b.isLt
  simp at this
  rw [← this]; simp

theorem roundtrip_lt : ∀ n < 256, (match lookup (BitVec.ofNat 8 n) with | none => true | some op => codeOf op == some (BitVec.ofNat 8 n)) = true := by
  decide +kernel

/-- The code of a byte's cell is the byte. -/
theorem codeOf_lookup {b : Byte} {op : Op} (h : lookup b = some op) : codeOf op = some b := by
  have := roundtrip_lt b.toNat b.isLt
  simp at this
  rw [h] at this
  simpa using this

theorem lookup_rows : ∀ r ∈ opcodeRows, lookup (BitVec.ofNat 8 r.1) = some r.2 := by decide +kernel

/-- The cell of a cell's code is the cell. -/
theorem lookup_codeOf {b : Byte} {op : Op} (h : codeOf op = some b) : lookup b = some op := by
  unfold codeOf at h
  obtain ⟨r, h1, rfl⟩ := Option.map_eq_some_iff.1 h
  have h2 : r.2 = op := by simpa using List.find?_some h1
  rw [← h2]
  exact lookup_rows r (List.mem_of_find?_eq_some h1)



theorem wf_instr (op : Op) (b1 b2 : Byte) : (op.instr b1 b2).wf = (op.instr 0 0).wf := by
  cases op with
  | read o k => cases o <;> cases k <;> rfl
  | write o k => cases o <;> cases k <;> rfl
  | rmw o k => cases o with
    | shift o => cases o <;> cases k <;> rfl
    | inc => rfl
    | dec => rfl
  | acc o => cases o <;> rfl
  | implied o => cases o <;> rfl
  | branch o => cases o <;> rfl
  | push o => cases o <;> rfl
  | pull o => cases o <;> rfl
  | _ => rfl

theorem op_instr (op : Op) (b1 b2 : Byte) : (op.instr b1 b2).op = some op := by
  cases op with
  | read o k => cases o <;> cases k <;> rfl
  | write o k => cases o <;> cases k <;> rfl
  | rmw o k => cases o with
    | shift o => cases o <;> cases k <;> rfl
    | inc => cases k <;> rfl
    | dec => cases k <;> rfl
  | acc o => cases o <;> rfl
  | implied o => cases o <;> rfl
  | branch o => cases o <;> rfl
  | push o => cases o <;> rfl
  | pull o => cases o <;> rfl
  | _ => rfl

theorem operandBytes_instr (op : Op) (b1 b2 : Byte) : (op.instr b1 b2).operandBytes = [b1, b2].take (op.length - 1) := by
  cases op with
  | read o k => cases o <;> cases k <;> simp [Op.instr, ReadOp.instr, ReadKind.mode, Instr.operandBytes, ReadMode.bytes, Op.length, ReadKind.length]
  | write o k => cases o <;> cases k <;> simp [Op.instr, WriteOp.instr, WriteKind.mode, Instr.operandBytes, WriteMode.bytes, Op.length, WriteKind.length]
  | rmw o k => cases o with
    | shift o => cases o <;> cases k <;> simp [Op.instr, RmwOp.instr, ShiftOp.instr, RmwKind.mode, Instr.operandBytes, ShiftMode.bytes, RmwMode.bytes, Op.length, RmwKind.length]
    | inc => cases k <;> simp [Op.instr, RmwOp.instr, ShiftOp.instr, RmwKind.mode, Instr.operandBytes, ShiftMode.bytes, RmwMode.bytes, Op.length, RmwKind.length]
    | dec => cases k <;> simp [Op.instr, RmwOp.instr, ShiftOp.instr, RmwKind.mode, Instr.operandBytes, ShiftMode.bytes, RmwMode.bytes, Op.length, RmwKind.length]
  | acc o => cases o <;> rfl
  | implied o => cases o <;> rfl
  | branch o => cases o <;> rfl
  | push o => cases o <;> rfl
  | pull o => cases o <;> rfl
  | jmpAbs => simp [Op.instr, Instr.operandBytes, Op.length]
  | jmpInd => simp [Op.instr, Instr.operandBytes, Op.length]
  | jsr => simp [Op.instr, Instr.operandBytes, Op.length]
  | _ => rfl

theorem rows_wf : ∀ r ∈ opcodeRows, (r.2.instr 0 0).wf = true := by decide +kernel

/-- What a cell of R86 and operand bytes make is a well-formed instruction. -/
theorem lookup_wf {b : Byte} {op : Op} (h : lookup b = some op) (b1 b2 : Byte) : (op.instr b1 b2).wf = true := by
  unfold lookup at h
  obtain ⟨r, h1, rfl⟩ := Option.map_eq_some_iff.1 h
  rw [wf_instr]
  exact rows_wf r (List.mem_of_find?_eq_some h1)

theorem length_cases (op : Op) : op.length = 1 ∨ op.length = 2 ∨ op.length = 3 := by
  cases op with
  | read o k => cases k <;> simp [Op.length, ReadKind.length]
  | write o k => cases k <;> simp [Op.length, WriteKind.length]
  | rmw o k => cases k <;> simp [Op.length, RmwKind.length]
  | _ => simp [Op.length]

/-- The bytes of the instruction of a cell: the code, then as many operand bytes as the length asks for. -/
theorem encode_instr {b : Byte} {op : Op} (h : lookup b = some op) (b1 b2 : Byte) :
    encode (op.instr b1 b2) = b :: [b1, b2].take (op.length - 1) := by
  have h1 := op_instr op b1 b2
  unfold encode
  split
  · next hi => rw [hi] at h1; cases h1
  · rw [h1, Option.bind_some, codeOf_lookup h]
    simp [operandBytes_instr]

/-- A documented opcode decodes where its operand bytes are there, and leaves the bytes after them (R88). -/
theorem decode_length (op : Op) {b : Byte} (h : lookup b = some op) (tail : List Byte) :
    (op.length ≤ tail.length + 1 → ∃ i, decode (b :: tail) = .ok (i, tail.drop (op.length - 1))) ∧ (tail.length + 1 < op.length → decode (b :: tail) = .error .missingOperand) := by
  simp only [decode, h]
  rcases length_cases op with e | e | e <;> rw [e]
  · simp
  · cases tail with
    | nil => simp
    | cons b1 tail => simp
  · cases tail with
    | nil => simp
    | cons b1 tail => cases tail with
      | nil => simp
      | cons b2 tail => simp

/-- Decoding the bytes of the instruction of a cell gives it back. -/
theorem decode_of {op : Op} {c : Byte} (hc : codeOf op = some c) (b1 b2 : Byte) (rest : List Byte) :
    decode (encode (op.instr b1 b2) ++ rest) = .ok (op.instr (if op.length = 1 then 0 else b1) (if op.length = 3 then b2 else 0), rest) := by
  have hl := lookup_codeOf hc
  rw [encode_instr hl]
  simp only [decode, List.cons_append, hl]
  rcases length_cases op with e | e | e <;> simp [e]

theorem decode_len1 {op : Op} {c : Byte} {i : Instr} (hc : codeOf op = some c) (hi : i = op.instr 0 0) (he : op.length = 1) (rest : List Byte) :
    decode (encode i ++ rest) = .ok (i, rest) := by
  rw [hi, decode_of hc, he]; rfl

theorem decode_len2 {op : Op} {c : Byte} {i : Instr} (b : Byte) (hc : codeOf op = some c) (hi : i = op.instr b 0) (he : op.length = 2) (rest : List Byte) :
    decode (encode i ++ rest) = .ok (i, rest) := by
  rw [hi, decode_of hc, he]; rfl

theorem decode_len3 {op : Op} {c : Byte} {i : Instr} (w : Addr) (hc : codeOf op = some c) (hi : i = op.instr (lo w) (hi w)) (he : op.length = 3) (rest : List Byte) :
    decode (encode i ++ rest) = .ok (i, rest) := by
  rw [hi, decode_of hc, he]; rfl



theorem decode_read (o : ReadOp) (m : ReadMode) (rest : List Byte) (h : (codeOf (.read o m.kind)).isSome = true) :
    decode (encode (o.instr m) ++ rest) = .ok (o.instr m, rest) := by
  obtain ⟨c, hc⟩ := Option.isSome_iff_exists.1 h
  cases m with
  | abs w => exact decode_len3 w hc (by simp [Op.instr, ReadMode.kind, ReadKind.mode]) rfl rest
  | abx w => exact decode_len3 w hc (by simp [Op.instr, ReadMode.kind, ReadKind.mode]) rfl rest
  | aby w => exact decode_len3 w hc (by simp [Op.instr, ReadMode.kind, ReadKind.mode]) rfl rest
  | imm b => exact decode_len2 b hc rfl rfl rest
  | zp b => exact decode_len2 b hc rfl rfl rest
  | zpx b => exact decode_len2 b hc rfl rfl rest
  | zpy b => exact decode_len2 b hc rfl rfl rest
  | izx b => exact decode_len2 b hc rfl rfl rest
  | izy b => exact decode_len2 b hc rfl rfl rest

theorem decode_write (o : WriteOp) (m : WriteMode) (rest : List Byte) (h : (codeOf (.write o m.kind)).isSome = true) :
    decode (encode (o.instr m) ++ rest) = .ok (o.instr m, rest) := by
  obtain ⟨c, hc⟩ := Option.isSome_iff_exists.1 h
  cases m with
  | abs w => exact decode_len3 w hc (by simp [Op.instr, WriteMode.kind, WriteKind.mode]) rfl rest
  | abx w => exact decode_len3 w hc (by simp [Op.instr, WriteMode.kind, WriteKind.mode]) rfl rest
  | aby w => exact decode_len3 w hc (by simp [Op.instr, WriteMode.kind, WriteKind.mode]) rfl rest
  | zp b => exact decode_len2 b hc rfl rfl rest
  | zpx b => exact decode_len2 b hc rfl rfl rest
  | zpy b => exact decode_len2 b hc rfl rfl rest
  | izx b => exact decode_len2 b hc rfl rfl rest
  | izy b => exact decode_len2 b hc rfl rfl rest

theorem decode_rmw (o : RmwOp) (m : RmwMode) (rest : List Byte) (h : (codeOf (.rmw o m.kind)).isSome = true) :
    decode (encode (o.instr m) ++ rest) = .ok (o.instr m, rest) := by
  obtain ⟨c, hc⟩ := Option.isSome_iff_exists.1 h
  cases m with
  | abs w => exact decode_len3 w hc (by simp [Op.instr, RmwMode.kind, RmwKind.mode]) rfl rest
  | abx w => exact decode_len3 w hc (by simp [Op.instr, RmwMode.kind, RmwKind.mode]) rfl rest
  | zp b => exact decode_len2 b hc rfl rfl rest
  | zpx b => exact decode_len2 b hc rfl rfl rest

theorem decode_shift (o : ShiftOp) (m : ShiftMode) (rest : List Byte) :
    decode (encode (o.instr m) ++ rest) = .ok (o.instr m, rest) := by
  cases m with
  | acc =>
    obtain ⟨c, hc⟩ : ∃ c, codeOf (.acc o) = some c := by cases o <;> exact ⟨_, rfl⟩
    exact decode_len1 hc (by cases o <;> rfl) rfl rest
  | mem m => exact decode_rmw (.shift o) m rest (by cases o <;> cases m <;> rfl)

end Sys2Proof
end

