-- ==== Sys2Proof/Laws/Operands.lean ====
section
/-! SUPPORT. The addressing modes over storage: what each answers and that it changes nothing but the cycle count and the
latches of the microexecution state. -/

namespace Sys2Proof.Machine

/-- `t` is `s` after `n` more cycles; the latches may differ, `cycle_index` apart. -/
def Passed (n : Nat) (s t : State) : Prop :=
  t = { s with cycles := s.cycles + n, micro := t.micro } ∧ t.micro.cycleIndex = s.micro.cycleIndex

theorem Passed.refl (s : State) : Passed 0 s s := ⟨rfl, rfl⟩

theorem Passed.of_eq {m n : Nat} {s t : State} (h : Passed m s t) (e : m = n) : Passed n s t := e ▸ h

theorem Passed.trans {m n : Nat} {s t u : State} (h : Passed m s t) (k : Passed n t u) : Passed (m + n) s u := by
  refine ⟨?_, k.2.trans h.2⟩
  rw [k.1, h.1]
  simp [Nat.add_assoc]

theorem Passed.latch {n : Nat} {s t : State} (h : Passed n s t) {μ : Micro} (hc : μ.cycleIndex = t.micro.cycleIndex) :
    Passed n s (t.setMicro μ) := h.trans (n := 0) ⟨rfl, hc⟩

theorem Passed.tick {n : Nat} {s t : State} (h : Passed n s t) : Passed (n + 1) s t.addCycle := h.trans ⟨rfl, rfl⟩

theorem Passed.indexLow {n : Nat} {s t : State} (h : Passed n s t) (i : Index) : Passed n s (t.indexLow i) :=
  (h.latch (μ := _) rfl).latch rfl

theorem Passed.mem {n : Nat} {s t : State} (h : Passed n s t) : t.mem = s.mem := by rw [h.1]

theorem Passed.noHandler {n : Nat} {s t : State} (h : Passed n s t) {a : Addr} (ha : s.noHandler a) : t.noHandler a := by
  unfold State.noHandler at *
  rwa [h.mem]

theorem Passed.shownByte {n : Nat} {s t : State} (h : Passed n s t) (a : Addr) : shownByte t a = shownByte s a :=
  shownByte_congr h.mem a

theorem Passed.x {n : Nat} {s t : State} (h : Passed n s t) : t.x = s.x := by rw [h.1]

theorem Passed.y {n : Nat} {s t : State} (h : Passed n s t) : t.y = s.y := by rw [h.1]

theorem Passed.visible {n : Nat} {s t : State} (h : Passed n s t) :
    t.visible = { s with cycles := s.cycles + n : State }.visible := by
  obtain ⟨h1, h2⟩ := h
  rw [State.visible, State.visible, h2, h1]

/-! ## The latches along the way -/

theorem indexZeroPage_noHandler (i : Index) {s : State} (h : s.noHandler (zeroPage s.micro.adl)) :
    indexZeroPage i s = .next (s.addCycle.setAdl (s.micro.adl + i.value s)) := by
  rw [indexZeroPage, discardRead_noHandler h]
  cases i <;> rfl

theorem fixPage_noHandler {s : State} (h : s.noHandler s.latchedAddr) :
    fixPage s = .next (if s.micro.pageCross then s.addCycle.nextPage else s.addCycle) := by
  rw [fixPage, discardRead_noHandler h]
  rfl

/-- The address after the page fix is the indexed one (R206, R207, R211). -/
theorem fixPage_indexed {w : Addr} {i : Index} {s : State} (hl : s.micro.adl = lo w) (hh : s.micro.adh = hi w)
    (h : s.noHandler (uncorrected w (i.value s))) :
    ∃ t, fixPage (s.indexLow i) = .next t ∧ t.latchedAddr = indexed w (i.value s) ∧ Passed 1 s t := by
  have ha : (s.indexLow i).latchedAddr = uncorrected w (i.value s) := by
    simp [State.latchedAddr, State.indexLow, State.setAdl, State.setPageCross, hl, hh, uncorrected]
  have hn : (s.indexLow i).noHandler (s.indexLow i).latchedAddr := by rw [ha]; exact h
  rw [fixPage_noHandler hn]
  refine ⟨_, rfl, ?_, ?_⟩
  · by_cases hc : 256 ≤ (lo w).toNat + (i.value s).toNat
    · have : (s.indexLow i).micro.pageCross = true := by
        simp [State.indexLow, State.setAdl, State.setPageCross, hl, carries, hc]
      rw [if_pos this]
      simpa [State.nextPage, State.latchedAddr, State.indexLow, State.setAdh, State.setAdl, State.setPageCross, hl, hh] using
        cat_carry hc
    · have : (s.indexLow i).micro.pageCross = false := by
        simp [State.indexLow, State.setAdl, State.setPageCross, hl, carries]
        omega
      rw [this, ← uncorrected_eq (by omega)]
      exact ha
  · split
    · exact ⟨rfl, rfl⟩
    · exact ⟨rfl, rfl⟩

theorem readData_noHandler {a : Addr} {s : State} (h : s.noHandler a) :
    readData a s = .next (shownByte s a, s.addCycle.setOperand (shownByte s a)) := by
  rw [readData, busRead_noHandler h]
  rfl

/-- The reads of an indexed read answer the byte at the indexed address (R205, R210). -/
theorem readIndexed_noHandler {w : Addr} {i : Index} {s : State} (hl : s.micro.adl = lo w) (hh : s.micro.adh = hi w)
    (h : ∀ a ∈ indexedReads w (i.value s), s.noHandler a) :
    ∃ t, readIndexed (s.indexLow i) = .next (shownByte s (indexed w (i.value s)), t) ∧
      Passed (indexedReads w (i.value s)).length s t := by
  have ha : (s.indexLow i).latchedAddr = uncorrected w (i.value s) := by
    simp [State.latchedAddr, State.indexLow, State.setAdl, State.setPageCross, hl, hh, uncorrected]
  unfold indexedReads at *
  by_cases hc : 256 ≤ (lo w).toNat + (i.value s).toNat
  · rw [if_pos hc] at h ⊢
    have hp : (s.indexLow i).micro.pageCross = true := by
      simp [State.indexLow, State.setAdl, State.setPageCross, hl, carries, hc]
    have h1 : (s.indexLow i).noHandler (s.indexLow i).latchedAddr := by rw [ha]; exact h _ (by simp)
    rw [readIndexed, readData_noHandler h1, andThen_next]
    generalize hv : shownByte (s.indexLow i) (s.indexLow i).latchedAddr = v
    change ∃ t, (if (s.indexLow i).micro.pageCross then _ else _) = _ ∧ _
    rw [if_pos hp]
    have he : ((s.indexLow i).addCycle.setOperand v).nextPage.latchedAddr = indexed w (i.value s) := by
      simpa [State.nextPage, State.latchedAddr, State.indexLow, State.setAdh, State.setAdl, State.setPageCross,
        State.setOperand, hl, hh] using cat_carry hc
    have hpass : Passed 1 s ((s.indexLow i).addCycle.setOperand v).nextPage :=
      (((Passed.refl s).indexLow i).tick.latch (μ := _) rfl).latch rfl
    rw [he, readData_noHandler (hpass.noHandler (h (indexed w (i.value s)) (by simp))), hpass.shownByte]
    exact ⟨_, rfl, hpass.tick.latch rfl⟩
  · rw [if_neg hc] at h ⊢
    have hp : (s.indexLow i).micro.pageCross = false := by
      simp [State.indexLow, State.setAdl, State.setPageCross, hl, carries]
      omega
    have he : (s.indexLow i).latchedAddr = indexed w (i.value s) := by rw [ha, uncorrected_eq (by omega)]
    have h1 : (s.indexLow i).noHandler (s.indexLow i).latchedAddr := by rw [he]; exact h _ (by simp)
    rw [readIndexed, readData_noHandler h1, andThen_next]
    generalize hv : shownByte (s.indexLow i) (s.indexLow i).latchedAddr = v
    change ∃ t, (if (s.indexLow i).micro.pageCross then _ else _) = _ ∧ _
    have hpass : Passed 0 s (s.indexLow i) := ⟨rfl, rfl⟩
    rw [hp, ← hv, he, hpass.shownByte]
    exact ⟨_, rfl, ⟨rfl, rfl⟩⟩

/-- The pointer bytes from page zero (R208, R210). -/
theorem readPointer_noHandler {z : Byte} {s : State} (hp : s.micro.ptr = zeroPage z) (h0 : s.noHandler (zeroPage z))
    (h1 : s.noHandler (zeroPage (z + 1))) :
    ∃ t, readPointer s = .next t ∧ t.micro.adl = lo (pointerAt s z) ∧ t.micro.adh = hi (pointerAt s z) ∧ Passed 2 s t := by
  rw [readPointer, hp, busRead_noHandler h0, andThen_next]
  generalize hv : shownByte s (zeroPage z) = l
  have ha : (s.addCycle.setAdl l).pointerHigh = zeroPage (z + 1) := by
    simp [State.pointerHigh, State.setAdl, hp]
  change ∃ t, andThen (busRead (s.addCycle.setAdl l).pointerHigh (s.addCycle.setAdl l)) _ = _ ∧ _
  rw [ha, busRead_noHandler (s := s.addCycle.setAdl l) h1, andThen_next]
  refine ⟨_, rfl, ?_, ?_, ⟨rfl, rfl⟩⟩
  · simp [pointerAt, State.setAdh, State.setAdl, hv]
  · simp [pointerAt, State.setAdh, State.setAdl]
    rfl

/-- (zp,X) up to its pointer (R82, R208). -/
theorem indexedIndirect_noHandler {z : Byte} {s : State} (h0 : s.noHandler (zeroPage z))
    (h1 : s.noHandler (zeroPage (z + s.x))) (h2 : s.noHandler (zeroPage (z + s.x + 1))) :
    ∃ t, indexedIndirect z s = .next t ∧ t.latchedAddr = pointerAt s (z + s.x) ∧ Passed 3 s t := by
  rw [indexedIndirect]
  change ∃ t, andThen (discardRead (zeroPage z) (s.setPtr (zeroPage z))) _ = _ ∧ _
  rw [discardRead_noHandler (s := s.setPtr (zeroPage z)) h0, andThen_next]
  set u := (s.setPtr (zeroPage z)).addCycle with hu
  have hpass : Passed 1 s (u.setPtr (zeroPage (lo u.micro.ptr + u.x))) := ⟨rfl, rfl⟩
  have hx : zeroPage (lo u.micro.ptr + u.x) = zeroPage (z + s.x) := by simp [hu, State.setPtr]
  obtain ⟨t, ht, hl, hh, hp⟩ := readPointer_noHandler (z := z + s.x) (s := u.setPtr (zeroPage (lo u.micro.ptr + u.x)))
    (by simp [hx, State.setPtr]) (hpass.noHandler h1) (hpass.noHandler h2)
  refine ⟨t, ht, ?_, hpass.trans hp⟩
  rw [State.latchedAddr, hl, hh, cat_hi_lo, pointerAt, pointerAt, hpass.shownByte, hpass.shownByte]

/-- (zp),Y up to its low-byte sum (R83, R210). -/
theorem indirectIndexed_noHandler {z : Byte} {s : State} (h0 : s.noHandler (zeroPage z)) (h1 : s.noHandler (zeroPage (z + 1))) :
    ∃ t, indirectIndexed z s = .next (t.indexLow .y) ∧ t.micro.adl = lo (pointerAt s z) ∧ t.micro.adh = hi (pointerAt s z) ∧
      Passed 2 s t := by
  have hpass : Passed 0 s (s.setPtr (zeroPage z)) := ⟨rfl, rfl⟩
  obtain ⟨t, ht, hl, hh, hp⟩ := readPointer_noHandler (z := z) (s := s.setPtr (zeroPage z)) rfl (hpass.noHandler h0)
    (hpass.noHandler h1)
  rw [indirectIndexed, ht]
  exact ⟨t, rfl, hl, hh, by simpa using hpass.trans hp⟩

theorem Passed.index {n : Nat} {s t : State} (h : Passed n s t) (i : Index) : i.value t = i.value s := by
  cases i
  · exact h.x
  · exact h.y

theorem mem_congr_noHandler {s t : State} (h : t.mem = s.mem) {a : Addr} : t.noHandler a ↔ s.noHandler a := by
  unfold State.noHandler
  rw [h]

/-- The absolute address in the latches. -/
theorem setAddress_passed (s : State) (w : Addr) :
    Passed 0 s (s.setAddress w) ∧ (s.setAddress w).micro.adl = lo w ∧ (s.setAddress w).micro.adh = hi w :=
  ⟨⟨rfl, rfl⟩, rfl, rfl⟩

/-! ## The three classes -/

/-- The operand byte of the read class over storage: the byte of the effective address, and nothing else changes but the
cycle count (R74 to R83). -/
theorem readOperand_noHandler (m : ReadMode) {s : State} (h : ∀ a ∈ readAccesses m s, s.noHandler a) :
    ∃ t, readOperand m s = .next (operandByte m s, t) ∧ Passed (readAccesses m s).length s t := by
  have hzp : ∀ (i : Index) (z : Byte), s.noHandler (zeroPage z) → s.noHandler (zeroPage (z + i.value s)) →
      ∃ t, (andThen (indexZeroPage i (s.setAdl z)) fun s => readData (zeroPage s.micro.adl) s) =
        .next (shownByte s (zeroPage (z + i.value s)), t) ∧ Passed 2 s t := by
    intro i z h0 h1
    have hp : Passed 1 s ((s.setAdl z).addCycle.setAdl (z + i.value s)) := ⟨rfl, rfl⟩
    rw [indexZeroPage_noHandler i (s := s.setAdl z) h0, andThen_next]
    have hv : i.value (s.setAdl z) = i.value s := by cases i <;> rfl
    rw [hv]
    change ∃ t, readData (zeroPage (z + i.value s)) ((s.setAdl z).addCycle.setAdl (z + i.value s)) = _ ∧ _
    rw [readData_noHandler (hp.noHandler h1), hp.shownByte]
    exact ⟨_, rfl, ⟨rfl, rfl⟩⟩
  have habs : ∀ (i : Index) (w : Addr), (∀ a ∈ indexedReads w (i.value s), s.noHandler a) →
      ∃ t, readIndexed ((s.setAddress w).indexLow i) = .next (shownByte s (indexed w (i.value s)), t) ∧
        Passed (indexedReads w (i.value s)).length s t := by
    intro i w h
    obtain ⟨hp, hl, hh⟩ := setAddress_passed s w
    have hv : i.value (s.setAddress w) = i.value s := hp.index i
    obtain ⟨t, ht, hpt⟩ := readIndexed_noHandler (i := i) hl hh (by rw [hv]; exact fun a ha => hp.noHandler (h a ha))
    rw [hv] at ht hpt
    exact ⟨t, by rw [ht, hp.shownByte], by simpa using hp.trans hpt⟩
  cases m with
  | imm v => exact ⟨_, rfl, ⟨rfl, rfl⟩⟩
  | zp z =>
    refine ⟨_, readData_noHandler (s := s.setAdl z) (h (zeroPage z) (by simp [readAccesses])), ⟨rfl, rfl⟩⟩
  | zpx z => exact hzp .x z (h _ (by simp [readAccesses])) (h _ (by simp [readAccesses, Index.value]))
  | zpy z => exact hzp .y z (h _ (by simp [readAccesses])) (h _ (by simp [readAccesses, Index.value]))
  | abs w => exact ⟨_, readData_noHandler (s := s.setAddress w) (h w (by simp [readAccesses])), ⟨rfl, rfl⟩⟩
  | abx w => exact habs .x w h
  | aby w => exact habs .y w h
  | izx z =>
    obtain ⟨t, ht, ha, hp⟩ := indexedIndirect_noHandler (z := z) (h _ (by simp [readAccesses])) (h _ (by simp [readAccesses]))
      (h _ (by simp [readAccesses]))
    have hl : t.noHandler (pointerAt s (z + s.x)) := hp.noHandler (h _ (by simp [readAccesses]))
    simp only [readOperand, ht, andThen_next, ha]
    rw [readData_noHandler hl, hp.shownByte]
    exact ⟨_, rfl, hp.trans (n := 1) ⟨rfl, rfl⟩⟩
  | izy z =>
    obtain ⟨t, ht, hl, hh, hp⟩ := indirectIndexed_noHandler (s := s) (z := z) (h _ (by simp [readAccesses]))
      (h _ (by simp [readAccesses]))
    have hy : Index.y.value t = s.y := hp.y
    obtain ⟨u, hu, hpu⟩ := readIndexed_noHandler (i := .y) hl hh (by
      rw [hy]
      exact fun a ha => hp.noHandler (h a (by simp [readAccesses, ha])))
    rw [hy] at hu hpu
    simp only [readOperand, ht, andThen_next, hu]
    rw [hp.shownByte]
    exact ⟨u, rfl, (hp.trans hpu).of_eq (by simp [readAccesses]; omega)⟩

theorem zeroPageAddress_noHandler (i : Index) (z : Byte) {s : State} (h : s.noHandler (zeroPage z)) :
    ∃ t, (andThen (indexZeroPage i (s.setAdl z)) fun s => .next (zeroPage s.micro.adl, s)) =
      .next (zeroPage (z + i.value s), t) ∧ Passed 1 s t := by
  rw [indexZeroPage_noHandler i (s := s.setAdl z) h, andThen_next]
  have hv : i.value (s.setAdl z) = i.value s := by cases i <;> rfl
  rw [hv]
  exact ⟨_, rfl, ⟨rfl, rfl⟩⟩

theorem absoluteAddress_noHandler (i : Index) (w : Addr) {s : State} (h : s.noHandler (uncorrected w (i.value s))) :
    ∃ t, (andThen (fixPage ((s.setAddress w).indexLow i)) fun s => .next (s.latchedAddr, s)) =
      .next (indexed w (i.value s), t) ∧ Passed 1 s t := by
  obtain ⟨hp, hl, hh⟩ := setAddress_passed s w
  have hv : i.value (s.setAddress w) = i.value s := hp.index i
  obtain ⟨t, ht, ha, hpt⟩ := fixPage_indexed (i := i) hl hh (by rw [hv]; exact hp.noHandler h)
  rw [hv] at ha
  exact ⟨t, by rw [ht, andThen_next, ha], (hp.trans hpt).of_eq (by simp)⟩

/-- The address of a store over storage (R75 to R83), before its write. -/
theorem writeAddress_noHandler (m : WriteMode) {s : State} (h : ∀ a ∈ storeAccesses m s, s.noHandler a) :
    ∃ t n, writeAddress m s = .next (storeEa m s, t) ∧ Passed n s t ∧ n + 1 = (storeAccesses m s).length := by
  cases m with
  | zp z => exact ⟨_, 0, rfl, ⟨rfl, rfl⟩, rfl⟩
  | zpx z =>
    obtain ⟨t, ht, hp⟩ := zeroPageAddress_noHandler .x z (h _ (by simp [storeAccesses]))
    exact ⟨t, 1, ht, hp, rfl⟩
  | zpy z =>
    obtain ⟨t, ht, hp⟩ := zeroPageAddress_noHandler .y z (h _ (by simp [storeAccesses]))
    exact ⟨t, 1, ht, hp, rfl⟩
  | abs w => exact ⟨_, 0, rfl, ⟨rfl, rfl⟩, rfl⟩
  | abx w =>
    obtain ⟨t, ht, hp⟩ := absoluteAddress_noHandler .x w (s := s) (h _ (by simp [storeAccesses, Index.value]))
    exact ⟨t, 1, ht, hp, rfl⟩
  | aby w =>
    obtain ⟨t, ht, hp⟩ := absoluteAddress_noHandler .y w (s := s) (h _ (by simp [storeAccesses, Index.value]))
    exact ⟨t, 1, ht, hp, rfl⟩
  | izx z =>
    obtain ⟨t, ht, ha, hp⟩ := indexedIndirect_noHandler (z := z) (h _ (by simp [storeAccesses])) (h _ (by simp [storeAccesses]))
      (h _ (by simp [storeAccesses]))
    exact ⟨t, 3, by simp only [writeAddress, ht, andThen_next, ha, storeEa], hp, rfl⟩
  | izy z =>
    obtain ⟨t, ht, hl, hh, hp⟩ := indirectIndexed_noHandler (s := s) (z := z) (h _ (by simp [storeAccesses]))
      (h _ (by simp [storeAccesses]))
    have hy : Index.y.value t = s.y := hp.y
    obtain ⟨u, hu, ha, hpu⟩ := fixPage_indexed (i := .y) hl hh (by
      rw [hy]
      exact hp.noHandler (h _ (by simp [storeAccesses])))
    rw [hy] at ha
    exact ⟨u, 3, by simp only [writeAddress, ht, andThen_next, hu, ha, storeEa], hp.trans hpu, rfl⟩

/-- The address of an RMW instruction over storage (R75, R76, R78, R79), before its read. -/
theorem rmwAddress_noHandler (m : RmwMode) {s : State} (h : ∀ a ∈ rmwAccesses m s, s.noHandler a) :
    ∃ t n, rmwAddress m s = .next (rmwEa m s, t) ∧ Passed n s t ∧ n + 3 = (rmwAccesses m s).length := by
  cases m with
  | zp z => exact ⟨_, 0, rfl, ⟨rfl, rfl⟩, rfl⟩
  | zpx z =>
    obtain ⟨t, ht, hp⟩ := zeroPageAddress_noHandler .x z (h _ (by simp [rmwAccesses, rmwBefore]))
    exact ⟨t, 1, ht, hp, rfl⟩
  | abs w => exact ⟨_, 0, rfl, ⟨rfl, rfl⟩, rfl⟩
  | abx w =>
    obtain ⟨t, ht, hp⟩ := absoluteAddress_noHandler .x w (s := s) (h _ (by simp [rmwAccesses, rmwBefore, Index.value]))
    exact ⟨t, 1, ht, hp, rfl⟩

/-! ## The instructions of the three classes -/

/-- A read-class instruction over storage makes its effect in the state its accesses leave. -/
theorem readThen_noHandler (m : ReadMode) (f : Byte → State → State) {s : State} (h : ∀ a ∈ readAccesses m s, s.noHandler a) :
    ∃ t, readThen m f s = .next (f (operandByte m s) t) ∧ Passed (readAccesses m s).length s t := by
  obtain ⟨t, ht, hp⟩ := readOperand_noHandler m h
  exact ⟨t, by rw [readThen, ht]; rfl, hp⟩

/-- A store over storage. -/
theorem storeOperand_noHandler (m : WriteMode) (v : Byte) {s : State} (h : ∀ a ∈ storeAccesses m s, s.noHandler a) :
    ∃ t, storeOperand m v s = .next (t.setMem (s.mem.poke (storeEa m s) v)) ∧ Passed (storeAccesses m s).length s t := by
  obtain ⟨t, n, ht, hp, hn⟩ := writeAddress_noHandler m h
  have hl : t.noHandler (storeEa m s) := hp.noHandler (h _ (by cases m <;> simp [storeAccesses, storeEa]))
  refine ⟨t.addCycle, ?_, hp.tick.of_eq hn⟩
  rw [storeOperand, ht, andThen_next]
  change busWrite _ _ _ = _
  rw [busWrite_noHandler hl, hp.mem]

/-- A read-modify-write instruction over storage: the byte, its write back, the result (R43). -/
theorem modifyMemory_noHandler (m : RmwMode) (f : Byte → Flags → Byte × Flags) {s : State}
    (h : ∀ a ∈ rmwAccesses m s, s.noHandler a) :
    ∃ t, modifyMemory m f s =
        .next ((t.setP (f (shownByte s (rmwEa m s)) s.p).2).setMem
          ((s.mem.poke (rmwEa m s) (shownByte s (rmwEa m s))).poke (rmwEa m s) (f (shownByte s (rmwEa m s)) s.p).1)) ∧
      Passed (rmwAccesses m s).length s t := by
  obtain ⟨t, n, ht, hp, hn⟩ := rmwAddress_noHandler m h
  have hs : s.noHandler (rmwEa m s) := h _ (by cases m <;> simp [rmwAccesses, rmwBefore, rmwEa])
  have hl : t.noHandler (rmwEa m s) := hp.noHandler hs
  generalize rmwEa m s = a at *
  have hpp : t.p = s.p := by rw [hp.1]
  rw [modifyMemory, ht, andThen_next]
  change ∃ u, andThen (readData a t) _ = _ ∧ _
  rw [readData_noHandler hl, andThen_next, hp.shownByte]
  generalize shownByte s a = v
  change ∃ u, andThen (busWrite a v (t.addCycle.setOperand v)) _ = _ ∧ _
  rw [busWrite_noHandler (s := t.addCycle.setOperand v) hl, andThen_next]
  change ∃ u, busWrite a (f v t.p).1
    ((((t.addCycle.setOperand v).addCycle.setMem (t.mem.poke a v)).setOperand (f v t.p).1).setP (f v t.p).2) = _ ∧ _
  rw [busWrite_noHandler (by
    change ((t.mem.poke a v).peek a).isSome = true
    rw [isSome_peek_poke]
    exact hl), hpp]
  refine ⟨((t.addCycle.setOperand v).addCycle.setOperand (f v s.p).1).addCycle, ?_, ?_⟩
  · change Host.Outcome.next _ = Host.Outcome.next _
    simp only [State.setMem, State.setP, State.addCycle, State.setOperand, State.setMicro, hp.mem]
  · have h1 : Passed (n + 1) s (t.addCycle.setOperand v) := hp.tick.latch rfl
    have h2 : Passed (n + 2) s ((t.addCycle.setOperand v).addCycle.setOperand (f v s.p).1) := h1.tick.latch rfl
    exact h2.tick.of_eq hn

end Sys2Proof.Machine
end

