-- ==== Sys2Proof/Laws/PerInstr.lean ====
section
/-! SUPPORT. Per instruction: the encoding of a well-formed instruction is its opcode byte, which the opcode map of R86 gives
its mnemonic and mode, and as many operand bytes as the mode has (R70, R71, R88). -/

namespace Sys2Proof.Laws.OpcodeByte

/-- What is said of each instruction. -/
def Statement (i : Instr) : Prop :=
  i.wf = true →
    ∃ c : Byte, encode i = c :: i.operandBytes ∧ lookup c = i.op ∧
      match i.op with
      | some op => i.operandBytes.length + 1 = op.length
      | none => i.operandBytes = []

theorem lda (m : ReadMode) : Statement (.lda m) := by
  intro h
  cases m <;> first | exact ⟨_, rfl, rfl, rfl⟩ | cases h

theorem ldx (m : ReadMode) : Statement (.ldx m) := by
  intro h
  cases m <;> first | exact ⟨_, rfl, rfl, rfl⟩ | cases h

theorem ldy (m : ReadMode) : Statement (.ldy m) := by
  intro h
  cases m <;> first | exact ⟨_, rfl, rfl, rfl⟩ | cases h

theorem adc (m : ReadMode) : Statement (.adc m) := by
  intro h
  cases m <;> first | exact ⟨_, rfl, rfl, rfl⟩ | cases h

theorem sbc (m : ReadMode) : Statement (.sbc m) := by
  intro h
  cases m <;> first | exact ⟨_, rfl, rfl, rfl⟩ | cases h

theorem cmp (m : ReadMode) : Statement (.cmp m) := by
  intro h
  cases m <;> first | exact ⟨_, rfl, rfl, rfl⟩ | cases h

theorem cpx (m : ReadMode) : Statement (.cpx m) := by
  intro h
  cases m <;> first | exact ⟨_, rfl, rfl, rfl⟩ | cases h

theorem cpy (m : ReadMode) : Statement (.cpy m) := by
  intro h
  cases m <;> first | exact ⟨_, rfl, rfl, rfl⟩ | cases h

theorem and (m : ReadMode) : Statement (.and m) := by
  intro h
  cases m <;> first | exact ⟨_, rfl, rfl, rfl⟩ | cases h

theorem ora (m : ReadMode) : Statement (.ora m) := by
  intro h
  cases m <;> first | exact ⟨_, rfl, rfl, rfl⟩ | cases h

theorem eor (m : ReadMode) : Statement (.eor m) := by
  intro h
  cases m <;> first | exact ⟨_, rfl, rfl, rfl⟩ | cases h

theorem bit (m : ReadMode) : Statement (.bit m) := by
  intro h
  cases m <;> first | exact ⟨_, rfl, rfl, rfl⟩ | cases h

theorem sta (m : WriteMode) : Statement (.sta m) := by
  intro h
  cases m <;> first | exact ⟨_, rfl, rfl, rfl⟩ | cases h

theorem stx (m : WriteMode) : Statement (.stx m) := by
  intro h
  cases m <;> first | exact ⟨_, rfl, rfl, rfl⟩ | cases h

theorem sty (m : WriteMode) : Statement (.sty m) := by
  intro h
  cases m <;> first | exact ⟨_, rfl, rfl, rfl⟩ | cases h

theorem asl (m : ShiftMode) : Statement (.asl m) := by
  intro _
  obtain _ | m := m
  · exact ⟨_, rfl, rfl, rfl⟩
  · cases m <;> exact ⟨_, rfl, rfl, rfl⟩

theorem lsr (m : ShiftMode) : Statement (.lsr m) := by
  intro _
  obtain _ | m := m
  · exact ⟨_, rfl, rfl, rfl⟩
  · cases m <;> exact ⟨_, rfl, rfl, rfl⟩

theorem rol (m : ShiftMode) : Statement (.rol m) := by
  intro _
  obtain _ | m := m
  · exact ⟨_, rfl, rfl, rfl⟩
  · cases m <;> exact ⟨_, rfl, rfl, rfl⟩

theorem ror (m : ShiftMode) : Statement (.ror m) := by
  intro _
  obtain _ | m := m
  · exact ⟨_, rfl, rfl, rfl⟩
  · cases m <;> exact ⟨_, rfl, rfl, rfl⟩

theorem inc (m : RmwMode) : Statement (.inc m) := by
  intro _
  cases m <;> exact ⟨_, rfl, rfl, rfl⟩

theorem dec (m : RmwMode) : Statement (.dec m) := by
  intro _
  cases m <;> exact ⟨_, rfl, rfl, rfl⟩

theorem jmp (m : JumpMode) : Statement (.jmp m) := by
  intro _
  cases m <;> exact ⟨_, rfl, rfl, rfl⟩

theorem jsr (target : Addr) : Statement (.jsr target) := fun _ => ⟨_, rfl, rfl, rfl⟩

theorem bcc (rel : Byte) : Statement (.bcc rel) := fun _ => ⟨_, rfl, rfl, rfl⟩

theorem bcs (rel : Byte) : Statement (.bcs rel) := fun _ => ⟨_, rfl, rfl, rfl⟩

theorem beq (rel : Byte) : Statement (.beq rel) := fun _ => ⟨_, rfl, rfl, rfl⟩

theorem bne (rel : Byte) : Statement (.bne rel) := fun _ => ⟨_, rfl, rfl, rfl⟩

theorem bmi (rel : Byte) : Statement (.bmi rel) := fun _ => ⟨_, rfl, rfl, rfl⟩

theorem bpl (rel : Byte) : Statement (.bpl rel) := fun _ => ⟨_, rfl, rfl, rfl⟩

theorem bvc (rel : Byte) : Statement (.bvc rel) := fun _ => ⟨_, rfl, rfl, rfl⟩

theorem bvs (rel : Byte) : Statement (.bvs rel) := fun _ => ⟨_, rfl, rfl, rfl⟩

theorem tax : Statement .tax := fun _ => ⟨_, rfl, rfl, rfl⟩

theorem tay : Statement .tay := fun _ => ⟨_, rfl, rfl, rfl⟩

theorem txa : Statement .txa := fun _ => ⟨_, rfl, rfl, rfl⟩

theorem tya : Statement .tya := fun _ => ⟨_, rfl, rfl, rfl⟩

theorem tsx : Statement .tsx := fun _ => ⟨_, rfl, rfl, rfl⟩

theorem txs : Statement .txs := fun _ => ⟨_, rfl, rfl, rfl⟩

theorem pha : Statement .pha := fun _ => ⟨_, rfl, rfl, rfl⟩

theorem php : Statement .php := fun _ => ⟨_, rfl, rfl, rfl⟩

theorem pla : Statement .pla := fun _ => ⟨_, rfl, rfl, rfl⟩

theorem plp : Statement .plp := fun _ => ⟨_, rfl, rfl, rfl⟩

theorem inx : Statement .inx := fun _ => ⟨_, rfl, rfl, rfl⟩

theorem iny : Statement .iny := fun _ => ⟨_, rfl, rfl, rfl⟩

theorem dex : Statement .dex := fun _ => ⟨_, rfl, rfl, rfl⟩

theorem dey : Statement .dey := fun _ => ⟨_, rfl, rfl, rfl⟩

theorem rts : Statement .rts := fun _ => ⟨_, rfl, rfl, rfl⟩

theorem clc : Statement .clc := fun _ => ⟨_, rfl, rfl, rfl⟩

theorem sec : Statement .sec := fun _ => ⟨_, rfl, rfl, rfl⟩

theorem cli : Statement .cli := fun _ => ⟨_, rfl, rfl, rfl⟩

theorem sei : Statement .sei := fun _ => ⟨_, rfl, rfl, rfl⟩

theorem cld : Statement .cld := fun _ => ⟨_, rfl, rfl, rfl⟩

theorem sed : Statement .sed := fun _ => ⟨_, rfl, rfl, rfl⟩

theorem clv : Statement .clv := fun _ => ⟨_, rfl, rfl, rfl⟩

theorem nop : Statement .nop := fun _ => ⟨_, rfl, rfl, rfl⟩

theorem brk : Statement .brk := fun _ => ⟨_, rfl, rfl, rfl⟩

theorem rti : Statement .rti := fun _ => ⟨_, rfl, rfl, rfl⟩

theorem ill (opcode : Byte) : Statement (.ill opcode) := fun h =>
  ⟨opcode, by simp only [encode, if_pos (show isIllegal opcode = true from h)]; rfl, (lookup_none opcode).2 h, rfl⟩

end Sys2Proof.Laws.OpcodeByte
end

