-- ==== Sys2Proof/Laws/Through.lean ====
section
/-! SUPPORT. The addressing modes at any memory, callbacks included: each makes the accesses of Machine/Plain.lean's account of
it, and the latches they leave are all that differs. The method: an access answers the same whatever the registers and latches
hold, so these are pushed out of it (`busRead_putCpu`) until both accounts read alike. -/

namespace Sys2Proof.Machine

/-! ## Registers pushed out of an access -/

theorem State.putCpu_self (s : State) : State.putCpu s s = s := rfl

theorem State.putCpu_visible (s : State) : State.putCpu s.visible s = s.visible := rfl

section
variable (c u : State)

@[simp] theorem State.putCpu_a : (State.putCpu c u).a = c.a := rfl
@[simp] theorem State.putCpu_x : (State.putCpu c u).x = c.x := rfl
@[simp] theorem State.putCpu_y : (State.putCpu c u).y = c.y := rfl
@[simp] theorem State.putCpu_sp : (State.putCpu c u).sp = c.sp := rfl
@[simp] theorem State.putCpu_pc : (State.putCpu c u).pc = c.pc := rfl
@[simp] theorem State.putCpu_p : (State.putCpu c u).p = c.p := rfl
@[simp] theorem State.putCpu_micro : (State.putCpu c u).micro = c.micro := rfl
@[simp] theorem State.putCpu_lines : (State.putCpu c u).lines = u.lines := rfl
@[simp] theorem State.putCpu_mem : (State.putCpu c u).mem = u.mem := rfl

theorem State.setA_putCpu (v : Byte) : (State.putCpu c u).setA v = State.putCpu (c.setA v) u := rfl
theorem State.setX_putCpu (v : Byte) : (State.putCpu c u).setX v = State.putCpu (c.setX v) u := rfl
theorem State.setY_putCpu (v : Byte) : (State.putCpu c u).setY v = State.putCpu (c.setY v) u := rfl
theorem State.setSp_putCpu (v : Byte) : (State.putCpu c u).setSp v = State.putCpu (c.setSp v) u := rfl
theorem State.setPc_putCpu (v : Addr) : (State.putCpu c u).setPc v = State.putCpu (c.setPc v) u := rfl
theorem State.setP_putCpu (v : Flags) : (State.putCpu c u).setP v = State.putCpu (c.setP v) u := rfl
theorem State.setMicro_putCpu (v : Micro) : (State.putCpu c u).setMicro v = State.putCpu (c.setMicro v) u := rfl
theorem State.setLines_putCpu (v : Latches) : (State.putCpu c u).setLines v = State.putCpu c (u.setLines v) := rfl

end

theorem State.setMicro_setMicro (s : State) (m n : Micro) : (s.setMicro m).setMicro n = s.setMicro n := rfl

/-- The latches do not show. -/
theorem State.visible_setMicro {c u : State} {m : Micro} (h : m.cycleIndex = c.micro.cycleIndex) :
    (State.putCpu (c.setMicro m) u).visible = (State.putCpu c u).visible := by
  simp only [State.visible, State.putCpu, State.setMicro, h]

theorem discardRead_putCpu (a : Addr) : Unread (discardRead a) := by
  intro c s
  simp only [discardRead, busRead_putCpu, andThen_assoc, andThen_next]

theorem discardReads_putCpu (as : List Addr) : Unread (discardReads as) := unread_runAll fun a _ => discardRead_putCpu a

theorem discardReads_cons (a : Addr) (as : List Addr) (s : State) :
    discardReads (a :: as) s = andThen (busRead a s) fun r => discardReads as r.2 := by
  rw [discardReads, runAll_cons, discardRead, andThen_assoc]
  rfl

theorem discardReads_nil (s : State) : discardReads [] s = .next s := rfl

/-! ## What an access keeps -/

theorem Bystander.putCpu {s t : State} (h : Bystander s t) : State.putCpu s t = t := by
  simp only [State.putCpu, ← h.a, ← h.x, ← h.y, ← h.sp, ← h.pc, ← h.p, ← h.micro]

theorem busRead_keeps {a : Addr} {v : Byte} {s t : State} (h : busRead a s = .next (v, t)) : State.putCpu s t = t :=
  (busRead_bystander h).putCpu

theorem busWrite_keeps {a : Addr} {v : Byte} {s t : State} (h : busWrite a v s = .next t) : State.putCpu s t = t := by
  obtain h | h := busWrite_bystander h
  · rw [h]
    rfl
  · exact h.putCpu

theorem discardReads_keeps {as : List Addr} {s t : State} (h : discardReads as s = .next t) : State.putCpu s t = t := by
  have := discardReads_putCpu as s s
  rw [State.putCpu_self, h] at this
  exact (Host.Outcome.next.inj this).symm

/-! ## The addressing modes -/

/-- An answer without the dead latches. -/
def shown {α : Type} (r : Res (α × State)) : Res (α × State) := andThen r fun x => .next (x.1, x.2.visible)

theorem indexedThrough_eq (w : Addr) (i : Byte) (s : State) :
    indexedThrough w i s =
      if 256 ≤ (lo w).toNat + i.toNat then andThen (busRead (uncorrected w i) s) fun r => busRead (indexed w i) r.2
      else busRead (indexed w i) s := by
  unfold indexedThrough
  split <;> simp only [discardReads_cons, discardReads_nil, andThen_assoc, andThen_next]

/-- The data reads of an indexed read (R205, R210), the address before the sum being `w`. -/
theorem readIndexed_through {w : Addr} {i : Index} {c : State} (u : State) (hl : c.micro.adl = lo w)
    (hh : c.micro.adh = hi w) :
    shown (readIndexed (State.putCpu (c.indexLow i) u)) = shown (indexedThrough w (i.value c) (State.putCpu c u)) := by
  rw [indexedThrough_eq]
  by_cases h : 256 ≤ (lo w).toNat + (i.value c).toNat
  · simp only [shown, readIndexed, State.indexLow, State.nextPage, readData, State.setAdl, State.setAdh, State.setPageCross,
      State.setOperand, State.latchedAddr, hl, hh, carries, h, uncorrected, decide_true, if_true, cat_carry h, busRead_putCpu,
      State.setMicro_putCpu, State.putCpu_micro, State.setMicro_micro, State.setMicro_setMicro, andThen_assoc, andThen_next,
      State.visible_setMicro]
  · simp only [shown, readIndexed, State.indexLow, readData, State.setAdl, State.setPageCross, State.setOperand,
      State.latchedAddr, hl, hh, carries, h, ← uncorrected_eq (show (lo w).toNat + (i.value c).toNat < 256 by omega),
      uncorrected, decide_false, if_false, Bool.false_eq_true, busRead_putCpu, State.setMicro_putCpu, State.putCpu_micro,
      State.setMicro_micro, State.setMicro_setMicro, andThen_assoc, andThen_next, State.visible_setMicro]

/-- The latches before an indexed read make no difference to it. -/
theorem indexedThrough_setMicro (w : Addr) (i : Byte) (c u : State) {m : Micro} (h : m.cycleIndex = c.micro.cycleIndex) :
    shown (indexedThrough w i (State.putCpu (c.setMicro m) u)) = shown (indexedThrough w i (State.putCpu c u)) := by
  rw [indexedThrough_eq, indexedThrough_eq]
  split <;> simp only [shown, busRead_putCpu, andThen_assoc, andThen_next, State.visible_setMicro h]

theorem readThrough_keeps {m : ReadMode} {s t : State} {v : Byte} (h : readThrough m s = .next (v, t)) :
    State.putCpu s t = t := by
  have key : ∀ c u : State, readThrough m (State.putCpu c u) =
      andThen (readThrough m (State.putCpu c u)) fun r => .next (r.1, State.putCpu c r.2) := by
    intro c u
    cases m with
    | abx w | aby w =>
      simp only [readThrough, indexedThrough_eq]
      split <;> simp only [busRead_putCpu, andThen_assoc, andThen_next] <;> rfl
    | izy z =>
      simp only [readThrough, pointerThrough, busRead_putCpu, andThen_assoc, andThen_next, State.putCpu_y]
      refine andThen_congr fun a _ => andThen_congr fun b _ => ?_
      rw [indexedThrough_eq]
      split <;> simp only [busRead_putCpu, andThen_assoc, andThen_next] <;> rfl
    | _ =>
      simp only [readThrough, pointerThrough, discardReads_cons, discardReads_nil, busRead_putCpu, andThen_assoc, andThen_next]
      rfl
  have := key s s
  rw [State.putCpu_self, h] at this
  exact (Prod.mk.inj (Host.Outcome.next.inj this)).2.symm

/-- The read class (R195, R196, R199, R202, R205, R208, R210). -/
theorem readOperand_through (m : ReadMode) (s : State) : shown (readOperand m s) = shown (readThrough m s) := by
  have key : ∀ c u : State, shown (readOperand m (State.putCpu c u)) = shown (readThrough m (State.putCpu c u)) := by
    intro c u
    cases m with
    | imm v => rfl
    | zp z | abs z | zpx z | zpy z | izx z =>
      simp only [shown, readOperand, readThrough, indexZeroPage, indexedIndirect, readPointer, pointerThrough,
        discardReads_cons, discardReads_nil, discardRead, readData, busRead_putCpu, andThen_assoc, andThen_next, State.setAdl,
        State.setAdh, State.setPtr, State.setAddress, State.setOperand, State.pointerHigh, State.latchedAddr, Index.value,
        State.setMicro_putCpu, State.putCpu_micro, State.putCpu_x, State.putCpu_y, State.setMicro_micro, State.setMicro_x,
        State.setMicro_y, State.setMicro_setMicro, lo_zeroPage, State.visible_setMicro]
    | abx w =>
      have := readIndexed_through (i := .x) (c := c.setAddress w) u rfl rfl
      exact this.trans (indexedThrough_setMicro w c.x c u rfl)
    | aby w =>
      have := readIndexed_through (i := .y) (c := c.setAddress w) u rfl rfl
      exact this.trans (indexedThrough_setMicro w c.y c u rfl)
    | izy z =>
      simp only [shown, readOperand, readThrough, indirectIndexed, readPointer, pointerThrough, busRead_putCpu, andThen_assoc,
        andThen_next, State.setAdl, State.setAdh, State.setPtr, State.pointerHigh, State.setMicro_putCpu, State.putCpu_micro,
        State.putCpu_y, State.setMicro_micro, State.setMicro_setMicro, lo_zeroPage]
      refine andThen_congr fun a _ => andThen_congr fun b _ => ?_
      have := readIndexed_through (w := cat b.1 a.1) (i := .y)
        (c := c.setMicro { c.micro with adl := a.1, adh := b.1, ptr := zeroPage z }) b.2 (by simp) (by simp)
      exact this.trans (indexedThrough_setMicro _ c.y c b.2 rfl)
  exact key s s

/-- The page fix of stores and read-modify-write instructions (R206, R207, R211), and the address it leaves. -/
theorem fixPage_through {w : Addr} {i : Index} {c : State} (u : State) (hl : c.micro.adl = lo w) (hh : c.micro.adh = hi w) :
    shown (andThen (fixPage (State.putCpu (c.indexLow i) u)) fun s => .next (s.latchedAddr, s)) =
      shown (andThen (busRead (uncorrected w (i.value c)) (State.putCpu c u)) fun r => .next (indexed w (i.value c), r.2)) := by
  by_cases h : 256 ≤ (lo w).toNat + (i.value c).toNat
  · simp only [shown, fixPage, State.indexLow, State.nextPage, discardRead, State.setAdl, State.setAdh, State.setPageCross,
      State.latchedAddr, hl, hh, carries, h, uncorrected, decide_true, if_true, cat_carry h, busRead_putCpu,
      State.setMicro_putCpu, State.putCpu_micro, State.setMicro_micro, State.setMicro_setMicro, andThen_assoc, andThen_next,
      State.visible_setMicro]
  · simp only [shown, fixPage, State.indexLow, discardRead, State.setAdl, State.setPageCross, State.latchedAddr, hl, hh, carries,
      h, ← uncorrected_eq (show (lo w).toNat + (i.value c).toNat < 256 by omega), uncorrected, decide_false, if_false,
      Bool.false_eq_true, busRead_putCpu, State.putCpu_micro, State.setMicro_micro, State.setMicro_setMicro, andThen_assoc,
      andThen_next, State.visible_setMicro]

/-- The write class, up to its write (R197, R200, R203, R206, R209, R211). -/
theorem writeAddress_through (m : WriteMode) (s : State) : shown (writeAddress m s) = shown (storeThrough m s) := by
  have key : ∀ c u : State, shown (writeAddress m (State.putCpu c u)) = shown (storeThrough m (State.putCpu c u)) := by
    intro c u
    cases m with
    | zp z | abs z | zpx z | zpy z | izx z =>
      simp only [shown, writeAddress, storeThrough, indexZeroPage, indexedIndirect, readPointer, pointerThrough,
        discardReads_cons, discardReads_nil, discardRead, busRead_putCpu, andThen_assoc, andThen_next, State.setAdl,
        State.setAdh, State.setPtr, State.setAddress, State.pointerHigh, State.latchedAddr, Index.value,
        State.setMicro_putCpu, State.putCpu_micro, State.putCpu_x, State.putCpu_y, State.setMicro_micro, State.setMicro_x,
        State.setMicro_y, State.setMicro_setMicro, lo_zeroPage, State.visible_setMicro]
    | abx w =>
      refine (fixPage_through (i := .x) (c := c.setAddress w) u rfl rfl).trans ?_
      simp only [shown, storeThrough, discardReads_cons, discardReads_nil, busRead_putCpu, andThen_assoc, andThen_next]
      rfl
    | aby w =>
      refine (fixPage_through (i := .y) (c := c.setAddress w) u rfl rfl).trans ?_
      simp only [shown, storeThrough, discardReads_cons, discardReads_nil, busRead_putCpu, andThen_assoc, andThen_next]
      rfl
    | izy z =>
      simp only [shown, writeAddress, storeThrough, indirectIndexed, readPointer, pointerThrough, discardReads_cons,
        discardReads_nil, busRead_putCpu, andThen_assoc, andThen_next, State.setAdl, State.setAdh, State.setPtr,
        State.pointerHigh, State.setMicro_putCpu, State.putCpu_micro, State.putCpu_y, State.setMicro_micro,
        State.setMicro_setMicro, lo_zeroPage]
      refine andThen_congr fun a _ => andThen_congr fun b _ => ?_
      have := fixPage_through (w := cat b.1 a.1) (i := .y)
        (c := c.setMicro { c.micro with adl := a.1, adh := b.1, ptr := zeroPage z }) b.2 (by simp) (by simp)
      simp only [shown, andThen_assoc, andThen_next, busRead_putCpu] at this
      exact this
  exact key s s

theorem storeThrough_keeps {m : WriteMode} {s t : State} {a : Addr} (h : storeThrough m s = .next (a, t)) :
    State.putCpu s t = t := by
  have key : ∀ c u : State, storeThrough m (State.putCpu c u) =
      andThen (storeThrough m (State.putCpu c u)) fun r => .next (r.1, State.putCpu c r.2) := by
    intro c u
    cases m <;>
      simp only [storeThrough, pointerThrough, discardReads_cons, discardReads_nil, busRead_putCpu, andThen_assoc,
        andThen_next] <;>
      rfl
  have := key s s
  rw [State.putCpu_self, h] at this
  exact (Prod.mk.inj (Host.Outcome.next.inj this)).2.symm

/-- The RMW class, up to its read (R198, R201, R204, R207). -/
theorem rmwAddress_through (m : RmwMode) (s : State) :
    shown (rmwAddress m s) = shown (andThen (discardReads (rmwBefore m s) s) fun t => .next (rmwEa m s, t)) := by
  have key : ∀ c u : State, shown (rmwAddress m (State.putCpu c u)) =
      shown (andThen (discardReads (rmwBefore m (State.putCpu c u)) (State.putCpu c u)) fun t =>
        .next (rmwEa m (State.putCpu c u), t)) := by
    intro c u
    cases m with
    | zp z | abs z | zpx z =>
      simp only [shown, rmwAddress, rmwBefore, rmwEa, indexZeroPage, discardReads_cons, discardReads_nil, discardRead,
        busRead_putCpu, andThen_assoc, andThen_next, State.setAdl, State.setAdh, State.setAddress, Index.value,
        State.setMicro_putCpu, State.putCpu_micro, State.putCpu_x, State.setMicro_micro, State.setMicro_x,
        State.setMicro_setMicro, State.visible_setMicro]
    | abx w =>
      refine (fixPage_through (i := .x) (c := c.setAddress w) u rfl rfl).trans ?_
      simp only [shown, rmwBefore, rmwEa, discardReads_cons, discardReads_nil, busRead_putCpu, andThen_assoc, andThen_next]
      rfl
  exact key s s

/-! ## The instructions of the three classes -/

/-- A write does the same whatever the dead latches hold. -/
theorem busWrite_visible (a : Addr) (v : Byte) (s : State) :
    busWrite a v s.visible = andThen (busWrite a v s) fun t => .next t.visible := by
  rw [← State.putCpu_visible s, busWrite_putCpu]
  refine andThen_congr fun u hu => ?_
  rw [← busWrite_keeps hu]
  rfl

/-- Two answers that show the same go on alike, where what follows does not look at the latches. -/
theorem andThen_of_shown {α β : Type} {r r' : Res (α × State)} (h : shown r = shown r') {k l : α × State → Res β}
    (hk : ∀ a t t', r' = .next (a, t') → t.visible = t'.visible → k (a, t) = l (a, t')) : andThen r k = andThen r' l := by
  cases r with
  | next x =>
    cases r' with
    | next y =>
      obtain ⟨h1, h2⟩ := Prod.mk.inj (Host.Outcome.next.inj h)
      obtain ⟨a, t⟩ := x
      obtain ⟨b, t'⟩ := y
      cases h1
      exact hk a t t' rfl h2
    | fault k => cases h
    | refused e => cases h
  | fault k =>
    cases r' with
    | fault k' =>
      cases h
      rfl
    | next y => cases h
    | refused e => cases h
  | refused e =>
    cases r' with
    | refused e' =>
      cases h
      rfl
    | next y => cases h
    | fault k => cases h

/-- A read-class instruction at any memory: the reads of its mode, then its change. `g` is its effect `f` as a statement
writes it, from the state before the instruction. -/
theorem readThen_through (m : ReadMode) (s : State) {f g : Byte → State → State}
    (hf : ∀ v t, (f v t).visible = (f v t.visible).visible)
    (hg : ∀ v t, (f v (State.putCpu s t)).visible = (g v (State.putCpu s t)).visible) :
    SameAnswer (readThen m f s) (andThen (readThrough m s) fun x => .next (g x.1 x.2)) := by
  unfold SameAnswer readThen
  rw [andThen_assoc, andThen_assoc]
  refine andThen_of_shown (readOperand_through m s) fun v t t' ht h => ?_
  simp only [andThen_next]
  rw [hf, h, ← hf, ← readThrough_keeps ht, hg]

/-- A store at any memory: the reads of its mode, then its write. -/
theorem storeOperand_through (m : WriteMode) (v : Byte) (s : State) :
    SameAnswer (storeOperand m v s) (andThen (storeThrough m s) fun x => busWrite x.1 v x.2) := by
  unfold SameAnswer storeOperand
  rw [andThen_assoc, andThen_assoc]
  refine andThen_of_shown (writeAddress_through m s) fun a t t' _ h => ?_
  simp only [← busWrite_visible, h]

/-- A read-modify-write instruction at any memory: the read, the write of the byte read, the write of the result (R43). -/
theorem modifyMemory_through (m : RmwMode) (f : Byte → Flags → Byte × Flags) (s : State) :
    SameAnswer (modifyMemory m f s)
      (andThen (discardReads (rmwBefore m s) s) fun t =>
        andThen (busRead (rmwEa m s) t) fun x =>
        andThen (busWrite (rmwEa m s) x.1 x.2) fun t =>
        andThen (busWrite (rmwEa m s) (f x.1 s.p).1 t) fun t =>
        .next (t.setP (f x.1 s.p).2)) := by
  let tail (a : Addr) (t : State) : Res State :=
    andThen (busRead a t) fun x =>
      andThen (busWrite a x.1 x.2) fun t => andThen (busWrite a (f x.1 s.p).1 t) fun t => .next (t.setP (f x.1 s.p).2).visible
  -- the tail of the instruction, after the address is known, from a state with the flags of `s`
  have key : ∀ (a : Addr) (c u : State), c.p = s.p →
      (andThen (readData a (State.putCpu c u)) fun x =>
        andThen (busWrite a x.1 x.2) fun t =>
        andThen (busWrite a (f x.1 t.p).1 ((t.setOperand (f x.1 t.p).1).setP (f x.1 t.p).2)) fun t => .next t.visible) =
      tail a (State.putCpu c u) := by
    intro a c u hp
    simp only [tail, readData, busRead_putCpu, busWrite_putCpu a _ _ _, State.setOperand, State.setMicro_putCpu,
      State.setP_putCpu, State.putCpu_micro, State.putCpu_p, State.setMicro_micro, State.setMicro_p, andThen_assoc,
      andThen_next, State.setMicro_setMicro, hp]
    rfl
  have blind : ∀ (a : Addr) (t : State), tail a t.visible = tail a t := by
    intro a t
    have h : ∀ c : State, tail a (State.putCpu c t) = andThen (busRead a t) fun x =>
        andThen (busWrite a x.1 x.2) fun u => andThen (busWrite a (f x.1 s.p).1 u) fun u =>
        .next ((State.putCpu c u).setP (f x.1 s.p).2).visible := by
      intro c
      simp only [tail, busRead_putCpu, busWrite_putCpu a _ _ _, andThen_assoc, andThen_next]
    rw [← State.putCpu_visible t, h, ← State.putCpu_self t, h]
    rfl
  unfold SameAnswer modifyMemory
  simp only [andThen_assoc]
  have : (andThen (discardReads (rmwBefore m s) s) fun t => tail (rmwEa m s) t) =
      andThen (andThen (discardReads (rmwBefore m s) s) fun t => .next (rmwEa m s, t)) fun x => tail x.1 x.2 := by
    rw [andThen_assoc]
    rfl
  refine Eq.trans ?_ this.symm
  refine andThen_of_shown (rmwAddress_through m s) fun a t t' ht h => ?_
  have hp : t.p = s.p := by
    obtain ⟨u, hu, hx⟩ := andThen_eq_next.1 ht
    cases hx
    have h1 : t.p = t.visible.p := rfl
    rw [h1, h, ← discardReads_keeps hu]
    rfl
  have := key a t t hp
  rw [State.putCpu_self] at this
  refine this.trans ?_
  rw [← blind, h, blind]

/-! ## Exceptions -/

/-- Taking an exception at any memory (R269, R270): the vector is chosen after the three pushes, which may latch an NMI. -/
theorem takeException_through (brk : Bool) (s : State) :
    SameAnswer (takeException brk s) (exceptionThrough s.pc brk s) := by
  have two (a : Byte) : a - 2 - 1 = a - 3 := by bv_omega
  have key : ∀ c u : State,
      SameAnswer (takeException brk (State.putCpu c u)) (exceptionThrough c.pc brk (State.putCpu c u)) := by
    intro c u
    simp only [SameAnswer, takeException, exceptionThrough, selectVector, State.setPtr, push, busWrite_putCpu _ _ _ _,
      andThen_assoc, andThen_next, State.putCpu_pc, State.putCpu_p, State.putCpu_lines, State.putCpu_sp, State.setSp_putCpu,
      State.setSp_sp, State.setSp_pc, State.setSp_p, State.setAdl, State.setAdh, State.setMicro_putCpu, State.setLines_putCpu,
      State.putCpu_micro, sub_sub_byte, two]
    refine andThen_congr fun t1 _ => andThen_congr fun t2 _ => andThen_congr fun t3 _ => ?_
    by_cases hn : t3.lines.nmiPending = true
    · simp only [hn, if_true, busRead_putCpu, State.setMicro_putCpu, State.putCpu_micro, State.setMicro_micro, andThen_assoc,
        andThen_next, nmiVector, State.setP_putCpu, State.setPc_putCpu, State.setP_micro, State.setMicro_setMicro]
      rfl
    · have clear : t3.setLines { t3.lines with nmiPending := false } = t3 := by
        rw [← Bool.eq_false_iff.2 hn]
        rfl
      simp only [hn, if_false, Bool.false_eq_true, clear, busRead_putCpu, State.setMicro_putCpu, State.putCpu_micro,
        State.setMicro_micro, andThen_assoc, andThen_next, irqVector, State.setP_putCpu, State.setPc_putCpu, State.setP_micro,
        State.setMicro_setMicro]
      rfl
  exact key s s

end Sys2Proof.Machine
end

