-- ==== Sys2Proof/Laws/Wires.lean ====
section
/-! SUPPORT. Wires at the cycle level (R232, R235): a tick renames no wire and leaves no delivery behind, so that the depth to
which a write may nest never runs out, and a write made inside a delivery is a whole write. -/

namespace Sys2Proof.Machine

/-! ## What a line of a sequence leaves alone -/

/-- What lies outside the CPU is the same: its Memory, fabric, world and platform. -/
structure SameOutside (s t : State) : Prop where
  mem : t.mem = s.mem
  fabric : t.fabric = s.fabric
  world : t.world = s.world
  platform : t.platform = s.platform

theorem SameOutside.refl (s : State) : SameOutside s s := ⟨rfl, rfl, rfl, rfl⟩

theorem SameOutside.trans {s t u : State} (h : SameOutside s t) (k : SameOutside t u) : SameOutside s u :=
  ⟨k.mem.trans h.mem, k.fabric.trans h.fabric, k.world.trans h.world, k.platform.trans h.platform⟩

/-- The updates of a line, before and after its access, are inside the CPU. -/
def Line.inside (l : Line) : Prop := (∀ s, SameOutside s (l.before s)) ∧ ∀ v s, SameOutside s (l.after v s).1

theorem goOn_inside {access : State → Access} {f : Byte → State → State} (h : ∀ v s, SameOutside s (f v s)) :
    (goOn access f).inside := ⟨fun s => .refl s, h⟩

theorem finish_inside {access : State → Access} {f : Byte → State → State} (h : ∀ v s, SameOutside s (f v s)) :
    (finish access f).inside := ⟨fun s => .refl s, h⟩

theorem readEffect_outside (o : ReadOp) (v : Byte) (s : State) : SameOutside s (readEffect o v s) := by
  cases o <;> exact ⟨rfl, rfl, rfl, rfl⟩

theorem impliedEffect_outside (o : ImpliedOp) (s : State) : SameOutside s (impliedEffect o s) := by
  cases o <;> exact ⟨rfl, rfl, rfl, rfl⟩

theorem pullEffect_outside (o : PullOp) (v : Byte) (s : State) : SameOutside s (pullEffect o v s) := by
  cases o <;> exact ⟨rfl, rfl, rfl, rfl⟩

theorem fetchLine_inside : fetchLine.inside := by
  refine goOn_inside fun v s => ?_
  dsimp only
  split <;> exact ⟨rfl, rfl, rfl, rfl⟩

theorem fixPageLine_inside : fixPageLine.inside := by
  refine goOn_inside fun v s => ?_
  dsimp only [discarded]
  split <;> exact ⟨rfl, rfl, rfl, rfl⟩

theorem indexedDataLine_inside (o : ReadOp) : (indexedDataLine o).inside := by
  refine ⟨fun s => .refl s, fun v s => ?_⟩
  dsimp only [indexedDataLine]
  split
  · exact ⟨rfl, rfl, rfl, rfl⟩
  · exact SameOutside.trans (t := s.setOperand v) ⟨rfl, rfl, rfl, rfl⟩ (readEffect_outside o v _)

theorem dataLine_inside (ea : State → Addr) (o : ReadOp) : (dataLine ea o).inside :=
  finish_inside fun v s => SameOutside.trans (t := s.setOperand v) ⟨rfl, rfl, rfl, rfl⟩ (readEffect_outside o v _)

theorem selectVector_outside (s : State) : SameOutside s (selectVector s) := by
  unfold selectVector
  split <;> exact ⟨rfl, rfl, rfl, rfl⟩

theorem exceptionLines_inside (brk : Bool) : ∀ l ∈ exceptionLines brk, l.inside := by
  simp only [exceptionLines, List.mem_cons, List.not_mem_nil, or_false]
  rintro l (rfl | rfl | rfl | rfl | rfl)
  iterate 3 exact goOn_inside fun _ _ => ⟨rfl, rfl, rfl, rfl⟩
  · exact ⟨selectVector_outside, fun _ _ => ⟨rfl, rfl, rfl, rfl⟩⟩
  · exact finish_inside fun _ _ => ⟨rfl, rfl, rfl, rfl⟩

theorem impliedLines_inside {f : State → State} (h : ∀ s, SameOutside s (f s)) : ∀ l ∈ impliedLines f, l.inside := by
  simp only [impliedLines, List.mem_singleton]
  rintro l rfl
  exact finish_inside fun _ s => h s

/-- Every line of every opcode. -/
theorem opLines_inside (o : Op) : ∀ l ∈ opLines o, l.inside := by
  have imm (o : ReadOp) : (finish pcRead fun v s => readEffect o v (s.incPc.setOperand v)).inside := finish_inside fun v s =>
    SameOutside.trans (t := s.incPc.setOperand v) ⟨rfl, rfl, rfl, rfl⟩ (readEffect_outside o v _)
  have pulled (o : PullOp) : (finish stackRead fun v s => pullEffect o v (s.setOperand v)).inside := finish_inside fun v s =>
    SameOutside.trans (t := s.setOperand v) ⟨rfl, rfl, rfl, rfl⟩ (pullEffect_outside o v _)
  have shared : lowLine.inside ∧ highLine.inside ∧ pointerLine.inside ∧ pointerLowLine.inside ∧ (∀ i, (highIndexedLine i).inside) ∧
      (∀ i, (zeroPageIndexLine i).inside) ∧ ∀ ea o, (storeLine ea o).inside := by
    refine ⟨?_, ?_, ?_, ?_, fun _ => ?_, fun _ => ?_, fun _ _ => ?_⟩ <;>
      exact ⟨fun _ => ⟨rfl, rfl, rfl, rfl⟩, fun _ _ => ⟨rfl, rfl, rfl, rfl⟩⟩
  obtain ⟨low, high, pointer, pointerLow, highIndexed, zeroPageIndex, store⟩ := shared
  have izx : ∀ l ∈ izxLines, l.inside := by
    simp only [izxLines, List.forall_mem_cons, pointer, pointerLow]
    exact ⟨trivial, ⟨fun _ => ⟨rfl, rfl, rfl, rfl⟩, fun _ _ => ⟨rfl, rfl, rfl, rfl⟩⟩, trivial,
      ⟨fun _ => ⟨rfl, rfl, rfl, rfl⟩, fun _ _ => ⟨rfl, rfl, rfl, rfl⟩⟩, by simp⟩
  have izy : ∀ l ∈ izyLines, l.inside := by
    simp only [izyLines, List.forall_mem_cons, pointer, pointerLow]
    exact ⟨trivial, trivial, ⟨fun _ => ⟨rfl, rfl, rfl, rfl⟩, fun _ _ => ⟨rfl, rfl, rfl, rfl⟩⟩, by simp⟩
  have modify (ea : State → Addr) (o : RmwOp) : ∀ l ∈ modifyLines ea o, l.inside := by
    simp only [modifyLines, List.mem_cons, List.not_mem_nil, or_false]
    rintro l (rfl | rfl | rfl) <;> exact ⟨fun _ => ⟨rfl, rfl, rfl, rfl⟩, fun _ _ => ⟨rfl, rfl, rfl, rfl⟩⟩
  cases o with
  | read o k =>
    cases k <;>
      simp only [opLines, readLines, List.forall_mem_append, List.forall_mem_cons, imm, low, high, highIndexed, zeroPageIndex,
        dataLine_inside, indexedDataLine_inside, List.not_mem_nil, false_imp_iff, implies_true, and_true]
    exacts [izx, izy]
  | write o k =>
    cases k <;>
      simp only [opLines, writeLines, List.forall_mem_append, List.forall_mem_cons, low, high, highIndexed, zeroPageIndex, store,
        fixPageLine_inside, List.not_mem_nil, false_imp_iff, implies_true, and_true]
    exacts [izx, izy]
  | rmw o k =>
    cases k <;>
      simp only [opLines, rmwLines, List.forall_mem_cons, low, high, highIndexed, zeroPageIndex, fixPageLine_inside, true_and] <;>
      exact modify _ o
  | acc o => exact impliedLines_inside fun s => ⟨rfl, rfl, rfl, rfl⟩
  | implied o => exact impliedLines_inside (impliedEffect_outside o)
  | pull o =>
    simp only [opLines, pullLines, List.forall_mem_cons, pulled]
    exact ⟨⟨fun _ => ⟨rfl, rfl, rfl, rfl⟩, fun _ _ => ⟨rfl, rfl, rfl, rfl⟩⟩,
      ⟨fun _ => ⟨rfl, rfl, rfl, rfl⟩, fun _ _ => ⟨rfl, rfl, rfl, rfl⟩⟩, trivial, by simp⟩
  | brk =>
    simp only [opLines, brkLines, List.forall_mem_cons]
    exact ⟨⟨fun _ => ⟨rfl, rfl, rfl, rfl⟩, fun _ _ => ⟨rfl, rfl, rfl, rfl⟩⟩, exceptionLines_inside true⟩
  | branch _ | push _ | jmpAbs | jmpInd | jsr | rts | rti =>
    simp only [opLines, branchLines, pushLines, jmpAbsLines, jmpIndLines, jsrLines, rtsLines, rtiLines, List.mem_cons,
      List.not_mem_nil, or_false]
    intro l hl
    repeat' rcases hl with rfl | hl
    all_goals exact ⟨fun _ => ⟨rfl, rfl, rfl, rfl⟩, fun _ _ => ⟨rfl, rfl, rfl, rfl⟩⟩

/-- Every line of the sequence in progress. -/
theorem sequenceLines_inside (s : State) : ∀ l ∈ s.sequenceLines, l.inside := by
  unfold State.sequenceLines
  split
  · simp only [resetLines, List.mem_cons, List.not_mem_nil, or_false]
    rintro l (rfl | rfl | rfl | rfl | rfl | rfl | rfl) <;>
      exact ⟨fun _ => ⟨rfl, rfl, rfl, rfl⟩, fun _ _ => ⟨rfl, rfl, rfl, rfl⟩⟩
  · simp only [intLines, List.forall_mem_cons]
    exact ⟨⟨fun _ => ⟨rfl, rfl, rfl, rfl⟩, fun _ _ => ⟨rfl, rfl, rfl, rfl⟩⟩,
      ⟨fun _ => ⟨rfl, rfl, rfl, rfl⟩, fun _ _ => ⟨rfl, rfl, rfl, rfl⟩⟩, exceptionLines_inside false⟩
  · rw [List.forall_mem_cons]
    refine ⟨fetchLine_inside, ?_⟩
    unfold opcodeLines
    split
    · exact opLines_inside _
    · exact impliedLines_inside fun s => .refl s

/-! ## Replacing a wire -/

/-- What each identifier names after an installed wire has been replaced (R230). -/
theorem Fabric.wire_setWire {f : Fabric} {w w' : Wire} (hw : w ∈ f.wires) (h : w'.id = w.id) (id : WireId) :
    (f.setWire w').wire id = if id = w.id then some w' else f.wire id := by
  have hp : ((fun u : Wire => u.id == id) ∘ fun u => if u.id = w'.id then w' else u) = fun u => u.id == id := by
    funext u
    by_cases hu : u.id = w'.id <;> simp [hu]
  unfold Fabric.wire Fabric.setWire
  rw [List.find?_map, hp]
  cases hx : f.wires.find? (fun u => u.id == id) with
  | none =>
    have hn : id ≠ w.id := fun e => by simpa [e] using List.find?_eq_none.1 hx w hw
    simp [hn]
  | some x =>
    have hid : x.id = id := by simpa using List.find?_some hx
    simp [hid, h]
    split <;> simp_all

/-! ## A tick renames no wire and leaves no delivery behind -/

/-- The same identifiers of wires, in the same order, and the same deliveries in progress. -/
def SameWires (s t : State) : Prop :=
  t.fabric.wires.map Wire.id = s.fabric.wires.map Wire.id ∧ t.fabric.delivering = s.fabric.delivering

theorem SameWires.refl (s : State) : SameWires s s := ⟨rfl, rfl⟩

theorem SameWires.trans {s t u : State} (h : SameWires s t) (k : SameWires t u) : SameWires s u :=
  ⟨k.1.trans h.1, k.2.trans h.2⟩

theorem SameWires.of_fabric {s t : State} (h : t.fabric = s.fabric) : SameWires s t := by
  simp [SameWires, h]

theorem Bystander.sameWires {s t : State} (h : Bystander s t) : SameWires s t := ⟨h.wireIds, h.delivering⟩

theorem perform_sameWires {acc : Access} {v : Byte} {s t : State} (h : acc.perform s = .next (v, t)) : SameWires s t := by
  have cyc : SameWires s s.addCycle := .of_fabric rfl
  cases acc with
  | read a => exact cyc.trans (busRead_bystander h).sameWires
  | write a u =>
    obtain ⟨x, h1, h2⟩ := andThen_eq_next.1 h
    cases h2
    rcases busWrite_bystander h1 with rfl | hb
    · exact .of_fabric rfl
    · exact cyc.trans hb.sameWires

/-- A tick, whatever the callbacks do. -/
theorem tick_sameWires {s t : State} (h : tick s = .next t) : SameWires s t := by
  have begun : ∀ s : State, SameWires s s.beginSequence := fun s => by
    unfold State.beginSequence
    dsimp only
    split <;> exact .of_fabric rfl
  have line : ∀ {l : Line} {s t : State}, l.inside → doLine l s = .next t → SameWires s t := by
    intro l s t hl h
    obtain ⟨⟨v, u⟩, h1, h2⟩ := andThen_eq_next.1 h
    refine ((SameWires.of_fabric (hl.1 s).fabric).trans (perform_sameWires h1)).trans ?_
    dsimp only at h2
    split at h2 <;> cases h2 <;> exact .of_fabric (hl.2 v u).fabric
  unfold tick at h
  split at h
  · cases h
    exact .refl s
  · dsimp only at h
    split at h
    · next l hl =>
      have hm := sequenceLines_inside _ l (List.mem_of_getElem? hl)
      split at h
      · exact (begun s).trans (line hm h)
      · exact line hm h
    · cases h

/-! ## The depth of a write never runs out -/

/-- The wires whose delivery is not in progress. -/
def Fabric.idle (f : Fabric) : List WireId := (f.wires.map Wire.id).filter fun id => !f.delivering.contains id

theorem SameWires.idle {s t : State} (h : SameWires s t) : t.fabric.idle = s.fabric.idle := by
  simp only [Fabric.idle, h.1, h.2]

theorem Fabric.idle_lt_depth (f : Fabric) : f.idle.length < f.depth := by
  have := List.length_filter_le (fun id => !f.delivering.contains id) (f.wires.map Wire.id)
  rw [List.length_map] at this
  simp only [Fabric.idle, Fabric.depth]
  omega

/-- A delivery leaves fewer. -/
theorem Fabric.idle_deliver {f : Fabric} {w w' : Wire} (hw : w ∈ f.wires) (hn : f.delivering.contains w.id = false) :
    ({ f.setWire w' with delivering := w.id :: f.delivering } : Fabric).idle.length < f.idle.length := by
  have e : ({ f.setWire w' with delivering := w.id :: f.delivering } : Fabric).idle =
      f.idle.filter fun id => id != w.id := by
    simp only [Fabric.idle, Fabric.setWire_ids, List.filter_filter]
    refine List.filter_congr fun id _ => ?_
    simp only [List.contains_cons, Bool.not_or]
    rfl
  rw [e]
  refine List.length_filter_lt_length_iff_exists.2 ⟨w.id, ?_, by simp⟩
  simp only [Fabric.idle, List.mem_filter, List.mem_map, hn]
  exact ⟨⟨w, hw, rfl⟩, rfl⟩

/-- Two runs agree where their actions do, on the states that a relation kept by the actions reaches. -/
theorem runAll_congr {α : Type} {I : State → Prop} {f g : α → State → Res State} {xs : List α}
    (heq : ∀ x ∈ xs, ∀ t, I t → f x t = g x t) (keep : ∀ x ∈ xs, ∀ t u, I t → f x t = .next u → I u) {s : State} (hs : I s) :
    runAll f xs s = runAll g xs s := by
  induction xs generalizing s with
  | nil => rfl
  | cons x xs ih =>
    rw [runAll_cons, runAll_cons, ← heq x (by simp) s hs]
    refine andThen_congr fun t ht => ?_
    exact ih (fun y hy => heq y (by simp [hy])) (fun y hy => keep y (by simp [hy])) (keep x (by simp) s t hs ht)

variable {onRise : State → Res State}

theorem delivered_sameWires (hr : ∀ s t, onRise s = .next t → SameWires s t) : Delivered onRise SameWires where
  refl := SameWires.refl
  trans := fun _ _ _ => SameWires.trans
  lines := fun _ _ => .of_fabric rfl
  world := fun _ _ => .of_fabric rfl
  stop := fun _ => ⟨rfl, rfl⟩
  value := fun s _ w _ _ _ => ⟨Fabric.setWire_ids s.fabric _, rfl⟩
  nested := fun s t id h => by
    refine ⟨h.1, ?_⟩
    have := h.2
    simp only [State.setFabric] at this ⊢
    rw [this]
    rfl
  rise := hr

/-- Deliveries agree where the writes of the component agree, as long as each keeps the wires. -/
theorem deliverTo_congr {write write' : EndpointId → Signal → State → Res State} {n : Nat}
    (heq : ∀ e v t, t.fabric.idle.length ≤ n → write e v t = write' e v t)
    (keep : ∀ e v s t, write e v s = .next t → SameWires s t) (v : Signal) (k : Sink) {s : State}
    (hs : s.fabric.idle.length ≤ n) : deliverTo onRise write v k s = deliverTo onRise write' v k s := by
  unfold deliverTo
  split
  · rfl
  · refine runAll_congr (I := fun t => t.fabric.idle.length ≤ n) ?_ ?_ hs
    · intro c _ t ht
      cases c with
      | stop => rfl
      | writeWire e u => exact heq e u t ht
    · intro c _ t u ht hc
      cases c with
      | stop =>
        cases hc
        exact ht
      | writeWire e x =>
        rw [(keep e x t u hc).idle]
        exact ht

/-- Two depths that do not run out give the same write. -/
theorem writeWireWith_depth (hr : ∀ s t, onRise s = .next t → SameWires s t) {n m : Nat} {src : EndpointId} {v : Signal}
    {s : State} (hn : s.fabric.idle.length < n) (hm : s.fabric.idle.length < m) :
    writeWireWith onRise n src v s = writeWireWith onRise m src v s := by
  induction n generalizing m src v s with
  | zero => omega
  | succ n ih =>
    cases m with
    | zero => omega
    | succ m =>
      unfold writeWireWith
      split
      · rfl
      · next w hw =>
        split
        · rfl
        · next hd =>
          split
          · rfl
          · have hlt := Fabric.idle_deliver (w' := { w with value := v }) (Fabric.wireOfSource_mem hw).1 (by simpa using hd)
            unfold whileDelivering
            congr 1
            refine runAll_congr (I := fun t => t.fabric.idle.length ≤ s.fabric.idle.length - 1) ?_ ?_ (Nat.le_sub_one_of_lt hlt)
            · intro k _ t ht
              refine deliverTo_congr (n := s.fabric.idle.length - 1) ?_ (fun e u a b h => (delivered_sameWires hr).writeWith h) v k ht
              intro e u t ht
              exact ih (by omega) (by omega)
            · intro k _ t u ht hk
              rw [((delivered_sameWires hr).deliver (fun e u a b h => (delivered_sameWires hr).writeWith h) hk).idle]
              exact ht

/-- A write of a wire whose delivery is not in progress (R232): the value is stored, then each sink in registration order has
its delivery, inside which a write is a whole write (R235). -/
theorem writeWire_eq (hr : ∀ s t, onRise s = .next t → SameWires s t) {src : EndpointId} {v : Signal} {w : Wire} {s : State}
    (hw : s.fabric.wireOfSource src = some w) (hd : w.id ∉ s.fabric.delivering) (hv : isWide v = isWide w.value) :
    writeWire onRise src v s =
      whileDelivering w.id (runAll (deliverTo onRise (writeWire onRise) v) w.sinks)
        (s.setFabric (s.fabric.setWire { w with value := v })) := by
  have hd' : s.fabric.delivering.contains w.id = false := by simpa using hd
  have hlt := Fabric.idle_deliver (w' := { w with value := v }) (Fabric.wireOfSource_mem hw).1 hd'
  have hle := s.fabric.idle_lt_depth
  unfold writeWire Fabric.depth
  rw [writeWireWith]
  simp only [hw, hd', hv, bne_self_eq_false, Bool.false_eq_true, if_false]
  unfold whileDelivering
  congr 1
  refine runAll_congr (I := fun t => t.fabric.idle.length ≤ s.fabric.idle.length - 1) ?_ ?_ (Nat.le_sub_one_of_lt hlt)
  · intro k _ t ht
    refine deliverTo_congr (n := s.fabric.idle.length - 1) ?_ (fun e u a b h => (delivered_sameWires hr).writeWith h) v k ht
    intro e u t ht
    refine writeWireWith_depth hr ?_ t.fabric.idle_lt_depth
    unfold Fabric.depth at hle
    omega
  · intro k _ t u ht hk
    rw [((delivered_sameWires hr).deliver (fun e u a b h => (delivered_sameWires hr).writeWith h) hk).idle]
    exact ht

/-- The same of a callback's write, inside which a rising clock edge is refused (U9). -/
theorem handlerCall_write {src : EndpointId} {v : Signal} {w : Wire} {s : State}
    (hw : s.fabric.wireOfSource src = some w) (hd : w.id ∉ s.fabric.delivering) (hv : isWide v = isWide w.value) :
    handlerCall (.fabric (.writeWire src v)) s =
      whileDelivering w.id
        (runAll (deliverTo (fun _ => .refused .handlerReentry) (fun e u => handlerCall (.fabric (.writeWire e u))) v) w.sinks)
        (s.setFabric (s.fabric.setWire { w with value := v })) :=
  writeWire_eq (fun _ _ h => by cases h) hw hd hv

end Sys2Proof.Machine
end

