-- ==== Sys2Proof/Tests/Slice0.lean ====
section
/-! SUPPORT. Tests. Every expected value comes from spec/: the worked examples and vectors of 95_test_vectors where a heading
says so, else a rule worked by hand, which the docstring names. The last part shows, for each statement of
Certificates/Slice0/Obligations.lean that has hypotheses, a state and operands that meet them together. -/

namespace Sys2Proof.Tests

open Sys2Proof.Machine

-- Each test is checked before the next begins, so that the file needs few threads.
set_option Elab.async false

/-! ## Small states -/

/-- One RAM bank over the whole space, holding `cells`. -/
def ram (cells : List Host.Cell) : Memory where
  banks := [{ id := 1, kind := .ram, lo := 0x0000, hi := 0xFFFF, length := 65536, cells := cells }]
  active := [{ lo := 0, hi := 65535, id := 1 }]

/-- The state after reset, with `PC` and memory set. -/
def start (pc : Addr) (cells : List Host.Cell) : State := { State.reset with pc := pc, mem := ram cells }

/-- The answer is a next state of which `f` holds. -/
def after (r : Res State) (f : State → Bool) : Bool :=
  match r with
  | .next t => f t
  | .fault _ => false
  | .refused _ => false

/-- The step from `s` ends in `u`, but for the latches that are dead at a boundary, and its ticks end where the step does. -/
def ends (s u : State) : Bool :=
  after (step s) fun t => decide (t.visible = u.visible) && after (finishSequence sequenceBound s) fun v => decide (v = t)

/-- The bytes are the instruction, all of them. -/
def decodes (row : List Byte × Instr) : Bool :=
  match decode row.1 with
  | .ok (j, []) => decide (j = row.2)
  | _ => false

/-! ## Terms that are no instruction -/

/-- Modes that the "Operands" lines of R100 to R105, R120 to R124 and R130 to R133 leave out. -/
theorem test_wf_refuses_modes :
    ([.lda (.zpy 1), .ldx (.zpx 1), .ldx (.abx 1), .ldx (.izx 1), .ldy (.zpy 1), .ldy (.aby 1), .ldy (.izy 1), .adc (.zpy 1),
      .sbc (.zpy 1), .cmp (.zpy 1), .cpx (.abx 1), .cpx (.zpx 1), .cpy (.izy 1), .cpy (.zpy 1)] : List Instr).all
      (fun i => !i.wf) = true := by
  decide

theorem test_wf_refuses_modes_2 :
    ([.and (.zpy 1), .ora (.zpy 1), .eor (.zpy 1), .bit (.imm 1), .bit (.zpx 1), .bit (.abx 1), .sta (.zpy 1), .stx (.zpx 1),
      .stx (.abx 1), .sty (.zpy 1), .sty (.izy 1)] : List Instr).all (fun i => !i.wf) = true := by
  decide

/-- A documented opcode byte is not illegal (R87). -/
theorem test_wf_refuses_documented_byte : (Instr.ill 0xEA).wf = false := by decide

/-- The encoder gives nothing for a term that is no instruction. -/
theorem test_encode_refuses : encode (.bit (.imm 1)) = [] ∧ encode (.ill 0xEA) = [] := by decide

/-! ## Words written out from R71, R85, R86 and R87 -/

theorem test_decode_loads_stores :
    ([([0xA9, 0x42], .lda (.imm 0x42)), ([0xA1, 0xF0], .lda (.izx 0xF0)), ([0xB9, 0xFF, 0x12], .lda (.aby 0x12FF)),
      ([0xA2, 0x05], .ldx (.imm 0x05)), ([0xB6, 0x10], .ldx (.zpy 0x10)), ([0xBC, 0xFF, 0x12], .ldy (.abx 0x12FF)),
      ([0xB4, 0x10], .ldy (.zpx 0x10)), ([0x91, 0x86], .sta (.izy 0x86)), ([0x9D, 0xFF, 0x12], .sta (.abx 0x12FF)),
      ([0x96, 0x10], .stx (.zpy 0x10)), ([0x8E, 0x34, 0x12], .stx (.abs 0x1234)), ([0x84, 0x10], .sty (.zp 0x10))] :
      List (List Byte × Instr)).all decodes = true := by
  decide

theorem test_decode_transfers_stack :
    ([([0xAA], .tax), ([0xA8], .tay), ([0x8A], .txa), ([0x98], .tya), ([0xBA], .tsx), ([0x9A], .txs), ([0x48], .pha),
      ([0x08], .php), ([0x68], .pla), ([0x28], .plp)] : List (List Byte × Instr)).all decodes = true := by
  decide

theorem test_decode_arithmetic :
    ([([0x69, 0x50], .adc (.imm 0x50)), ([0x7D, 0x34, 0x12], .adc (.abx 0x1234)), ([0xE9, 0x01], .sbc (.imm 0x01)),
      ([0xF1, 0x10], .sbc (.izy 0x10)), ([0xC9, 0x40], .cmp (.imm 0x40)), ([0xD5, 0x10], .cmp (.zpx 0x10)),
      ([0xE4, 0x10], .cpx (.zp 0x10)), ([0xCC, 0x34, 0x12], .cpy (.abs 0x1234))] : List (List Byte × Instr)).all decodes
      = true := by
  decide

theorem test_decode_logic :
    ([([0x29, 0x0F], .and (.imm 0x0F)), ([0x05, 0x10], .ora (.zp 0x10)), ([0x51, 0x10], .eor (.izy 0x10)),
      ([0x24, 0x10], .bit (.zp 0x10)), ([0x2C, 0x34, 0x12], .bit (.abs 0x1234))] : List (List Byte × Instr)).all decodes
      = true := by
  decide

theorem test_decode_shifts_counts :
    ([([0x0A], .asl .acc), ([0x06, 0x10], .asl (.mem (.zp 0x10))), ([0x4E, 0x34, 0x12], .lsr (.mem (.abs 0x1234))),
      ([0x36, 0x10], .rol (.mem (.zpx 0x10))), ([0x7E, 0xFF, 0x12], .ror (.mem (.abx 0x12FF))), ([0x6A], .ror .acc),
      ([0xFE, 0x00, 0x12], .inc (.abx 0x1200)), ([0xD6, 0x10], .dec (.zpx 0x10)), ([0xE8], .inx), ([0xC8], .iny),
      ([0xCA], .dex), ([0x88], .dey)] : List (List Byte × Instr)).all decodes = true := by
  decide

theorem test_decode_control :
    ([([0x4C, 0x34, 0x12], .jmp (.abs 0x1234)), ([0x6C, 0xFF, 0x30], .jmp (.ind 0x30FF)), ([0x20, 0x34, 0x12], .jsr 0x1234),
      ([0x60], .rts), ([0x90, 0x7F], .bcc 0x7F), ([0xB0, 0x80], .bcs 0x80), ([0xF0, 0xFE], .beq 0xFE), ([0xD0, 0x04], .bne 0x04),
      ([0x30, 0xFD], .bmi 0xFD), ([0x10, 0x02], .bpl 0x02), ([0x50, 0x02], .bvc 0x02), ([0x70, 0x02], .bvs 0x02)] :
      List (List Byte × Instr)).all decodes = true := by
  decide

theorem test_decode_flags_system :
    ([([0x18], .clc), ([0x38], .sec), ([0x58], .cli), ([0x78], .sei), ([0xD8], .cld), ([0xF8], .sed), ([0xB8], .clv),
      ([0xEA], .nop), ([0x00], .brk), ([0x40], .rti), ([0x02], .ill 0x02), ([0x80], .ill 0x80), ([0xFF], .ill 0xFF)] :
      List (List Byte × Instr)).all decodes = true := by
  decide

/-- R88: bytes that run out. -/
theorem test_decode_short : decode [0xAD, 0x34] = .error .missingOperand ∧ decode [0xA5] = .error .missingOperand := by decide

/-- The opcode table's numbering: `LDA $1234` is AD 34 12, its operand bytes above the table's 8 bits zero when not given. -/
theorem test_decode_table_word :
    decodeTableWord 8 0xAD = some (.lda (.abs 0x0000)) ∧ decodeTableWord 24 0x1234AD = some (.lda (.abs 0x1234)) := by
  decide

/-! ## Loads and stores: one step, from part 2 of spec/95_test_vectors -/

/-- `LDA ($F0,X)` (R100, R82). -/
theorem test_lda_izx :
    let s :=
      { start 0x0400 [(0x0, 0x12), (0xFF, 0x34), (0x100, 0x99), (0x400, 0xA1), (0x401, 0xF0), (0x1234, 0x5A)] with x := 0x0F }
    ends s { s with a := 0x5A, pc := 0x0402, cycles := 13 } = true := by
  decide +kernel

/-- `LDA ($FF),Y` (R100, R83). -/
theorem test_lda_izy :
    let s := { start 0x0400 [(0x0, 0x20), (0x100, 0x77), (0x400, 0xB1), (0x401, 0xFF), (0x2001, 0x66)] with y := 0x01 }
    ends s { s with a := 0x66, pc := 0x0402, cycles := 12 } = true := by
  decide +kernel

/-- `LDX $10,Y` (R101, R77). -/
theorem test_ldx_zpy :
    let s := { start 0x0400 [(0xF, 0x81), (0x400, 0xB6), (0x401, 0x10)] with y := 0xFF }
    ends s { s with x := 0x81, pc := 0x0402, p := { s.p with n := true }, cycles := 11 } = true := by
  decide +kernel

/-- `LDX $12FF,Y` (R101). -/
theorem test_ldx_aby :
    let s := { start 0x0400 [(0x400, 0xBE), (0x401, 0xFF), (0x402, 0x12)] with y := 0x01 }
    ends s { s with pc := 0x0403, p := { s.p with z := true }, cycles := 12 } = true := by
  decide +kernel

/-- `LDY #$7F` (R102). -/
theorem test_ldy_imm :
    let s := start 0x0400 [(0x400, 0xA0), (0x401, 0x7F)]
    ends s { s with y := 0x7F, pc := 0x0402, cycles := 9 } = true := by
  decide +kernel

/-- `LDY $12FF,X` (R102). -/
theorem test_ldy_abx :
    let s := { start 0x0400 [(0x400, 0xBC), (0x401, 0xFF), (0x402, 0x12), (0x1301, 0x80)] with x := 0x02 }
    ends s { s with y := 0x80, pc := 0x0403, p := { s.p with n := true }, cycles := 12 } = true := by
  decide +kernel

/-- `STA $12FF,X` (R103). -/
theorem test_sta_abx :
    let s := { start 0x0400 [(0x400, 0x9D), (0x401, 0xFF), (0x402, 0x12)] with a := 0xAB, x := 0x01 }
    ends s { s with pc := 0x0403, mem := s.mem.poke 0x1300 0xAB, cycles := 12 } = true := by
  decide +kernel

/-- `STA ($10),Y` (R103). -/
theorem test_sta_izy :
    let s := { start 0x0400 [(0x10, 0x01), (0x11, 0x30), (0x400, 0x91), (0x401, 0x10)] with a := 0x22, y := 0xFF }
    ends s { s with pc := 0x0402, mem := s.mem.poke 0x3100 0x22, cycles := 13 } = true := by
  decide +kernel

/-- `STX $10,Y` (R104). -/
theorem test_stx_zpy :
    let s := { start 0x0400 [(0x400, 0x96), (0x401, 0x10)] with x := 0x77, y := 0xF8 }
    ends s { s with pc := 0x0402, mem := s.mem.poke 0x0008 0x77, cycles := 11 } = true := by
  decide +kernel

/-- `STY $10,X` (R105). -/
theorem test_sty_zpx :
    let s := { start 0x0400 [(0x400, 0x94), (0x401, 0x10)] with x := 0x01, y := 0x88 }
    ends s { s with pc := 0x0402, mem := s.mem.poke 0x0011 0x88, cycles := 11 } = true := by
  decide +kernel

/-! ## Transfers and stack: one step, from part 2 of spec/95_test_vectors -/

/-- `TAX` (R110). -/
theorem test_tax :
    let s := { start 0x0400 [(0x400, 0xAA)] with x := 0x55 }
    ends s { s with x := 0x00, pc := 0x0401, p := { s.p with z := true }, cycles := 9 } = true := by
  decide +kernel

/-- `TAY` (R111). -/
theorem test_tay :
    let s := { start 0x0400 [(0x400, 0xA8)] with a := 0xFF }
    ends s { s with y := 0xFF, pc := 0x0401, p := { s.p with n := true }, cycles := 9 } = true := by
  decide +kernel

/-- `TXA` (R112). -/
theorem test_txa :
    let s := { start 0x0400 [(0x400, 0x8A)] with x := 0x80 }
    ends s { s with a := 0x80, pc := 0x0401, p := { s.p with n := true }, cycles := 9 } = true := by
  decide +kernel

/-- `TYA` (R113). -/
theorem test_tya :
    let s := { start 0x0400 [(0x400, 0x98)] with y := 0x01, p := { State.reset.p with n := true, z := true } }
    ends s { s with a := 0x01, pc := 0x0401, p := { s.p with n := false, z := false }, cycles := 9 } = true := by
  decide +kernel

/-- `TSX` (R114). -/
theorem test_tsx :
    let s := { start 0x0400 [(0x400, 0xBA)] with sp := 0x00 }
    ends s { s with pc := 0x0401, p := { s.p with z := true }, cycles := 9 } = true := by
  decide +kernel

/-- `TXS` (R115). -/
theorem test_txs :
    let s := { start 0x0400 [(0x400, 0x9A)] with p := { State.reset.p with n := true } }
    ends s { s with sp := 0x00, pc := 0x0401, cycles := 9 } = true := by
  decide +kernel

/-- `PHA` (R116). -/
theorem test_pha_wraps :
    let s := { start 0x0400 [(0x400, 0x48)] with a := 0x99, sp := 0x00 }
    ends s { s with sp := 0xFF, pc := 0x0401, mem := s.mem.poke 0x0100 0x99, cycles := 10 } = true := by
  decide +kernel

/-- `PHP` (R117). -/
theorem test_php :
    let s :=
      { start 0x0400 [(0x400, 0x08)] with sp := 0xFF, p := { State.reset.p with n := true, v := true, d := true, i := false, z := true, c := true } }
    ends s { s with sp := 0xFE, pc := 0x0401, mem := s.mem.poke 0x01FF 0xFB, cycles := 10 } = true := by
  decide +kernel

/-- `PLA` (R118). -/
theorem test_pla_wraps :
    let s := { start 0x0400 [(0x400, 0x68)] with sp := 0xFF }
    ends s { s with sp := 0x00, pc := 0x0401, p := { s.p with z := true }, cycles := 11 } = true := by
  decide +kernel

/-- `PLP` (R119). -/
theorem test_plp :
    let s := { start 0x0400 [(0x400, 0x28)] with sp := 0xFE, p := { State.reset.p with c := true } }
    ends s { s with sp := 0xFF, pc := 0x0401, p := { s.p with i := false, c := false }, cycles := 11 } = true := by
  decide +kernel

/-! ## Arithmetic and compare: one step, from part 2 of spec/95_test_vectors -/

/-- `ADC #$7F` (R120). -/
theorem test_adc_overflow :
    let s := { start 0x0400 [(0x400, 0x69), (0x401, 0x7F)] with a := 0x7F, p := { State.reset.p with c := true } }
    ends s { s with a := 0xFF, pc := 0x0402, p := { s.p with n := true, v := true, c := false }, cycles := 9 } = true := by
  decide +kernel

/-- `ADC #$46` (R120, R126). -/
theorem test_adc_decimal :
    let s := { start 0x0400 [(0x400, 0x69), (0x401, 0x46)] with a := 0x58, p := { State.reset.p with d := true, c := true } }
    ends s { s with a := 0x05, pc := 0x0402, p := { s.p with n := true, v := true }, cycles := 9 } = true := by
  decide +kernel

/-- `SBC #$B0` (R121). -/
theorem test_sbc_overflow :
    let s := { start 0x0400 [(0x400, 0xE9), (0x401, 0xB0)] with a := 0x50, p := { State.reset.p with c := true } }
    ends s { s with a := 0xA0, pc := 0x0402, p := { s.p with n := true, v := true, c := false }, cycles := 9 } = true := by
  decide +kernel

/-- `SBC #$21` (R121, R127). -/
theorem test_sbc_decimal :
    let s := { start 0x0400 [(0x400, 0xE9), (0x401, 0x21)] with a := 0x12, p := { State.reset.p with d := true, c := true } }
    ends s { s with a := 0x91, pc := 0x0402, p := { s.p with n := true, c := false }, cycles := 9 } = true := by
  decide +kernel

/-- `CMP #$41` (R122). -/
theorem test_cmp_borrow :
    let s := { start 0x0400 [(0x400, 0xC9), (0x401, 0x41)] with a := 0x40 }
    ends s { s with pc := 0x0402, p := { s.p with n := true }, cycles := 9 } = true := by
  decide +kernel

/-- `CMP #$FF` (R122). -/
theorem test_cmp_unsigned :
    let s := start 0x0400 [(0x400, 0xC9), (0x401, 0xFF)]
    ends s { s with pc := 0x0402, cycles := 9 } = true := by
  decide +kernel

/-- `CPX $10` (R123). -/
theorem test_cpx :
    let s := { start 0x0400 [(0x10, 0x06), (0x400, 0xE4), (0x401, 0x10)] with x := 0x05 }
    ends s { s with pc := 0x0402, p := { s.p with n := true }, cycles := 10 } = true := by
  decide +kernel

/-- `CPY $1234` (R124). -/
theorem test_cpy :
    let s := { start 0x0400 [(0x400, 0xCC), (0x401, 0x34), (0x402, 0x12), (0x1234, 0x7F)] with y := 0xFF }
    ends s { s with pc := 0x0403, p := { s.p with n := true, c := true }, cycles := 11 } = true := by
  decide +kernel

/-! ## Logic: one step, from part 2 of spec/95_test_vectors -/

/-- `AND #$80` (R130). -/
theorem test_and :
    let s := { start 0x0400 [(0x400, 0x29), (0x401, 0x80)] with a := 0xFF }
    ends s { s with a := 0x80, pc := 0x0402, p := { s.p with n := true }, cycles := 9 } = true := by
  decide +kernel

/-- `ORA $10` (R131). -/
theorem test_ora :
    let s := { start 0x0400 [(0x10, 0x80), (0x400, 0x05), (0x401, 0x10)] with a := 0x01 }
    ends s { s with a := 0x81, pc := 0x0402, p := { s.p with n := true }, cycles := 10 } = true := by
  decide +kernel

/-- `EOR ($10),Y` (R132). -/
theorem test_eor_izy :
    let s :=
      { start 0x0400 [(0x10, 0xFF), (0x11, 0x20), (0x400, 0x51), (0x401, 0x10), (0x2100, 0xF0)] with a := 0x0F, y := 0x01 }
    ends s { s with a := 0xFF, pc := 0x0402, p := { s.p with n := true }, cycles := 13 } = true := by
  decide +kernel

/-- `BIT $10` (R133). -/
theorem test_bit_sets :
    let s := { start 0x0400 [(0x10, 0xC0), (0x400, 0x24), (0x401, 0x10)] with a := 0x01 }
    ends s { s with pc := 0x0402, p := { s.p with n := true, v := true, z := true }, cycles := 10 } = true := by
  decide +kernel

/-- `BIT $10` (R133). -/
theorem test_bit_clears :
    let s :=
      { start 0x0400 [(0x10, 0x3F), (0x400, 0x24), (0x401, 0x10)] with a := 0xFF, p := { State.reset.p with n := true, v := true } }
    ends s { s with pc := 0x0402, p := { s.p with n := false, v := false }, cycles := 10 } = true := by
  decide +kernel

/-! ## Shifts, increments, decrements: one step, from part 2 of spec/95_test_vectors -/

/-- `ASL A` (R140). -/
theorem test_asl_acc :
    let s := { start 0x0400 [(0x400, 0x0A)] with a := 0x40, p := { State.reset.p with c := true } }
    ends s { s with a := 0x80, pc := 0x0401, p := { s.p with n := true, c := false }, cycles := 9 } = true := by
  decide +kernel

/-- `ASL $10` (R140). -/
theorem test_asl_zp :
    let s := start 0x0400 [(0x10, 0xFF), (0x400, 0x06), (0x401, 0x10)]
    ends s
      { s with
        pc := 0x0402
        p := { s.p with n := true, c := true }
        mem := s.mem.poke 0x0010 0xFE
        cycles := 12 } = true := by
  decide +kernel

/-- `LSR A` (R141). -/
theorem test_lsr_acc :
    let s := { start 0x0400 [(0x400, 0x4A)] with a := 0x01, p := { State.reset.p with n := true } }
    ends s { s with a := 0x00, pc := 0x0401, p := { s.p with n := false, z := true, c := true }, cycles := 9 } = true := by
  decide +kernel

/-- `LSR $1234` (R141). -/
theorem test_lsr_abs :
    let s := start 0x0400 [(0x400, 0x4E), (0x401, 0x34), (0x402, 0x12), (0x1234, 0xFE)]
    ends s { s with pc := 0x0403, mem := s.mem.poke 0x1234 0x7F, cycles := 13 } = true := by
  decide +kernel

/-- `ROL A` (R142). -/
theorem test_rol_acc :
    let s := { start 0x0400 [(0x400, 0x2A)] with p := { State.reset.p with c := true } }
    ends s { s with a := 0x01, pc := 0x0401, p := { s.p with c := false }, cycles := 9 } = true := by
  decide +kernel

/-- `ROL $10,X` (R142). -/
theorem test_rol_zpx :
    let s := { start 0x0400 [(0x11, 0x7F), (0x400, 0x36), (0x401, 0x10)] with x := 0x01, p := { State.reset.p with c := true } }
    ends s
      { s with
        pc := 0x0402
        p := { s.p with n := true, c := false }
        mem := s.mem.poke 0x0011 0xFF
        cycles := 13 } = true := by
  decide +kernel

/-- `ROR A` (R143). -/
theorem test_ror_acc :
    let s := { start 0x0400 [(0x400, 0x6A)] with p := { State.reset.p with c := true } }
    ends s { s with a := 0x80, pc := 0x0401, p := { s.p with n := true, c := false }, cycles := 9 } = true := by
  decide +kernel

/-- `ROR $12FF,X` (R143). -/
theorem test_ror_abx :
    let s :=
      { start 0x0400 [(0x400, 0x7E), (0x401, 0xFF), (0x402, 0x12), (0x1300, 0x02)] with x := 0x01, p := { State.reset.p with c := true } }
    ends s
      { s with
        pc := 0x0403
        p := { s.p with n := true, c := false }
        mem := s.mem.poke 0x1300 0x81
        cycles := 14 } = true := by
  decide +kernel

/-- `INC $10` (R144). -/
theorem test_inc_zp :
    let s := { start 0x0400 [(0x10, 0xFF), (0x400, 0xE6), (0x401, 0x10)] with p := { State.reset.p with c := true } }
    ends s { s with pc := 0x0402, p := { s.p with z := true }, mem := s.mem.poke 0x0010 0x00, cycles := 12 } = true := by
  decide +kernel

/-- `INC $1200,X` (R144). -/
theorem test_inc_abx :
    let s := start 0x0400 [(0x400, 0xFE), (0x402, 0x12)]
    ends s { s with pc := 0x0403, mem := s.mem.poke 0x1200 0x01, cycles := 14 } = true := by
  decide +kernel

/-- `DEC $10` (R145). -/
theorem test_dec_zp :
    let s := start 0x0400 [(0x400, 0xC6), (0x401, 0x10)]
    ends s { s with pc := 0x0402, p := { s.p with n := true }, mem := s.mem.poke 0x0010 0xFF, cycles := 12 } = true := by
  decide +kernel

/-- `DEC $10,X` (R145). -/
theorem test_dec_zpx :
    let s := { start 0x0400 [(0xF, 0x01), (0x400, 0xD6), (0x401, 0x10)] with x := 0xFF }
    ends s { s with pc := 0x0402, p := { s.p with z := true }, mem := s.mem.poke 0x000F 0x00, cycles := 13 } = true := by
  decide +kernel

/-- `INX` (R146). -/
theorem test_inx :
    let s := { start 0x0400 [(0x400, 0xE8)] with x := 0xFF }
    ends s { s with x := 0x00, pc := 0x0401, p := { s.p with z := true }, cycles := 9 } = true := by
  decide +kernel

/-- `INY` (R147). -/
theorem test_iny :
    let s := { start 0x0400 [(0x400, 0xC8)] with y := 0x7F }
    ends s { s with y := 0x80, pc := 0x0401, p := { s.p with n := true }, cycles := 9 } = true := by
  decide +kernel

/-- `DEX` (R148). -/
theorem test_dex :
    let s := start 0x0400 [(0x400, 0xCA)]
    ends s { s with x := 0xFF, pc := 0x0401, p := { s.p with n := true }, cycles := 9 } = true := by
  decide +kernel

/-- `DEY` (R149). -/
theorem test_dey :
    let s := { start 0x0400 [(0x400, 0x88)] with y := 0x01 }
    ends s { s with y := 0x00, pc := 0x0401, p := { s.p with z := true }, cycles := 9 } = true := by
  decide +kernel

/-! ## Control transfer: one step, from part 2 of spec/95_test_vectors -/

/-- `JMP $1234` (R150). -/
theorem test_jmp_abs :
    let s := start 0x0400 [(0x400, 0x4C), (0x401, 0x34), (0x402, 0x12)]
    ends s { s with pc := 0x1234, cycles := 10 } = true := by
  decide +kernel

/-- `JMP ($30FF)` (R150 (scenario 2)). -/
theorem test_jmp_ind :
    let s := start 0x3000 [(0x3000, 0x6C), (0x3001, 0xFF), (0x3002, 0x30), (0x30FF, 0x34), (0x3100, 0x99)]
    ends s { s with pc := 0x6C34, cycles := 12 } = true := by
  decide +kernel

/-- `JSR $1234` (R151). -/
theorem test_jsr :
    let s := { start 0x80FE [(0x80FE, 0x20), (0x80FF, 0x34), (0x8100, 0x12)] with sp := 0xFF }
    ends s { s with sp := 0xFD, pc := 0x1234, mem := (s.mem.poke 0x01FF 0x81).poke 0x01FE 0x00, cycles := 13 } = true := by
  decide +kernel

/-- `JSR $1234` (R151). -/
theorem test_jsr_wraps :
    let s := { start 0x0400 [(0x400, 0x20), (0x401, 0x34), (0x402, 0x12)] with sp := 0x00 }
    ends s { s with sp := 0xFE, pc := 0x1234, mem := (s.mem.poke 0x0100 0x04).poke 0x01FF 0x02, cycles := 13 } = true := by
  decide +kernel

/-- `RTS` (R152). -/
theorem test_rts :
    let s := start 0x0400 [(0x1FE, 0xFF), (0x1FF, 0xFF), (0x400, 0x60)]
    ends s { s with sp := 0xFF, pc := 0x0000, cycles := 13 } = true := by
  decide +kernel

/-- `BCC +127` (R153). -/
theorem test_bcc :
    let s := start 0x0400 [(0x400, 0x90), (0x401, 0x7F)]
    ends s { s with pc := 0x0481, cycles := 10 } = true := by
  decide +kernel

/-- `BCS -128` (R154). -/
theorem test_bcs :
    let s := { start 0x0400 [(0x400, 0xB0), (0x401, 0x80)] with p := { State.reset.p with c := true } }
    ends s { s with pc := 0x0382, cycles := 11 } = true := by
  decide +kernel

/-- `BEQ -2` (R155). -/
theorem test_beq :
    let s := { start 0x0400 [(0x400, 0xF0), (0x401, 0xFE)] with p := { State.reset.p with z := true } }
    ends s { s with pc := 0x0400, cycles := 10 } = true := by
  decide +kernel

/-- `BNE +4` (R156 (scenario 5)). -/
theorem test_bne_other_page :
    let s := start 0x10FD [(0x10FD, 0xD0), (0x10FE, 0x04)]
    ends s { s with pc := 0x1103, cycles := 11 } = true := by
  decide +kernel

/-- `BNE +1` (R156, R12). -/
theorem test_bne_wraps :
    let s := start 0xFFFD [(0xFFFD, 0xD0), (0xFFFE, 0x01)]
    ends s { s with pc := 0x0000, cycles := 11 } = true := by
  decide +kernel

/-- `BMI -3` (R157). -/
theorem test_bmi :
    let s := { start 0x0500 [(0x500, 0x30), (0x501, 0xFD)] with p := { State.reset.p with n := true } }
    ends s { s with pc := 0x04FF, cycles := 11 } = true := by
  decide +kernel

/-- `BPL +2` (R158). -/
theorem test_bpl_not_taken :
    let s := { start 0x0400 [(0x400, 0x10), (0x401, 0x02)] with p := { State.reset.p with n := true } }
    ends s { s with pc := 0x0402, cycles := 9 } = true := by
  decide +kernel

/-- `BVC +2` (R159). -/
theorem test_bvc :
    let s := start 0x04FC [(0x4FC, 0x50), (0x4FD, 0x02)]
    ends s { s with pc := 0x0500, cycles := 11 } = true := by
  decide +kernel

/-- `BVS +2` (R160). -/
theorem test_bvs :
    let s := { start 0x04FB [(0x4FB, 0x70), (0x4FC, 0x02)] with p := { State.reset.p with v := true } }
    ends s { s with pc := 0x04FF, cycles := 10 } = true := by
  decide +kernel

/-! ## Flags and system: one step, from part 2 of spec/95_test_vectors -/

/-- `CLC` (R170). -/
theorem test_clc :
    let s := { start 0x0400 [(0x400, 0x18)] with p := { State.reset.p with c := true } }
    ends s { s with pc := 0x0401, p := { s.p with c := false }, cycles := 9 } = true := by
  decide +kernel

/-- `SEC` (R171). -/
theorem test_sec :
    let s := start 0x0400 [(0x400, 0x38)]
    ends s { s with pc := 0x0401, p := { s.p with c := true }, cycles := 9 } = true := by
  decide +kernel

/-- `CLI` (R172). -/
theorem test_cli :
    let s := start 0x0400 [(0x400, 0x58)]
    ends s { s with pc := 0x0401, p := { s.p with i := false }, cycles := 9 } = true := by
  decide +kernel

/-- `SEI` (R173). -/
theorem test_sei :
    let s := { start 0x0400 [(0x400, 0x78)] with p := { State.reset.p with i := false } }
    ends s { s with pc := 0x0401, p := { s.p with i := true }, cycles := 9 } = true := by
  decide +kernel

/-- `CLD` (R174). -/
theorem test_cld :
    let s := { start 0x0400 [(0x400, 0xD8)] with p := { State.reset.p with d := true } }
    ends s { s with pc := 0x0401, p := { s.p with d := false }, cycles := 9 } = true := by
  decide +kernel

/-- `SED` (R175). -/
theorem test_sed :
    let s := start 0x0400 [(0x400, 0xF8)]
    ends s { s with pc := 0x0401, p := { s.p with d := true }, cycles := 9 } = true := by
  decide +kernel

/-- `CLV` (R176). -/
theorem test_clv :
    let s := { start 0x0400 [(0x400, 0xB8)] with p := { State.reset.p with v := true } }
    ends s { s with pc := 0x0401, p := { s.p with v := false }, cycles := 9 } = true := by
  decide +kernel

/-- `NOP` (R177). -/
theorem test_nop :
    let s := start 0x0400 [(0x400, 0xEA)]
    ends s { s with pc := 0x0401, cycles := 9 } = true := by
  decide +kernel

/-- `BRK` (R178). -/
theorem test_brk :
    let s :=
      { start 0x8006 [(0x8007, 0xFF), (0xFFFF, 0x90)] with sp := 0xFF, p := { State.reset.p with d := true, i := false, c := true } }
    ends s
      { s with
        sp := 0xFC
        pc := 0x9000
        p := { s.p with i := true }
        mem := ((s.mem.poke 0x01FF 0x80).poke 0x01FE 0x08).poke 0x01FD 0x39
        cycles := 14 } = true := by
  decide +kernel

/-- `BRK` (R178). -/
theorem test_brk_wraps :
    let s := { start 0x04FF [(0xFFFE, 0x34), (0xFFFF, 0x12)] with sp := 0x01, p := { State.reset.p with n := true } }
    ends s
      { s with
        sp := 0xFE
        pc := 0x1234
        mem := ((s.mem.poke 0x0101 0x05).poke 0x0100 0x01).poke 0x01FF 0xB4
        cycles := 14 } = true := by
  decide +kernel

/-- `RTI` (R179). -/
theorem test_rti :
    let s := { start 0x0400 [(0x1FD, 0xE3), (0x1FE, 0x08), (0x1FF, 0x80), (0x400, 0x40)] with sp := 0xFC }
    ends s
      { s with
        sp := 0xFF
        pc := 0x8008
        p := { s.p with n := true, v := true, i := false, z := true, c := true }
        cycles := 13 } = true := by
  decide +kernel

/-- `RTI` (R179). -/
theorem test_rti_wraps :
    let s := { start 0x0400 [(0x101, 0x20), (0x1FF, 0x30), (0x400, 0x40)] with sp := 0xFE }
    ends s { s with sp := 0x01, pc := 0x2000, p := { s.p with i := false }, cycles := 13 } = true := by
  decide +kernel

/-- `illegal $FF (Nop2)` (R180). -/
theorem test_ill_ff :
    let s := { start 0x0400 [(0x400, 0xFF)] with a := 0x12, p := { State.reset.p with c := true } }
    ends s { s with pc := 0x0401, cycles := 9 } = true := by
  decide +kernel

/-- `illegal $80 (Nop2)` (R180). -/
theorem test_ill_80 :
    let s := start 0x0400 [(0x400, 0x80), (0x401, 0x55)]
    ends s { s with pc := 0x0401, cycles := 9 } = true := by
  decide +kernel

/-! ## Reset, interrupts and halts: part 4 of spec/95_test_vectors -/

/-- An INIT of zeros, the model's choice for what R26 does not give (log 2, log 11). -/
def zeros : Init where
  a := 0
  x := 0
  y := 0
  sp := 0
  pc := 0
  p := { n := false, v := false, d := false, i := false, z := false, c := false }
  opcode := 0
  adl := 0
  adh := 0
  ptr := 0
  operand := 0
  pageCross := false

/-- The state at construction (R26). -/
def power : State := State.constructed zeros 1 State.reset.platform 0

/-- R290: reset() and 7 ticks lead from construction to `State.reset`. -/
theorem test_reset_from_power : after (ticks 7 (resetCall power)) (fun t => decide (t = State.reset)) = true := by
  decide +kernel

/-- R26, with an INIT of no zeros: the sequence leaves A, X, Y, N, V, Z and C, and what it writes does not depend on INIT. -/
theorem test_reset_from_construction :
    let p : Flags := { n := true, v := true, d := true, i := false, z := true, c := true }
    let s := State.constructed { zeros with a := 0x11, x := 0x22, y := 0x33, sp := 0x44, pc := 0x5566, p := p } 1000000
      State.reset.platform 0
    (s.cycles == 0 && s.sp == 0x44 && s.pc == 0x5566 && s.micro.seq == .instr && s.fabric.clock.frequency == 1000000) = true ∧
      after (ticks 7 (resetCall s))
        (fun t => t.a == 0x11 && t.x == 0x22 && t.y == 0x33 && t.sp == 0xFD && t.pc == 0x0000 && t.cycles == 7 &&
          t.micro.cycleIndex == 0 && decide (t.p = { p with d := false, i := true })) = true := by
  decide +kernel

/-- Scenario 1: reset and LDA #$42 from 8000, 7 + 2 cycles. -/
theorem test_scenario_1 :
    after (ticks 9 (resetCall { power with mem := ram [(0x8000, 0xA9), (0x8001, 0x42), (0xFFFD, 0x80)] }))
      (fun t => t.a == 0x42 && !t.p.z && !t.p.n && t.pc == 0x8002 && t.cycles == 9) = true := by
  decide +kernel

/-- Scenario 6: an IRQ with I = 0. -/
theorem test_irq :
    let s := { start 0x8003 [(0xFFFF, 0x90)] with sp := 0xFF, p := { State.reset.p with i := false } }
    ends (irqLine true s)
      { irqLine true s with
        pc := 0x9000
        sp := 0xFC
        p := State.reset.p
        mem := ram [(0x1FD, 0x20), (0x1FE, 0x03), (0x1FF, 0x80), (0xFFFF, 0x90)]
        cycles := 14 } = true := by
  decide +kernel

/-- An IRQ with I = 1 waits: the NOP runs. -/
theorem test_irq_masked :
    after (step (irqLine true (start 0x0400 [(0x400, 0xEA)]))) (fun t => t.pc == 0x0401 && t.lines.irqLevel) = true := by
  decide +kernel

/-- An NMI ignores I, pushes B = 0 and enters through FFFA. -/
theorem test_nmi :
    after (step (nmiLine true (nmiLine false (start 0x0400 [(0xFFFB, 0xA0)]))))
      (fun t => t.pc == 0xA000 && !t.lines.nmiPending && t.mem.peek 0x01FB == some 0x24) = true := by
  decide +kernel

/-- An NMI edge after BRK's first cycle takes its vector; the frame still has B = 1 and a + 2. -/
theorem test_nmi_hijacks_brk :
    after (ticks 1 (start 0x0400 [(0xFFFB, 0xA0), (0xFFFF, 0x90)])) (fun t =>
      after (step (nmiLine true t)) fun u =>
        u.pc == 0xA000 && !u.lines.nmiPending && u.mem.peek 0x01FB == some 0x34 && u.mem.peek 0x01FC == some 0x02) = true := by
  decide +kernel

/-- A reset and an NMI before one boundary: the reset first, the NMI still pending. -/
theorem test_reset_has_priority :
    after (step (resetCall (nmiLine true (start 0x0400 [(0xFFFB, 0xA0), (0xFFFD, 0x80)]))))
      (fun t => t.pc == 0x8000 && t.lines.nmiPending && !t.lines.resetPending) = true := by
  decide +kernel

/-- A reset writes nothing: the stack byte keeps its AA (R222, D4). -/
theorem test_reset_leaves_memory :
    after (step (resetCall (start 0x0400 [(0x100, 0xAA), (0x1FE, 0xAA), (0x1FF, 0xAA), (0xFFFD, 0x80)])))
      (fun t => decide (t.mem = ram [(0x100, 0xAA), (0x1FE, 0xAA), (0x1FF, 0xAA), (0xFFFD, 0x80)]) && t.sp == 0xFD) = true := by
  decide +kernel

/-- A strict illegal opcode halts in its fetch cycle, and reset() does not revive the machine. -/
theorem test_ill_strict :
    let s := { start 0x0400 [(0x400, 0x02)] with platform := { illegalPolicy := .strict, periods := [] } }
    after (step s) (fun t =>
      t.halted == some (.invalidOpcode 0x02 0x0400) && t.pc == 0x0401 && t.cycles == 8 &&
        after (ticks 8 (resetCall t)) fun u => u.pc == 0x0401 && u.cycles == 8) = true := by
  decide +kernel

/-- Mid-instruction (R193): after three ticks of `LDA $1234` the old A, PC = a + 3. -/
theorem test_commit_point :
    after (ticks 3 (start 0x0400 [(0x400, 0xAD), (0x401, 0x34), (0x402, 0x12), (0x1234, 0xFE)]))
      (fun t => t.a == 0x00 && t.pc == 0x0403 && t.micro.cycleIndex == 3) = true := by
  decide +kernel

/-! ## Memory: set-up M of part 5 of spec/95_test_vectors -/

/-- RAM everywhere, ROM at the top (its byte at E000 listed), a handler bank at D000. -/
def setupM : Memory where
  banks :=
    [{ id := 1, kind := .ram, lo := 0x0000, hi := 0xFFFF, length := 65536, cells := [] },
     { id := 2, kind := .rom, lo := 0xE000, hi := 0xFFFF, length := 8192, cells := [(0, 0xEE)] },
     { id := 3, kind := .handler, lo := 0xD000, hi := 0xD0FF, length := 0, cells := [] }]
  active :=
    [{ lo := 0, hi := 0xCFFF, id := 1 }, { lo := 0xD000, hi := 0xD0FF, id := 3 }, { lo := 0xD100, hi := 0xDFFF, id := 1 },
     { lo := 0xE000, hi := 0xFFFF, id := 2 }]

/-- The three installs give that map (R48). -/
theorem test_install :
    (((Memory.install { banks := [], active := [] } (Bank.blank 1 .ram 0x0000 0xFFFF)).bind fun m =>
      m.install { Bank.blank 2 .rom 0xE000 0xFFFF with cells := [(0, 0xEE)] }).bind fun m =>
      m.install (Bank.handled 3 0xD000 0xD0FF)) = some setupM := by
  decide +kernel

/-- Steps 1 and 2: ROM answers, and a write does not reach it. -/
theorem test_rom_ignores_writes :
    (setupM.poke 0xE000 0x11).peek 0xE000 = some 0xEE ∧ (setupM.poke 0x1000 0x22).peek 0x1000 = some 0x22 := by
  decide +kernel

/-- Steps 5 to 7: the RAM under the ROM, and the ROM again. -/
theorem test_switch :
    (setupM.switch 0xE000 0xFFFF 1).map (fun m => m.peek 0xE000) = some (some 0x00) ∧
      (((setupM.switch 0xE000 0xFFFF 1).map fun m => m.poke 0xE000 0x33).bind fun m =>
        m.switch 0xE000 0xFFFF 2).map (fun m => m.peek 0xE000) = some (some 0xEE) := by
  decide +kernel

/-- Steps 8 to 10: calls that are rejected. -/
theorem test_bank_rejections :
    setupM.switch 0xC000 0xC0FF 2 = none ∧ setupM.switch 0xE000 0xE0FF 9 = none ∧
      setupM.install (Bank.blank 2 .ram 0x0000 0x00FF) = none := by
  decide +kernel

/-- R48: `length(storage) = hi - lo + 1`; one byte less and one more are rejected, zeros or not, as is a `lo` above `hi`. -/
theorem test_bank_length :
    (setupM.install (Bank.ofBytes 4 .ram 0x0010 0x0012 [0x00, 0x01, 0x00])).isSome = true ∧
      setupM.install (Bank.ofBytes 4 .ram 0x0010 0x0012 [0x00, 0x01]) = none ∧
      setupM.install (Bank.ofBytes 4 .ram 0x0010 0x0012 [0x00, 0x01, 0x00, 0x00]) = none ∧
      setupM.install (Bank.ofBytes 4 .rom 0x0010 0x000F []) = none ∧
      setupM.install (Bank.ofBytes 4 .handler 0x0010 0x0010 [0x00]) = none := by
  decide +kernel

/-- Step 11: an unmapped address reads 00 and ignores writes. -/
theorem test_open_bus :
    let m : Memory :=
      { banks := [{ id := 1, kind := .ram, lo := 0x0000, hi := 0x7FFF, length := 32768, cells := [] }],
        active := [{ lo := 0, hi := 0x7FFF, id := 1 }] }
    m.peek 0x8000 = some 0x00 ∧ m.poke 0x8000 0x44 = m := by
  decide +kernel

/-- Step 12: an image that runs past FFFF. -/
theorem test_image_too_long :
    (match loadImage 0xFFFE [1, 2, 3] (start 0 []) with
      | .refused e => decide (e = .config .imageTooLong)
      | _ => false) = true := by
  decide +kernel

/-- Step 13: ROM takes an image. -/
theorem test_image_into_rom :
    after (loadImage 0xFFFC [0x00, 0x80] { start 0 [] with mem := setupM })
      (fun t => t.mem.peek 0xFFFC == some 0x00 && t.mem.peek 0xFFFD == some 0x80) = true := by
  decide +kernel

/-- The memories of these tests are canonical, and writing the byte that an unlisted cell reads as unlists it. -/
theorem test_memory_form :
    setupM.wf = true ∧ (ram [(0x10, 0x01)]).wf = true ∧ (ram [(0x10, 0x00)]).wf = false ∧
      (ram [(0x10, 0x01)]).poke 0x0010 0x00 = ram [] := by
  decide +kernel

/-! ## Wires, clock, harness: part 5 of spec/95_test_vectors -/

/-- The CPU on the clock's wire, and wire 1 with source 11. -/
def wired (sinks : List Sink) : State :=
  { start 0x0400 [(0x400, 0xEA), (0x401, 0xEA), (0x402, 0xEA)] with
    fabric :=
      { State.reset.fabric with
        wires :=
          [{ id := 0, value := .bit false, source := some clockEndpoint,
             sinks := [{ endpoint := 20, action := .cpu .clock }] },
           { id := 1, value := .bit false, source := some 11, sinks := sinks }] } }

/-- Default period: six steps, output 0 again, three ticks. -/
theorem test_clock_default_period :
    after (happenAll (List.replicate 6 .computerStep) (wired []))
      (fun t => t.cycles == 10 && t.fabric.tickCount == 6 && !t.fabric.clock.out && t.pc == 0x0402) = true := by
  decide +kernel

/-- Period 3: twelve steps, two ticks. -/
theorem test_clock_period_three :
    after (happenAll (List.replicate 12 .computerStep)
      { wired [] with platform := { illegalPolicy := .nop2, periods := [(1, 3)] } }) (fun t => t.cycles == 9) = true := by
  decide +kernel

/-- A frequency change: `phase` = 2 of 4, then a period of 1 toggles at once. -/
theorem test_clock_frequency_change :
    after (happenAll [.computerStep, .computerStep, .setFrequency 9, .computerStep]
      { wired [] with platform := { illegalPolicy := .nop2, periods := [(1, 4), (9, 1)] } })
      (fun t => t.fabric.clock.out && t.fabric.clock.phase == 0 && t.cycles == 8) = true := by
  decide +kernel

/-- A halted CPU: the clock goes on, `cycles` does not. -/
theorem test_clock_halted_cpu :
    after (happenAll (List.replicate 3 .computerStep) { wired [] with halted := some (.invalidOpcode 0x02 0x0400) })
      (fun t => t.fabric.tickCount == 3 && t.fabric.clock.out && t.cycles == 7) = true := by
  decide +kernel

/-- NMI over a wire: a second 1 is no edge. -/
theorem test_nmi_wire :
    let s := wired [{ endpoint := 21, action := .cpu .nmi }]
    after (happenAll [.write 11 (.bit true)] s) (fun t => t.lines.nmiPending) = true ∧
      after (happenAll [.write 11 (.bit true)] { s with lines := { s.lines with nmiPrev := true } })
        (fun t => !t.lines.nmiPending) = true := by
  decide +kernel

/-- Connecting delivers the wire's value once (R231): here to a RESET input. -/
theorem test_connect_delivers :
    after (happenAll [.write 11 (.bit true), .connect 11 { endpoint := 22, action := .cpu .reset }] (wired []))
      (fun t => t.lines.resetPending) = true := by
  decide +kernel

/-- Rejected: a sink of another width, a second source, a write through a sink (R234). -/
theorem test_wire_rejections :
    let s := wired [{ endpoint := 21, action := .cpu .nmi }]
    after (connect 11 { endpoint := 22, action := .component 0 true } s) (fun _ => true) = false ∧
      after (bindSource 1 12 s) (fun _ => true) = false ∧ after (hostWrite 21 (.bit true) s) (fun _ => true) = false := by
  decide +kernel

/-- The CPU's inputs are 1 bit wide (R245): an 8-bit wire takes no such sink (R234), and no delivery of 8 bits reaches one. -/
theorem test_cpu_input_is_one_bit :
    let k : Sink := { endpoint := 22, action := .cpu .reset }
    after (happenAll [.createWire 7 true, .bindSource 7 70] (wired [])) (fun t =>
      match connect 70 k t with
      | .refused e => decide (e = .config .widthMismatch)
      | _ => false) = true ∧
      after (deliverTo tick (writeWire tick) (.byte 0x01) k (wired [])) (fun _ => true) = false := by
  decide +kernel

/-- Disconnected (R233): the write reaches no sink. -/
theorem test_disconnect :
    after (happenAll [.disconnect 21, .write 11 (.bit true)] (wired [{ endpoint := 21, action := .cpu .nmi }]))
      (fun t => !t.lines.nmiPending && t.fabric.wires.length == 2) = true := by
  decide +kernel

/-- `run()` goes on until `stop()`; here the bound ends it first (R247). -/
theorem test_run :
    after (run 4 (wired [])) (fun t => t.fabric.tickCount == 4 && t.fabric.clock.running) = true ∧
      after (runLoop 4 (wired [])) (fun t => t.fabric.tickCount == 0) = true := by
  decide +kernel

/-- `State.withFetchWord`: from reset, with nothing placed, the step runs the word's instruction. -/
theorem test_with_fetch_word :
    after (step (State.reset.withFetchWord 16 0x42A9)) (fun t => t.a == 0x42 && t.pc == 0x0002 && t.cycles == 9) = true := by
  decide +kernel

/-! ## Witnesses: states and operands that meet the hypotheses of the statements -/

/-- No handler bank anywhere. -/
theorem plain_noHandler {s : State} (h : s.mem.plain = true) (a : Addr) : s.noHandler a := by
  obtain ⟨v, hv⟩ := Memory.plain_peek h a
  simp [State.noHandler, hv]

theorem ram_noHandler (cells : List Host.Cell) {s : State} (h : s.mem = ram cells) (a : Addr) : s.noHandler a := by
  apply plain_noHandler
  rw [h]
  rfl

theorem ram_isRam (cells : List Host.Cell) (a : Addr) : (ram cells).isRam a := by
  have h : (ram cells).resolve a = some 1 := by
    have := a.isLt
    simp [Memory.resolve, ram]
    omega
  rw [Memory.isRam, Memory.bankAt, h]
  rfl

/-- Well-formed instructions of every length and operand shape. -/
theorem witness_wf :
    ([.lda (.izy 0xFF), .ldx (.zpy 0), .sta (.abx 0xFFFF), .cpx (.imm 0), .bit (.abs 0x1234), .ror (.mem (.abx 0xFFFF)), .asl .acc,
      .jmp (.ind 0x30FF), .jsr 0xFFFF, .bne 0x80, .brk, .ill 0x02, .ill 0xFF] : List Instr).all Instr.wf = true := by
  decide

/-- `EncodeInvertsDecode`: bytes with one byte left over. -/
theorem witness_decode :
    decode [0xAD, 0x34, 0x12, 0xEA] = .ok (.lda (.abs 0x1234), [0xEA]) ∧ decode [0xFF, 0xEA] = .ok (.ill 0xFF, [0xEA]) := by
  decide

/-- `FirstByteFixesLength`, `IllegalBytesAreTheListedOnes`, `IllegalOpcodesComplete`: the first and the last illegal byte. -/
theorem witness_illegal :
    isIllegal 0x02 = true ∧ isIllegal 0xFF = true ∧ (0x02#8).toNat ∈ illegalBytes ∧ lookup 0xFF = none ∧ isIllegal 0xEA = false := by
  decide

theorem witness_fetches : (start 0xFFFF []).fetches := by
  simp [State.fetches, start, State.reset]

/-- `StepRunsDecodedInstruction`, `CyclesAreThoseOfTheTable`: JMP across the top of the address space. -/
theorem witness_step :
    let s := start 0xFFFF [(0x0, 0x34), (0x1, 0x12), (0xFFFF, 0x4C)]
    s.fetches ∧ decode [0x4C, 0x34, 0x12] = .ok (.jmp (.abs 0x1234), []) ∧ s.holdsAtPc [0x4C, 0x34, 0x12] ∧ (∀ a, s.noHandler a) := by
  exact ⟨by simp [State.fetches, start, State.reset], by decide, by unfold State.holdsAtPc; decide +kernel, ram_noHandler _ rfl⟩

/-- The same for JSR, whose third byte comes last, and for an illegal opcode under Nop2. -/
theorem witness_step_jsr_ill :
    (start 0x0400 [(0x400, 0x20), (0x401, 0x34), (0x402, 0x12)]).holdsAtPc [0x20, 0x34, 0x12] ∧
      decode [0x20, 0x34, 0x12] = .ok (.jsr 0x1234, []) ∧ (start 0x0400 [(0x400, 0x80)]).holdsAtPc [0x80] ∧
      decode [0x80] = .ok (.ill 0x80, []) ∧ (start 0x0400 [(0x400, 0x80)]).platform.illegalPolicy = .nop2 := by
  exact ⟨by unfold State.holdsAtPc; decide +kernel, by decide, by unfold State.holdsAtPc; decide +kernel, by decide, rfl⟩

/-- `HaltedMachineStays`. -/
theorem witness_halted : ({ State.reset with halted := some (.invalidOpcode 0x02 0x0400) } : State).halted ≠ none := by decide

/-- A machine in the middle of `LDA $1234`, after three cycles. -/
def midway : State :=
  { start 0x0403 [(0x400, 0xAD), (0x401, 0x34), (0x402, 0x12), (0x1234, 0xFE)] with
    micro := { State.reset.micro with seq := .instr, cycleIndex := 3, opcode := 0xAD, adl := 0x34, adh := 0x12 } }

/-- `StepNeverSticksOnStorage`, `TickNeverLacksALine`, `LatchesExaminedOnlyAtBoundaries`: the middle of a sequence, and a boundary. -/
theorem witness_midway :
    midway.mem.plain = true ∧ midway.microWf = true ∧ midway.halted = none ∧ midway.micro.cycleIndex ≠ 0 ∧
      State.reset.mem.plain = true ∧ State.reset.microWf = true ∧ State.reset.halted = none ∧ State.reset.micro.cycleIndex = 0 := by
  decide +kernel

theorem witness_midway_latches :
    (∀ a, midway.noHandler a) ∧ ({ midway.lines with irqLevel := true } : Latches).nmiPending = midway.lines.nmiPending :=
  ⟨ram_noHandler _ rfl, rfl⟩

/-- `TickCountsOneCycle`, `StepKeepsMemoryForm`, `StepsNeverWriteRom`, `OnlyTheListedInstructionsWrite`: a tick, a step and an
instruction that answer, over canonical memory with ROM in it. -/
theorem witness_answers :
    let s := { start 0x0400 [] with mem := setupM }
    s.mem.wf = true ∧ s.halted = none ∧ after (tick s) (fun _ => true) = true ∧ after (step s) (fun _ => true) = true ∧
      after (exec .inx s) (fun t => t.x == 1) = true := by
  decide +kernel

/-- `RegistersCommitOnTheLastCycle`: a tick that is not the last; in a reset, D falls before the last cycle. -/
theorem witness_commit :
    after (ticks 2 (start 0x0400 [(0x400, 0xAD)])) (fun t => t.micro.cycleIndex == 2) = true ∧
      after (ticks 6 (resetCall { start 0x0400 [] with p := { State.reset.p with d := true } }))
        (fun t => t.micro.cycleIndex == 6 && !t.p.d) = true := by
  decide +kernel

/-- `EventsKeepTheStateWellFormed`: a well-formed state and events that answer. -/
theorem witness_events :
    (wired []).wf = true ∧ after (happen .computerStep (wired [])) (fun _ => true) = true ∧
      after (happen (.createWire 7 true) (wired [])) (fun _ => true) = true ∧
      after (happen (.connect clockEndpoint { endpoint := 30, action := .cpu .clock }) (wired [])) (fun _ => true)
        = true := by
  decide +kernel

/-- `LoadsComplete`, `LogicCompletes`, `AddSubtractComplete`, `ComparesComplete`: a mode of every shape, all of whose reads are at storage,
page crossing and page-zero wrap included; and next to a handler bank. -/
theorem witness_reads (m : ReadMode) : ∀ a ∈ readAccesses m (start 0x0402 [(0x10, 0xF0), (0x11, 0x12)]),
    (start 0x0402 [(0x10, 0xF0), (0x11, 0x12)]).noHandler a :=
  fun a _ => ram_noHandler _ rfl a

theorem witness_reads_beside_handler :
    let s := { start 0x0402 [] with mem := setupM, x := 0xFF }
    ∀ a ∈ readAccesses (.abx 0xCF00) s, s.noHandler a :=
  List.all_eq_true.1 (by decide +kernel)

/-- `StoresComplete`, `ReadModifyWriteCompletes`: RAM, ROM and the last address. -/
theorem witness_stores :
    let s := { start 0x0402 [] with mem := setupM, x := 0xFF }
    s.mem.wf = true ∧ (∀ a ∈ storeAccesses (.abx 0xDF01) s, s.noHandler a) ∧ storeEa (.abx 0xDF01) s = 0xE000 ∧
      (∀ a ∈ rmwAccesses (.abs 0xFFFF) s, s.noHandler a) ∧ rmwEa (.abs 0xFFFF) s = 0xFFFF ∧
      (s.mem.bankAt 0xFFFF).map Bank.kind = some .rom ∧ (s.mem.bankAt 0xCFFF).map Bank.kind = some .ram :=
  ⟨by decide +kernel, List.all_eq_true.1 (by decide +kernel), by decide +kernel, List.all_eq_true.1 (by decide +kernel),
    by decide +kernel, by decide +kernel, by decide +kernel⟩

/-- `AccumulatorShiftsComplete`, `TwoCycleRows`, `JumpsComplete`, `RtsCompletes`, `BranchesComplete`, `PullsComplete`: no callback anywhere. -/
theorem witness_storage : ∀ a, (start 0x0400 [(0x400, 0xEA)]).noHandler a := ram_noHandler _ rfl

theorem witness_two_cycles :
    (start 0x0400 [(0x400, 0xAA)]).fetches ∧ (start 0x0400 [(0x400, 0xAA)]).mem.peek 0x0400 = some 0xAA := by
  refine ⟨by simp [State.fetches, start, State.reset], by decide +kernel⟩

/-- `IllegalOpcodesComplete`, the strict policy. -/
theorem witness_strict :
    let s := { start 0x0400 [(0x400, 0xFF)] with platform := { illegalPolicy := .strict, periods := [] } }
    isIllegal 0xFF = true ∧ s.platform.illegalPolicy = .strict ∧ s.fetches ∧ s.mem.peek s.pc = some 0xFF := by
  refine ⟨by decide, rfl, by simp [State.fetches, start, State.reset], by decide +kernel⟩

/-- `DecimalAddIsTheSpecsAdder`, `DecimalSubtractIsTheSpecsAdder`: the largest valid digits, and a byte that is none. -/
theorem witness_bcd : ValidBcd 0x99 ∧ ValidBcd 0x00 ∧ ¬ValidBcd 0x9A := by simp [ValidBcd]

/-- The stack statements and `BrkTakesTheException`, `RtiCompletes`, `JsrCompletes` and the three returns: RAM everywhere, the stack
pointer where it wraps. -/
theorem witness_stack :
    let s := { start 0x0400 [] with sp := 0x00 }
    s.mem.wf = true ∧ (∀ a, s.noHandler a) ∧ s.mem.isRam (stackAddr s.sp) ∧ s.mem.isRam (stackAddr (s.sp - 1)) ∧
      s.mem.isRam (stackAddr (s.sp - 2)) ∧ stackAddr s.sp = 0x0100 ∧ stackAddr (s.sp - 1) = 0x01FF :=
  ⟨by decide +kernel, ram_noHandler _ rfl, ram_isRam _ _, ram_isRam _ _, ram_isRam _ _, by decide, by decide⟩

/-- `PushesComplete`, `StoresComplete`, the clause of a stack or store outside RAM. -/
theorem witness_stack_in_rom :
    let m : Memory :=
      { banks := [{ id := 1, kind := .rom, lo := 0x0000, hi := 0x01FF, length := 512, cells := [] }],
        active := [{ lo := 0, hi := 0x01FF, id := 1 }] }
    m.wf = true ∧ (m.peek 0x01FD).isSome = true ∧ (m.bankAt 0x01FD).map Bank.kind ≠ some .ram := by
  decide +kernel

/-- `JsrCompletes`, its last clause: the third byte is not on the stack. -/
theorem witness_jsr :
    let s := start 0x0402 [(0x402, 0x12)]
    s.pc ≠ stackAddr s.sp ∧ s.pc ≠ stackAddr (s.sp - 1) ∧ s.mem.peek s.pc = some (hi 0x1234) := by
  decide +kernel

/-- `InterruptEntryCompletes`, `BrkTakesTheException`: an NMI, an IRQ with I = 0, and both. -/
theorem witness_interrupt :
    let s := nmiLine true (start 0x0400 [])
    let t := irqLine true { start 0x0400 [] with p := { State.reset.p with i := false } }
    s.mem.wf = true ∧ s.halted = none ∧ s.micro.cycleIndex = 0 ∧ s.lines.resetPending = false ∧ s.lines.nmiPending = true ∧
      (∀ a, s.noHandler a) ∧ t.lines.irqLevel = true ∧ t.p.i = false ∧ t.lines.nmiPending = false ∧
      (nmiLine true t).lines.nmiPending = true :=
  ⟨by decide +kernel, rfl, rfl, rfl, rfl, ram_noHandler _ rfl, rfl, rfl, rfl, rfl⟩

/-- `ResetSequenceCompletes`. -/
theorem witness_reset :
    let s := resetCall power
    s.halted = none ∧ s.micro.cycleIndex = 0 ∧ s.lines.resetPending = true ∧
      (∀ a ∈ [s.pc, 0x0100#16, 0x01FF#16, 0x01FE#16, 0xFFFC#16, 0xFFFD#16], s.noHandler a) :=
  ⟨rfl, rfl, rfl, List.all_eq_true.1 (by decide +kernel)⟩

/-- `BusReadDispatches`, `BusWriteDispatches`: an address with no bank, one of RAM, one of ROM, one of a handler. -/
theorem witness_banks :
    State.reset.mem.bankAt 0x0000 = none ∧ (setupM.bankAt 0xCFFF).map Bank.kind = some .ram ∧
      (setupM.bankAt 0xE000).map Bank.kind = some .rom ∧ (setupM.bankAt 0xD000).map Bank.kind = some .handler ∧
      (setupM.bankAt 0xD0FF).map Bank.kind = some .handler ∧ (setupM.bankAt 0xD100).map Bank.kind = some .ram := by
  decide +kernel

/-- `AccessesTouchNoRegister`, `ReadAfterWrite`: a read and a write that answer. -/
theorem witness_accesses :
    let s := start 0x0400 [(0x10, 0x5A)]
    (match busRead 0x0010 s with | .next (v, _) => v == 0x5A | _ => false) = true ∧ after (busWrite 0x0010 0x11 s) (fun _ => true) = true ∧
      s.mem.wf = true := by
  decide +kernel

/-- `InstallBankActivatesItsRange`: a bank at the top of the space, and the ways out of its preconditions. -/
theorem witness_install :
    setupM.wf = true ∧ (Bank.ofBytes 9 .ram 0xFFFF 0xFFFF [0x01]).wf = true ∧ (∀ c ∈ setupM.banks, c.id ≠ 9) ∧
      (Bank.ofBytes 9 .ram 0x0002 0x0001 []).wf = false ∧ (Bank.ofBytes 9 .ram 0x0000 0x0000 [0x01, 0x02]).wf = false ∧
      (Bank.ofBytes 9 .ram 0x0000 0x0001 [0x01]).wf = false ∧
      (∃ c ∈ setupM.banks, c.id = 2) := by
  decide +kernel

/-- `SwitchActivatesTheRange`, and a callback's `switch` in `BusWriteDispatches`: the whole of a bank, one address more, an empty range, no bank. -/
theorem witness_switch :
    ((setupM.bank 2).map fun b => (b.lo, b.hi)) = some (0xE000, 0xFFFF) ∧ setupM.bank 9 = none ∧ ¬(0xE000#16).toNat ≤ (0xDFFF#16).toNat ∧
      (setupM.switch 0xE000 0xFFFF 2).isSome = true ∧ (setupM.switch 0xDFFF 0xFFFF 2).isSome = false := by
  decide +kernel

/-- `ImageLoadSetsItsBytes`: two bytes that end at 0xFFFF, in ROM, and three that do not fit. -/
theorem witness_image :
    setupM.wf = true ∧ (0xFFFE#16).toNat + 2 ≤ 65536 ∧ 65536 < (0xFFFE#16).toNat + 3 ∧
      (∀ i < 2, (setupM.bankAt (0xFFFE#16 + BitVec.ofNat 16 i)).map Bank.kind = some .rom) := by
  decide +kernel

/-- `WireWriteReachesEverySink`: a wire with the three kinds of sink, a value of each width, a sink that connects and sees the
value; and the wire while it is being delivered. -/
theorem witness_wire :
    let s := wired [{ endpoint := 21, action := .cpu .irq }, { endpoint := 22, action := .cpu .nmi },
      { endpoint := 23, action := .cpu .reset }]
    s.fabric.delivering = [] ∧ (s.fabric.wireOfSource 11).map (fun w => (w.id, isWide w.value)) = some (1, false) ∧
      isWide (.byte 0x00) ≠ false ∧ ({ endpoint := 24, action := .cpu .irq } : Sink).wide = false ∧
      after (hostWrite 11 (.bit true) s) (fun t => t.lines.irqLevel && t.lines.nmiPending && t.lines.resetPending) = true ∧
      after (andThen (hostWrite 11 (.bit true) (wired [])) (connect 11 { endpoint := 24, action := .cpu .irq }))
        (fun t => t.lines.irqLevel) = true ∧
      ((({ s with fabric := { s.fabric with delivering := [1] } } : State).fabric.wireOfSource 11).map fun w => w.id) = some 1 := by
  decide +kernel

/-- `BusWriteDispatches`, the calls of a callback: a switch that is in force afterwards and one that changes nothing, a wire
written with its sink, a clock edge refused, a wire of no source. -/
theorem witness_calls :
    let s := (wired [{ endpoint := 21, action := .cpu .irq }]).setMem setupM
    s.mem.wf = true ∧ after (handlerCall (.switch 0xE000 0xE000 2) s) (fun t => (t.mem.resolve 0xE000) == some 2) = true ∧
      after (handlerCall (.switch 0xDFFF 0xE000 2) s) (fun t => decide (t = s)) = true ∧ (s.fabric.wireOfSource 11).map (fun w => w.id) = some 1 ∧
      after (handlerCall (.fabric (.writeWire 11 (.bit true))) s) (fun t => t.lines.irqLevel) = true ∧
      (match handlerCall (.fabric (.writeWire clockEndpoint (.bit true))) s with
        | .refused e => e == .handlerReentry
        | _ => false) = true ∧
      s.fabric.wireOfSource 99 = none := by
  decide +kernel

/-- `ClockStepTogglesAtThePeriod`: below the period, and at it. -/
theorem witness_clock_step :
    let s := { wired [] with platform := { illegalPolicy := .nop2, periods := [(1, 2)] } }
    let p := s.platform.periodSteps s.fabric.clock.frequency
    p = 2 ∧ s.fabric.clock.phase + 1 < p ∧ State.reset.platform.periodSteps 1 = 1 ∧ State.reset.platform.periodSteps 1 ≤ State.reset.fabric.clock.phase + 1 := by
  decide +kernel

/-- `OneClockPeriodIsOneCycle`. -/
theorem witness_clock_period :
    let s := wired []
    (∀ a, s.noHandler a) ∧ s.microWf = true ∧ s.fabric.wf = true ∧ s.fabric.delivering = [] ∧ s.fabric.clock.out = false ∧
      s.fabric.clock.phase = 0 ∧ s.lines.clkPrev = false ∧ 0 < s.platform.periodSteps s.fabric.clock.frequency ∧
      s.fabric.wireOfSource clockEndpoint =
        some
          { id := 0
            value := .bit false
            source := some clockEndpoint
            sinks := [{ endpoint := 20, action := .cpu .clock }] } :=
  ⟨ram_noHandler _ rfl, by decide +kernel, by decide +kernel, rfl, rfl, rfl, rfl, by decide +kernel, by decide +kernel⟩

/-- `RejectedWireCalls`: a wire that has a source, a wide sink, an endpoint that is no source. -/
theorem witness_rejected :
    (((wired []).fabric.wire 1).bind Wire.source).isSome = true ∧ (wired []).fabric.wireOfSource 99 = none ∧
      (((wired []).fabric.wireOfSource 11).map fun w => isWide w.value) = some false := by
  decide +kernel

end Sys2Proof.Tests
end

section
/-! SUPPORT. The cycle level against the instruction level (R7, R190, R225), first half: the ticks of a sequence are its lines.
`runLines` does the lines of a sequence one after the other with no `cycle_index`; that this is what the ticks do needs of each
line that it does not look at the place in the sequence and does not halt (`Line.Steady`). -/

namespace Sys2Proof.Machine

/-! ## Updates of the CPU and a bus access -/

/-- The update looks at and changes registers, flags and the latches of the sequence alone. -/
def CpuOnly (f : State → State) : Prop := ∀ c u : State, f (State.putCpu c u) = State.putCpu (f c) u

/-- Such an update may be made before a read or after it (R46, R52). -/
theorem CpuOnly.busRead {f : State → State} (hf : CpuOnly f) (a : Addr) (s : State) :
    busRead a (f s) = andThen (busRead a s) fun r => .next (r.1, f r.2) := by
  have hs : f s = State.putCpu (f s) s := hf s s
  rw [hs, busRead_putCpu]
  exact andThen_congr fun r hr => by rw [← hf, busRead_keeps hr]

/-- Such an update may be made before a write or after it (R47, R52). -/
theorem CpuOnly.busWrite {f : State → State} (hf : CpuOnly f) (a : Addr) (v : Byte) (s : State) :
    busWrite a v (f s) = andThen (busWrite a v s) fun t => .next (f t) := by
  have hs : f s = State.putCpu (f s) s := hf s s
  rw [hs, busWrite_putCpu]
  exact andThen_congr fun t ht => by rw [← hf, busWrite_keeps ht]

theorem CpuOnly.perform {f : State → State} (hf : CpuOnly f) (acc : Access) (s : State) :
    acc.perform (f s) = andThen (acc.perform s) fun r => .next (r.1, f r.2) := by
  cases acc with
  | read a => exact hf.busRead a s
  | write a v => simp only [Access.perform, hf.busWrite, andThen_assoc, andThen_next]

theorem cpuOnly_setAdl (v : Byte) : CpuOnly fun s => s.setAdl v := fun _ _ => rfl

theorem cpuOnly_setPtr (v : Addr) : CpuOnly fun s => s.setPtr v := fun _ _ => rfl

theorem busRead_micro {a : Addr} {s : State} {r : Byte × State} (h : busRead a s = .next r) : r.2.micro = s.micro :=
  (busRead_bystander h).micro

theorem busWrite_micro {a : Addr} {v : Byte} {s t : State} (h : busWrite a v s = .next t) : t.micro = s.micro :=
  (congrArg State.micro (busWrite_keeps h)).symm

theorem busWrite_halted {a : Addr} {v : Byte} {s t : State} (h : busWrite a v s = .next t) : t.halted = s.halted := by
  obtain rfl | h := busWrite_bystander h
  · rfl
  · exact h.halted

theorem perform_halted {acc : Access} {s : State} {r : Byte × State} (h : acc.perform s = .next r) :
    r.2.halted = s.halted := by
  cases acc with
  | read a => exact (busRead_bystander h).halted
  | write a v =>
    obtain ⟨t, ht, hr⟩ := andThen_eq_next.1 h
    cases hr
    exact busWrite_halted ht

/-! ## The place in the sequence -/

/-- The state at another place of another sequence: `seq`, `cycle_index` and `opcode` as `m` has them. -/
def State.atCycle (m : Micro) (s : State) : State :=
  s.setMicro { s.micro with seq := m.seq, cycleIndex := m.cycleIndex, opcode := m.opcode }

theorem cpuOnly_atCycle (m : Micro) : CpuOnly (State.atCycle m) := fun _ _ => rfl

theorem State.atCycle_zero {s : State} (h : s.micro.cycleIndex = 0) :
    s.atCycle { s.micro with cycleIndex := 0 } = s := by
  rw [← h]
  rfl

/-- What a line does, and whether it is the last, with no regard to `cycle_index`. -/
def Line.run (l : Line) (s : State) : Res (State × Bool) :=
  andThen ((l.access (l.before s)).perform (l.before s)) fun r => .next (l.after r.1 r.2)

/-- The lines one after the other, up to the one that says it is the last. -/
def runLines : List Line → State → Res State
  | [], _ => .refused .noSuchCycle
  | l :: ls, s => andThen (l.run s) fun r => if r.2 then .next r.1 else runLines ls r.1

theorem doLine_eq (l : Line) (s : State) :
    doLine l s = andThen (l.run s) fun r =>
      if r.1.halted.isSome then .next r.1
      else .next (r.1.setCycleIndex (if r.2 then 0 else r.1.micro.cycleIndex + 1)) := by
  simp only [doLine, Line.run, andThen_assoc, andThen_next]

/-- The line neither looks at nor changes the place in the sequence, and it does not halt: every line but the fetch. What
holds of a line by definition need not be given. -/
structure Line.Steady (l : Line) : Prop where
  before : ∀ m s, l.before (s.atCycle m) = (l.before s).atCycle m := by intros; rfl
  access : ∀ m s, l.access (s.atCycle m) = l.access s := by intros; rfl
  after : ∀ m v s, l.after v (s.atCycle m) = ((l.after v s).1.atCycle m, (l.after v s).2) := by intros; rfl
  before_halted : ∀ s, (l.before s).halted = s.halted := by intros; rfl
  after_halted : ∀ v s, (l.after v s).1.halted = s.halted := by intros; rfl

theorem Line.Steady.run_atCycle {l : Line} (h : l.Steady) (m : Micro) (s : State) :
    l.run (s.atCycle m) = andThen (l.run s) fun r => .next (r.1.atCycle m, r.2) := by
  simp only [Line.run, h.before, h.access, (cpuOnly_atCycle m).perform, h.after, andThen_assoc, andThen_next]

theorem Line.Steady.run_halted {l : Line} (h : l.Steady) {s : State} {r : State × Bool} (hr : l.run s = .next r) :
    r.1.halted = s.halted := by
  obtain ⟨x, hx, he⟩ := andThen_eq_next.1 hr
  cases he
  rw [h.after_halted, perform_halted hx, h.before_halted]

/-- A steady line of a machine that runs moves `cycle_index` on, or back to 0 where it is the last (R190). -/
theorem Line.Steady.doLine_atCycle {l : Line} (h : l.Steady) (m : Micro) {s : State} (hs : s.halted = none) :
    doLine l (s.atCycle m) = andThen (l.run s) fun r =>
      .next (r.1.atCycle { m with cycleIndex := if r.2 then 0 else m.cycleIndex + 1 }) := by
  rw [doLine_eq, h.run_atCycle, andThen_assoc]
  refine andThen_congr fun r hr => ?_
  have hn : (r.1.atCycle m).halted.isSome = false := by
    change r.1.halted.isSome = false
    rw [h.run_halted hr, hs]
    rfl
  rw [andThen_next, hn]
  rfl

theorem runLines_atCycle {ls : List Line} (hl : ls.Forall Line.Steady) (m : Micro) (s : State) :
    runLines ls (s.atCycle m) = andThen (runLines ls s) fun t => .next (t.atCycle m) := by
  induction ls generalizing s with
  | nil => rfl
  | cons l ls ih =>
    obtain ⟨h, hls⟩ := (List.forall_cons _ _ _).1 hl
    simp only [runLines, h.run_atCycle, andThen_assoc, andThen_next]
    refine andThen_congr fun r _ => ?_
    cases r.2 with
    | true => rfl
    | false => exact ih hls r.1

/-! ## The ticks of a sequence are its lines -/

/-- One line by a tick and the rest by whatever agrees with the lines: together the lines. -/
theorem doLine_then {l : Line} {ls : List Line} (hl : (l :: ls).Forall Line.Steady) {m : Micro} {s : State}
    (hs : s.halted = none) {k : State → Res State}
    (hk : ∀ t : State, t.halted = none →
      k (t.atCycle { m with cycleIndex := m.cycleIndex + 1 }) = runLines ls (t.atCycle { m with cycleIndex := 0 })) :
    (andThen (doLine l (s.atCycle m)) fun t => if t.micro.cycleIndex = 0 then .next t else k t) =
      runLines (l :: ls) (s.atCycle { m with cycleIndex := 0 }) := by
  obtain ⟨h, hls⟩ := (List.forall_cons _ _ _).1 hl
  rw [h.doLine_atCycle m hs, runLines, h.run_atCycle, andThen_assoc, andThen_assoc]
  refine andThen_congr fun r hr => ?_
  simp only [andThen_next]
  cases r.2 with
  | true => rfl
  | false => exact (if_neg (Nat.succ_ne_zero _)).trans (hk r.1 ((h.run_halted hr).trans hs))

/-- In the middle of a sequence a tick does the first of the lines that are left (R190). -/
theorem tick_inside {m : Micro} (hm : m.cycleIndex ≠ 0) {s : State} (hs : s.halted = none) :
    tick (s.atCycle m) =
      match ((s.atCycle m).sequenceLines.drop m.cycleIndex).head? with
      | some l => doLine l (s.atCycle m)
      | none => .refused .noSuchCycle := by
  rw [List.head?_drop]
  have hh : ¬(s.atCycle m).halted.isSome = true := by
    rw [show (s.atCycle m).halted = none from hs]
    exact Bool.false_ne_true
  have hi : (s.atCycle m).micro.cycleIndex ≠ 0 := hm
  unfold tick
  rw [if_neg hh, if_neg hi]
  rfl

/-- From the middle of a sequence the ticks do its lines that are left. -/
theorem finishSequence_atCycle {ls : List Line} (hl : ls.Forall Line.Steady) {fuel : Nat} (hf : ls.length ≤ fuel) {m : Micro}
    (hm : m.cycleIndex ≠ 0) {s : State} (hs : s.halted = none)
    (hd : (s.atCycle m).sequenceLines.drop m.cycleIndex = ls) :
    finishSequence fuel (s.atCycle m) = runLines ls (s.atCycle { m with cycleIndex := 0 }) := by
  induction ls generalizing fuel m s with
  | nil =>
    cases fuel with
    | zero => rfl
    | succ fuel =>
      rw [finishSequence, tick_inside hm hs, hd]
      rfl
  | cons l ls ih =>
    cases fuel with
    | zero => exact absurd hf (Nat.not_succ_le_zero _)
    | succ fuel =>
      rw [finishSequence, tick_inside hm hs, hd]
      refine doLine_then hl hs fun t ht => ih ((List.forall_cons _ _ _).1 hl).2 (Nat.le_of_succ_le_succ hf)
        (Nat.succ_ne_zero _) ht ?_
      change (s.atCycle m).sequenceLines.drop (m.cycleIndex + 1) = ls
      rw [← List.tail_drop, hd]
      rfl

/-- From its first cycle, the ticks of a reset sequence or an interrupt entry do its lines. -/
theorem finishSequence_begin {s : State} (hs : s.halted = none) (hc : s.micro.cycleIndex = 0) {l : Line} {ls : List Line}
    (hl : (l :: ls).Forall Line.Steady) {fuel : Nat} (hf : ls.length ≤ fuel) (hb : s.beginSequence.sequenceLines = l :: ls) :
    finishSequence (fuel + 1) s = runLines (l :: ls) s.beginSequence := by
  have hh : s.beginSequence.halted = none := by
    rw [← hs, State.beginSequence]
    split <;> rfl
  have hi : s.beginSequence.micro.cycleIndex = 0 := by
    rw [← hc, State.beginSequence]
    split <;> rfl
  have ht : tick s = doLine l (s.beginSequence.atCycle s.beginSequence.micro) := by
    unfold tick
    rw [if_neg (by simp [hs]), if_pos hc]
    simp only [hi, hb]
    rfl
  generalize s.beginSequence = b at *
  rw [finishSequence, ht, doLine_then hl hh (fun t ht => ?_), State.atCycle_zero hi]
  refine finishSequence_atCycle ((List.forall_cons _ _ _).1 hl).2 hf (Nat.succ_ne_zero _) ht ?_
  change b.sequenceLines.drop (b.micro.cycleIndex + 1) = ls
  rw [hb, hi]
  rfl

end Sys2Proof.Machine
end

section
/-! SUPPORT. Every line but the fetch is steady, and no sequence has more than 7 lines after its first. -/

namespace Sys2Proof.Machine

theorem readEffect_atCycle (o : ReadOp) (m : Micro) (v : Byte) (s : State) :
    readEffect o v (s.atCycle m) = (readEffect o v s).atCycle m := by
  cases o <;> rfl

theorem readEffect_halted (o : ReadOp) (v : Byte) (s : State) : (readEffect o v s).halted = s.halted := by
  cases o <;> rfl

theorem writeValue_atCycle (o : WriteOp) (m : Micro) (s : State) : writeValue o (s.atCycle m) = writeValue o s := by
  cases o <;> rfl

theorem impliedEffect_atCycle (o : ImpliedOp) (m : Micro) (s : State) :
    impliedEffect o (s.atCycle m) = (impliedEffect o s).atCycle m := by
  cases o <;> rfl

theorem impliedEffect_halted (o : ImpliedOp) (s : State) : (impliedEffect o s).halted = s.halted := by
  cases o <;> rfl

theorem selectVector_atCycle (m : Micro) (s : State) : selectVector (s.atCycle m) = (selectVector s).atCycle m := by
  simp only [selectVector, apply_ite (State.atCycle m)]
  rfl

theorem selectVector_halted (s : State) : (selectVector s).halted = s.halted := by
  simp only [selectVector]
  split <;> rfl

/-! ### Lines that several sequences share -/

@[simp] theorem lowLine_steady : lowLine.Steady := {}

@[simp] theorem highLine_steady : highLine.Steady := {}

@[simp] theorem highIndexedLine_steady (i : Index) : (highIndexedLine i).Steady := by
  cases i <;> exact {}

@[simp] theorem zeroPageIndexLine_steady (i : Index) : (zeroPageIndexLine i).Steady := by
  cases i <;> exact {}

@[simp] theorem izxLines_steady : izxLines.Forall Line.Steady := ⟨{}, {}, {}, {}⟩

@[simp] theorem izyLines_steady : izyLines.Forall Line.Steady := ⟨{}, {}, {}⟩

@[simp] theorem fixPageLine_steady : fixPageLine.Steady where
  after m v s := by
    simp only [fixPageLine, goOn, discarded, apply_ite (State.atCycle m)]
    rfl
  after_halted v s := by
    simp only [fixPageLine, goOn, discarded]
    split <;> rfl

@[simp] theorem indexedDataLine_steady (o : ReadOp) : (indexedDataLine o).Steady where
  after m v s := by
    have hm : ((s.atCycle m).setOperand v).micro.pageCross = (s.setOperand v).micro.pageCross := rfl
    simp only [indexedDataLine, hm]
    split
    · rfl
    · exact congrArg (·, true) (readEffect_atCycle o m v (s.setOperand v))
  after_halted v s := by
    simp only [indexedDataLine]
    split
    · rfl
    · exact readEffect_halted o v (s.setOperand v)

/-- The lines that use an effective address: its formula must not look at the place in the sequence. -/
theorem dataLine_steady {ea : State → Addr} (he : ∀ m s, ea (s.atCycle m) = ea s) (o : ReadOp) : (dataLine ea o).Steady where
  access m s := congrArg Access.read (he m s)
  after m v s := congrArg (·, true) (readEffect_atCycle o m v (s.setOperand v))
  after_halted v s := readEffect_halted o v (s.setOperand v)

theorem storeLine_steady {ea : State → Addr} (he : ∀ m s, ea (s.atCycle m) = ea s) (o : WriteOp) :
    (storeLine ea o).Steady where
  access m s := congrArg₂ Access.write (he m s) (writeValue_atCycle o m s)

theorem modifyLines_steady {ea : State → Addr} (he : ∀ m s, ea (s.atCycle m) = ea s) (o : RmwOp) :
    (modifyLines ea o).Forall Line.Steady :=
  ⟨{ access := fun m s => congrArg Access.read (he m s) },
   { access := fun m s => congrArg (Access.write · s.micro.operand) (he m s) },
   { access := fun m s => congrArg (Access.write · s.micro.operand) (he m s) }⟩

/-! ### The sequences -/

theorem readLines_steady (o : ReadOp) (k : ReadKind) : (readLines o k).Forall Line.Steady := by
  have hz := dataLine_steady (ea := State.zeroPageEa) (fun _ _ => rfl) o
  have hl := dataLine_steady (ea := State.latchedAddr) (fun _ _ => rfl) o
  cases k with
  | imm =>
    exact
      { after := fun m v s => congrArg (·, true) (readEffect_atCycle o m v (s.incPc.setOperand v))
        after_halted := fun v s => readEffect_halted o v (s.incPc.setOperand v) }
  | _ => simp [readLines, hz, hl]

theorem writeLines_steady (o : WriteOp) (k : WriteKind) : (writeLines o k).Forall Line.Steady := by
  have hz := storeLine_steady (ea := State.zeroPageEa) (fun _ _ => rfl) o
  have hl := storeLine_steady (ea := State.latchedAddr) (fun _ _ => rfl) o
  cases k <;> simp [writeLines, hz, hl]

theorem rmwLines_steady (o : RmwOp) (k : RmwKind) : (rmwLines o k).Forall Line.Steady := by
  have hz := modifyLines_steady (ea := State.zeroPageEa) (fun _ _ => rfl) o
  have hl := modifyLines_steady (ea := State.latchedAddr) (fun _ _ => rfl) o
  cases k <;> simp [rmwLines, hz, hl]

theorem impliedLines_steady {f : State → State} (hf : ∀ m s, f (s.atCycle m) = (f s).atCycle m)
    (hh : ∀ s, (f s).halted = s.halted) : (impliedLines f).Forall Line.Steady :=
  { after := fun m _ s => congrArg (·, true) (hf m s), after_halted := fun _ s => hh s : Line.Steady _ }

theorem pushLines_steady (o : PushOp) : (pushLines o).Forall Line.Steady := by
  cases o <;> exact ⟨{}, {}⟩

theorem pullLines_steady (o : PullOp) : (pullLines o).Forall Line.Steady := by
  cases o <;> exact ⟨{}, {}, {}⟩

theorem exceptionLines_steady (brk : Bool) : (exceptionLines brk).Forall Line.Steady :=
  ⟨{}, {}, {}, { before := selectVector_atCycle, before_halted := selectVector_halted }, {}⟩

theorem intLines_steady : intLines.Forall Line.Steady := ⟨{}, {}, exceptionLines_steady false⟩

theorem resetLines_steady : resetLines.Forall Line.Steady := ⟨{}, {}, {}, {}, {}, {}, {}⟩

theorem opLines_steady (op : Op) : (opLines op).Forall Line.Steady := by
  cases op with
  | read o k => exact readLines_steady o k
  | write o k => exact writeLines_steady o k
  | rmw o k => exact rmwLines_steady o k
  | acc o => exact impliedLines_steady (fun _ _ => rfl) fun _ => rfl
  | implied o => exact impliedLines_steady (impliedEffect_atCycle o) (impliedEffect_halted o)
  | branch o => exact ⟨{}, {}, {}⟩
  | push o => exact pushLines_steady o
  | pull o => exact pullLines_steady o
  | jmpAbs => exact ⟨{}, {}⟩
  | jmpInd => exact ⟨{}, {}, {}, {}⟩
  | jsr => exact ⟨{}, {}, {}, {}, {}⟩
  | rts => exact ⟨{}, {}, {}, {}, {}⟩
  | rti => exact ⟨{}, {}, {}, {}, {}⟩
  | brk => exact ⟨{}, exceptionLines_steady true⟩

theorem opcodeLines_steady (b : Byte) : (opcodeLines b).Forall Line.Steady := by
  unfold opcodeLines
  split
  · exact opLines_steady _
  · exact impliedLines_steady (fun _ _ => rfl) fun _ => rfl

/-! ### Their lengths (R300) -/

theorem opLines_length (op : Op) : (opLines op).length ≤ 6 := by
  cases op with
  | read o k => cases k <;> exact Nat.le_of_ble_eq_true rfl
  | write o k => cases k <;> exact Nat.le_of_ble_eq_true rfl
  | rmw o k => cases k <;> exact Nat.le_of_ble_eq_true rfl
  | _ => exact Nat.le_of_ble_eq_true rfl

theorem opcodeLines_length (b : Byte) : (opcodeLines b).length ≤ 7 := by
  unfold opcodeLines
  split
  · exact Nat.le_succ_of_le (opLines_length _)
  · exact Nat.le_of_ble_eq_true rfl

end Sys2Proof.Machine
end

section
/-! SUPPORT. The cycle level against the instruction level, second half: the lines of a sequence, in a row, are the operations
of the meanings, class by class of R223. Where a table latches a byte before an access and the meaning after it, the update is
moved over the access (`CpuOnly.busRead`). -/

namespace Sys2Proof.Machine

/-! ## Lines in a row are the operations of the meanings -/

theorem runLines_goOn (access : State → Access) (f : Byte → State → State) (ls : List Line) (s : State) :
    runLines (goOn access f :: ls) s = andThen ((access s).perform s) fun r => runLines ls (f r.1 r.2) := by
  simp only [runLines, Line.run, goOn, andThen_assoc, andThen_next]
  rfl

theorem runLines_finish (access : State → Access) (f : Byte → State → State) (ls : List Line) (s : State) :
    runLines (finish access f :: ls) s = andThen ((access s).perform s) fun r => .next (f r.1 r.2) := by
  simp only [runLines, Line.run, finish, andThen_assoc, andThen_next]
  rfl

theorem readAtPc_eq (s : State) : readAtPc s = andThen (busRead s.pc s) fun r => .next (r.1, r.2.incPc) := rfl

theorem runLines_low (ls : List Line) (s : State) :
    runLines (lowLine :: ls) s = andThen (readAtPc s) fun l => runLines ls (l.2.setAdl l.1) := by
  simp only [lowLine, runLines_goOn, readAtPc_eq, andThen_assoc, andThen_next]
  rfl

/-- The low operand byte is latched before the high one is read, which makes no difference to that read (R202, R205). -/
theorem runLines_low_pc (f : Byte → State → State) (ls : List Line) (s : State) :
    runLines (lowLine :: goOn pcRead f :: ls) s =
      andThen (readAtPc s) fun l => andThen (busRead l.2.pc l.2) fun h => runLines ls (f h.1 (h.2.setAdl l.1)) := by
  rw [runLines_low]
  refine andThen_congr fun l _ => ?_
  rw [runLines_goOn]
  change andThen (busRead l.2.pc (l.2.setAdl l.1)) _ = _
  rw [(cpuOnly_setAdl l.1).busRead, andThen_assoc]
  rfl

theorem State.setAddress_cat (s : State) (h l : Byte) : s.setAddress (cat h l) = (s.setAdl l).setAdh h := by
  rw [State.setAddress, lo_cat, hi_cat]

theorem State.setAddress_latchedAddr (s : State) (a : Addr) : (s.setAddress a).latchedAddr = a := cat_hi_lo a

theorem runLines_absolute (ls : List Line) (s : State) :
    runLines (lowLine :: highLine :: ls) s =
      andThen (readAtPc s) fun l => andThen (readAtPc l.2) fun h => runLines ls (h.2.setAddress (cat h.1 l.1)) := by
  simp only [highLine, runLines_low_pc, readAtPc_eq, andThen_assoc, andThen_next, State.setAddress_cat]
  rfl

theorem runLines_indexed (i : Index) (ls : List Line) (s : State) :
    runLines (lowLine :: highIndexedLine i :: ls) s =
      andThen (readAtPc s) fun l => andThen (readAtPc l.2) fun h =>
        runLines ls ((h.2.setAddress (cat h.1 l.1)).indexLow i) := by
  simp only [highIndexedLine, runLines_low_pc, readAtPc_eq, andThen_assoc, andThen_next, State.setAddress_cat]
  rfl

theorem runLines_zeroPageIndex (i : Index) (ls : List Line) (s : State) :
    runLines (zeroPageIndexLine i :: ls) s = andThen (indexZeroPage i s) (runLines ls) := by
  simp only [zeroPageIndexLine, runLines_goOn, indexZeroPage, discardRead, andThen_assoc, andThen_next]
  rfl

theorem runLines_fixPage (ls : List Line) : runLines (fixPageLine :: ls) = fun s => andThen (fixPage s) (runLines ls) := by
  funext s
  simp only [fixPageLine, runLines_goOn, fixPage, discardRead, andThen_assoc, andThen_next]
  rfl

theorem runLines_izx (ls : List Line) (s : State) :
    runLines (izxLines ++ ls) s = andThen (readAtPc s) fun z => andThen (indexedIndirect z.1 z.2) (runLines ls) := by
  simp only [izxLines, pointerLine, pointerLowLine, List.cons_append, List.nil_append, runLines_goOn, readAtPc_eq,
    indexedIndirect, readPointer, discardRead, andThen_assoc, andThen_next]
  rfl

theorem runLines_izy (ls : List Line) (s : State) :
    runLines (izyLines ++ ls) s = andThen (readAtPc s) fun z => andThen (indirectIndexed z.1 z.2) (runLines ls) := by
  simp only [izyLines, pointerLine, pointerLowLine, List.cons_append, List.nil_append, runLines_goOn, readAtPc_eq,
    indirectIndexed, readPointer, andThen_assoc, andThen_next]
  rfl

theorem runLines_data (ea : State → Addr) (o : ReadOp) :
    runLines [dataLine ea o] = fun s => andThen (readData (ea s) s) fun r => .next (readEffect o r.1 r.2) := by
  funext s
  simp only [dataLine, runLines_finish, readData, andThen_assoc, andThen_next]
  rfl

theorem runLines_indexedData (o : ReadOp) :
    runLines [indexedDataLine o, dataLine State.latchedAddr o] =
      fun s => andThen (readIndexed s) fun r => .next (readEffect o r.1 r.2) := by
  funext s
  rw [runLines, Line.run, readIndexed, readData, andThen_assoc, andThen_assoc, andThen_assoc]
  refine andThen_congr fun r _ => ?_
  simp only [andThen_next, indexedDataLine]
  split
  · exact congrFun (runLines_data State.latchedAddr o) _
  · rfl

theorem runLines_store (ea : State → Addr) (o : WriteOp) :
    runLines [storeLine ea o] = fun s => busWrite (ea s) (writeValue o s) s := by
  funext s
  simp only [storeLine, runLines_finish, Access.perform, andThen_assoc, andThen_next, discarded, id]
  exact andThen_id _

/-- What a read-modify-write instruction does at its address: read, write back, write of the result (R43). -/
def rewriteAt (f : Byte → Flags → Byte × Flags) (a : Addr) (s : State) : Res State :=
  andThen (readData a s) fun r =>
  andThen (busWrite a r.1 r.2) fun t => busWrite a (f r.1 t.p).1 ((t.setOperand (f r.1 t.p).1).setP (f r.1 t.p).2)

theorem modifyMemory_eq (m : RmwMode) (f : Byte → Flags → Byte × Flags) (s : State) :
    modifyMemory m f s = andThen (rmwAddress m s) fun x => rewriteAt f x.1 x.2 := rfl

/-- The lines find the address anew in the latches each time, which no access changes. -/
theorem runLines_modify {ea : State → Addr}
    (he : ∀ s t : State, t.micro.adl = s.micro.adl → t.micro.adh = s.micro.adh → ea t = ea s) (o : RmwOp) :
    runLines (modifyLines ea o) = fun s => rewriteAt (rmwOperation o) (ea s) s := by
  funext s
  rw [rewriteAt]
  rw [modifyLines, runLines_goOn, readData, andThen_assoc]
  refine andThen_congr fun r hr => ?_
  have hm := busRead_micro hr
  have h1 : ea (r.2.setOperand r.1) = ea s := he _ _ (by rw [← hm]; rfl) (by rw [← hm]; rfl)
  rw [runLines_goOn, h1]
  simp only [Access.perform, andThen_assoc, andThen_next, discarded, id]
  refine andThen_congr fun t ht => ?_
  have hn := busWrite_micro ht
  have ho : t.micro.operand = r.1 := congrArg Micro.operand hn
  have h2 (v : Byte) (p : Flags) : ea ((t.setOperand v).setP p) = ea s :=
    (he (r.2.setOperand r.1) _ (by rw [← hn]; rfl) (by rw [← hn]; rfl)).trans h1
  simp only [runLines, Line.run, Access.perform, andThen_assoc, andThen_next, ho, h2]
  exact andThen_id _

/-! ## The step after its opcode -/

/-- What the step does after the fetch of the opcode: the operand bytes, then the instruction. -/
def runFetched (b : Byte) (s : State) : Res State :=
  andThen (fetchOperands (lookup b) s) fun x => andThen (decodeFetched (b :: x.1)) fun i => exec i x.2

section
variable {b : Byte} {op : Op} (h : lookup b = some op) (s : State)
include h

theorem runFetched_one (hl : op.length = 1) : runFetched b s = exec (op.instr 0 0) s := by
  have hd : decodeFetched [b] = .next (op.instr 0 0) := by
    simp only [decodeFetched, decode, h, hl]
  cases op with
  | jsr => cases hl
  | _ => simp only [runFetched, h, fetchOperands, hl, andThen_next, hd]

theorem decodeFetched_two (hl : op.length = 2) (l : Byte) : decodeFetched [b, l] = .next (op.instr l 0) := by
  simp only [decodeFetched, decode, h, hl]

theorem decodeFetched_three (hl : op.length = 3) (l k : Byte) : decodeFetched [b, l, k] = .next (op.instr l k) := by
  simp only [decodeFetched, decode, h, hl]

theorem runFetched_two (hl : op.length = 2) : runFetched b s = andThen (readAtPc s) fun l => exec (op.instr l.1 0) l.2 := by
  cases op with
  | jsr => cases hl
  | _ => simp only [runFetched, h, fetchOperands, hl, andThen_assoc, andThen_next, decodeFetched_two h hl]

theorem runFetched_three (hl : op.length = 3) (hj : op ≠ .jsr) :
    runFetched b s = andThen (readAtPc s) fun l => andThen (readAtPc l.2) fun k => exec (op.instr l.1 k.1) k.2 := by
  cases op with
  | jsr => exact absurd rfl hj
  | _ => simp only [runFetched, h, fetchOperands, hl, andThen_assoc, andThen_next, decodeFetched_three h hl]

end

theorem runFetched_jsr {b : Byte} (h : lookup b = some .jsr) (s : State) :
    runFetched b s = andThen (readAtPc s) fun l => execJsr (cat (shownByte l.2 l.2.pc) l.1) l.2 := by
  simp only [runFetched, h, fetchOperands, andThen_assoc, andThen_next, decodeFetched_three h rfl]
  rfl

/-! ## The read class -/

theorem exec_readOp (o : ReadOp) (m : ReadMode) (s : State) : exec (o.instr m) s = readThen m (readEffect o) s := by
  cases o <;> rfl

theorem readLines_run {b : Byte} {o : ReadOp} {k : ReadKind} (h : lookup b = some (.read o k)) (s : State) :
    runLines (readLines o k) s = runFetched b s := by
  cases k with
  | imm =>
    rw [runFetched_two h s rfl, readLines, runLines_finish, readAtPc_eq, andThen_assoc]
    simp only [Op.instr, exec_readOp]
    rfl
  | zp =>
    rw [runFetched_two h s rfl, readLines, runLines_low]
    simp only [Op.instr, exec_readOp, runLines_data]
    rfl
  | zpx | zpy =>
    rw [runFetched_two h s rfl, readLines, runLines_low]
    simp only [Op.instr, exec_readOp, ReadKind.mode, readThen, readOperand, runLines_zeroPageIndex, runLines_data, andThen_assoc]
    rfl
  | abs =>
    rw [runFetched_three h s rfl nofun, readLines, runLines_absolute]
    simp only [Op.instr, exec_readOp, ReadKind.mode, readThen, readOperand, runLines_data, State.setAddress_latchedAddr]
  | abx | aby =>
    rw [runFetched_three h s rfl nofun, readLines, runLines_indexed]
    simp only [Op.instr, exec_readOp, ReadKind.mode, readThen, readOperand, runLines_indexedData]
  | izx =>
    rw [runFetched_two h s rfl, readLines, runLines_izx]
    simp only [Op.instr, exec_readOp, ReadKind.mode, readThen, readOperand, runLines_data, andThen_assoc]
  | izy =>
    rw [runFetched_two h s rfl, readLines, runLines_izy]
    simp only [Op.instr, exec_readOp, ReadKind.mode, readThen, readOperand, runLines_indexedData, andThen_assoc]

/-! ## The write class -/

theorem exec_writeOp (o : WriteOp) (m : WriteMode) (s : State) :
    exec (o.instr m) s = storeOperand m (writeValue o s) s := by
  cases o <;> rfl

/-- The reads before a store's write keep the registers, so that the byte to write may be taken before or after them. -/
theorem writeAddress_writeValue {m : WriteMode} {s : State} {r : Addr × State} (h : writeAddress m s = .next r) (o : WriteOp) :
    writeValue o r.2 = writeValue o s := by
  have hs := writeAddress_through m s
  rw [h] at hs
  obtain ⟨x, hx, he⟩ := andThen_eq_next.1 hs.symm
  have hv : x.2.visible = r.2.visible := congrArg Prod.snd (Host.Outcome.next.inj he)
  have hk : State.putCpu s x.2 = x.2 := storeThrough_keeps hx
  calc writeValue o r.2 = writeValue o r.2.visible := by cases o <;> rfl
    _ = writeValue o (State.putCpu s x.2) := by rw [← hv, hk]; cases o <;> rfl
    _ = writeValue o s := by cases o <;> rfl

theorem exec_store (o : WriteOp) (m : WriteMode) (s : State) :
    exec (o.instr m) s = andThen (writeAddress m s) fun r => busWrite r.1 (writeValue o r.2) r.2 := by
  rw [exec_writeOp, storeOperand]
  exact andThen_congr fun r hr => by rw [writeAddress_writeValue hr]

theorem writeLines_run {b : Byte} {o : WriteOp} {k : WriteKind} (h : lookup b = some (.write o k)) (s : State) :
    runLines (writeLines o k) s = runFetched b s := by
  cases k with
  | zp =>
    rw [runFetched_two h s rfl, writeLines, runLines_low]
    simp only [Op.instr, exec_store, runLines_store]
    rfl
  | zpx | zpy =>
    rw [runFetched_two h s rfl, writeLines, runLines_low]
    simp only [Op.instr, exec_store, WriteKind.mode, writeAddress, runLines_zeroPageIndex, runLines_store, andThen_assoc,
      andThen_next]
    rfl
  | abs =>
    rw [runFetched_three h s rfl nofun, writeLines, runLines_absolute]
    simp only [Op.instr, exec_store, WriteKind.mode, writeAddress, runLines_store, andThen_next, State.setAddress_latchedAddr]
  | abx | aby =>
    rw [runFetched_three h s rfl nofun, writeLines, runLines_indexed]
    simp only [Op.instr, exec_store, WriteKind.mode, writeAddress, runLines_fixPage, runLines_store, andThen_assoc,
      andThen_next]
  | izx =>
    rw [runFetched_two h s rfl, writeLines, runLines_izx]
    simp only [Op.instr, exec_store, WriteKind.mode, writeAddress, runLines_store, andThen_assoc, andThen_next]
  | izy =>
    rw [runFetched_two h s rfl, writeLines, runLines_izy]
    simp only [Op.instr, exec_store, WriteKind.mode, writeAddress, runLines_fixPage, runLines_store, andThen_assoc,
      andThen_next]

/-! ## The RMW class -/

theorem exec_rmwOp (o : RmwOp) (m : RmwMode) (s : State) : exec (o.instr m) s = modifyMemory m (rmwOperation o) s := by
  cases o with
  | shift o => cases o <;> rfl
  | inc => rfl
  | dec => rfl

theorem runLines_modify_zeroPage (o : RmwOp) :
    runLines (modifyLines State.zeroPageEa o) = fun s => rewriteAt (rmwOperation o) s.zeroPageEa s :=
  runLines_modify (fun _ _ hl _ => congrArg zeroPage hl) o

theorem runLines_modify_latched (o : RmwOp) :
    runLines (modifyLines State.latchedAddr o) = fun s => rewriteAt (rmwOperation o) s.latchedAddr s :=
  runLines_modify (fun _ _ hl hh => congrArg₂ cat hh hl) o

theorem rmwLines_run {b : Byte} {o : RmwOp} {k : RmwKind} (h : lookup b = some (.rmw o k)) (s : State) :
    runLines (rmwLines o k) s = runFetched b s := by
  cases k with
  | zp =>
    rw [runFetched_two h s rfl, rmwLines, runLines_low]
    simp only [Op.instr, exec_rmwOp, runLines_modify_zeroPage]
    rfl
  | zpx =>
    rw [runFetched_two h s rfl, rmwLines, runLines_low]
    simp only [Op.instr, exec_rmwOp, RmwKind.mode, modifyMemory_eq, rmwAddress, runLines_zeroPageIndex, runLines_modify_zeroPage,
      andThen_assoc, andThen_next]
    rfl
  | abs =>
    rw [runFetched_three h s rfl nofun, rmwLines, runLines_absolute]
    simp only [Op.instr, exec_rmwOp, RmwKind.mode, modifyMemory_eq, rmwAddress, runLines_modify_latched, andThen_next,
      State.setAddress_latchedAddr]
  | abx =>
    rw [runFetched_three h s rfl nofun, rmwLines, runLines_indexed]
    simp only [Op.instr, exec_rmwOp, RmwKind.mode, modifyMemory_eq, rmwAddress, runLines_fixPage, runLines_modify_latched,
      andThen_assoc, andThen_next]

/-! ## The other instructions -/

theorem exec_acc (o : ShiftOp) (s : State) : exec (o.instr .acc) s = implied (accEffect o) s := by
  cases o <;> rfl

theorem exec_implied (o : ImpliedOp) (s : State) : exec o.instr s = implied (impliedEffect o) s := by
  cases o <;> rfl

theorem exec_branch (o : BranchOp) (rel : Byte) (s : State) : exec (o.instr rel) s = branch (branchTaken o s.p) rel s := by
  cases o <;> rfl

theorem impliedLines_run (f : State → State) (s : State) : runLines (impliedLines f) s = implied f s := by
  simp only [impliedLines, runLines_finish, implied, discardRead, andThen_assoc, andThen_next]
  rfl

/-- The last line of a branch is the one that finds it not taken, or its page the same, or the third (R212). -/
theorem branchLines_run (o : BranchOp) (s : State) :
    runLines (branchLines o) s = andThen (readAtPc s) fun r => branch (branchTaken o r.2.p) r.1 r.2 := by
  rw [branchLines, runLines, Line.run, readAtPc_eq, andThen_assoc, andThen_assoc]
  refine andThen_congr fun r _ => ?_
  simp only [andThen_next, branch]
  change (if (!branchTaken o r.2.p) = true then _ else _) = if branchTaken o r.2.p = true then _ else _
  cases branchTaken o r.2.p with
  | false => rfl
  | true =>
    simp only [Bool.not_true, Bool.false_eq_true, if_false, if_true, runLines, Line.run, takeBranch, discardRead, andThen_assoc,
      andThen_next]
    refine andThen_congr fun u _ => ?_
    simp only [branchTarget]
    change (if (!(hi (u.2.pc + sext16 u.2.micro.operand) != hi u.2.pc)) = true then _ else _) =
      if (hi (u.2.pc + sext16 u.2.micro.operand) != hi u.2.pc) = true then _ else _
    cases hi (u.2.pc + sext16 u.2.micro.operand) != hi u.2.pc <;> rfl

theorem exceptionLines_run (brk : Bool) : runLines (exceptionLines brk) = takeException brk := by
  funext s
  simp only [exceptionLines, pushLine, runLines_goOn, takeException, push, Access.perform, andThen_assoc, andThen_next]
  simp only [runLines, Line.run, finish, andThen_assoc, andThen_next]
  rfl

theorem intLines_run (s : State) : runLines intLines s = interruptEntry s := by
  simp only [intLines, runLines_goOn, exceptionLines_run, interruptEntry, discardRead, andThen_assoc, andThen_next]
  rfl

theorem resetLines_run (s : State) : runLines resetLines s = resetSequence s := by
  simp only [resetLines, resetStackLine, runLines, Line.run, goOn, finish, resetSequence, resetStackCycle, discardStack,
    discardRead, andThen_assoc, andThen_next]
  rfl

theorem pushLines_run (o : PushOp) (s : State) :
    runLines (pushLines o) s = andThen (discardRead s.pc s) fun t => push (pushValue o t) t := by
  simp only [pushLines, runLines_goOn, runLines_finish, push, discardRead, Access.perform, andThen_assoc, andThen_next]
  rfl

theorem pullLines_run (o : PullOp) (s : State) :
    runLines (pullLines o) s = andThen (pullOperand s) fun r => .next (pullEffect o r.1 r.2) := by
  simp only [pullLines, runLines_goOn, runLines_finish, pullOperand, pull, discardStack, discardRead, andThen_assoc,
    andThen_next]
  rfl

/-- JMP absolute latches the low byte of its target before it reads the high one (R215). -/
theorem jmpAbsLines_run (s : State) :
    runLines jmpAbsLines s =
      andThen (readAtPc s) fun l => andThen (readAtPc l.2) fun k => execJmp (.abs (cat k.1 l.1)) k.2 := by
  simp only [jmpAbsLines, runLines_low, runLines_finish, execJmp, State.setAddress_cat]
  refine andThen_congr fun l _ => ?_
  change andThen (busRead l.2.pc (l.2.setAdl l.1)) _ = _
  simp only [(cpuOnly_setAdl l.1).busRead, readAtPc_eq, andThen_assoc, andThen_next]
  rfl

/-- JMP indirect has the low byte of its pointer in `ptr` when it reads the high one (R216). -/
theorem jmpIndLines_run (s : State) :
    runLines jmpIndLines s =
      andThen (readAtPc s) fun l => andThen (readAtPc l.2) fun k => execJmp (.ind (cat k.1 l.1)) k.2 := by
  simp only [jmpIndLines, pointerLine, pointerLowLine, runLines_goOn, readAtPc_eq, execJmp, andThen_assoc, andThen_next]
  refine andThen_congr fun l _ => ?_
  change andThen (busRead l.2.incPc.pc (l.2.incPc.setPtr (zext16 l.1))) _ = _
  simp only [(cpuOnly_setPtr (zext16 l.1)).busRead, runLines_finish, andThen_assoc, andThen_next]
  refine andThen_congr fun k _ => ?_
  have hp : ((k.2.setPtr (zext16 l.1)).setPtr (cat k.1 (lo (zeroPage l.1)))).incPc = k.2.incPc.setPtr (cat k.1 l.1) := by
    rw [lo_zeroPage]
    rfl
  exact congrArg (fun u => andThen (busRead u.micro.ptr u) _) hp

/-- JSR runs on the low byte of its target alone, whatever stands for the high byte before it is read (R217; log 10). -/
theorem jsrLines_run (s : State) (shown : State → Byte) :
    runLines jsrLines s = andThen (readAtPc s) fun l => execJsr (cat (shown l.2) l.1) l.2 := by
  simp only [jsrLines, pushLine, runLines_low, runLines_goOn, runLines_finish, execJsr, discardStack, discardRead, push,
    Access.perform, andThen_assoc, andThen_next, lo_cat]
  rfl

theorem rtsLines_run (s : State) : runLines rtsLines s = execRts s := by
  simp only [rtsLines, runLines_goOn, runLines_finish, execRts, pull, discardStack, discardRead, andThen_assoc, andThen_next]
  rfl

theorem rtiLines_run (s : State) : runLines rtiLines s = execRti s := by
  simp only [rtiLines, runLines_goOn, runLines_finish, execRti, returnFromException, pull, discardStack, discardRead,
    andThen_assoc, andThen_next]
  rfl

theorem brkLines_run (s : State) : runLines brkLines s = execBrk s := by
  simp only [brkLines, runLines_goOn, exceptionLines_run, execBrk, discardRead, andThen_assoc, andThen_next]
  rfl

/-- The lines of a documented opcode are its instruction (R223). -/
theorem opLines_run {b : Byte} {op : Op} (h : lookup b = some op) (s : State) : runLines (opLines op) s = runFetched b s := by
  cases op with
  | read o k => exact readLines_run h s
  | write o k => exact writeLines_run h s
  | rmw o k => exact rmwLines_run h s
  | acc o =>
    rw [runFetched_one h s rfl]
    exact (impliedLines_run _ s).trans (exec_acc o s).symm
  | implied o =>
    rw [runFetched_one h s rfl]
    exact (impliedLines_run _ s).trans (exec_implied o s).symm
  | branch o =>
    rw [runFetched_two h s rfl]
    simp only [Op.instr, exec_branch]
    exact branchLines_run o s
  | push o =>
    rw [runFetched_one h s rfl]
    cases o <;> exact pushLines_run _ s
  | pull o =>
    rw [runFetched_one h s rfl]
    cases o <;> exact pullLines_run _ s
  | jmpAbs => exact (jmpAbsLines_run s).trans (runFetched_three h s rfl nofun).symm
  | jmpInd => exact (jmpIndLines_run s).trans (runFetched_three h s rfl nofun).symm
  | jsr => exact (jsrLines_run s fun t => shownByte t t.pc).trans (runFetched_jsr h s).symm
  | rts => exact (rtsLines_run s).trans (runFetched_one h s rfl).symm
  | rti => exact (rtiLines_run s).trans (runFetched_one h s rfl).symm
  | brk => exact (brkLines_run s).trans (runFetched_one h s rfl).symm

end Sys2Proof.Machine
end

section
/-! The cycle level and the instruction level agree (R7, R190, R225). -/

namespace Sys2Proof.Machine

/-! ## The whole sequence -/

theorem opcodeLines_of_lookup {b : Byte} {op : Op} (h : lookup b = some op) : opcodeLines b = opLines op := by
  rw [opcodeLines, h]

theorem opcodeLines_of_illegal {b : Byte} (h : lookup b = none) : opcodeLines b = impliedLines nopEffect := by
  rw [opcodeLines, h]

theorem runFetched_illegal {b : Byte} (h : lookup b = none) (s : State) : runFetched b s = execIll b s := by
  have hd : decodeFetched [b] = .next (.ill b) := by simp only [decodeFetched, decode, h]
  simp only [runFetched, h, fetchOperands, andThen_next, hd]
  rfl

/-- An illegal opcode that the strict policy halts on, at its fetch (R180, R191). -/
def State.haltsOn (s : State) (b : Byte) : Bool := isIllegal b && s.platform.illegalPolicy == .strict

theorem runFetched_halt {b : Byte} {s : State} (h : s.haltsOn b = true) : runFetched b s = .next (haltInvalid b s) := by
  obtain ⟨hb, hp⟩ := Bool.and_eq_true_iff.1 h
  rw [runFetched_illegal ((lookup_none b).2 hb), execIll, eq_of_beq hp]

theorem opcodeLines_run {b : Byte} {s : State} (h : s.haltsOn b = false) : runLines (opcodeLines b) s = runFetched b s := by
  cases hl : lookup b with
  | some op => rw [opcodeLines_of_lookup hl, opLines_run hl]
  | none =>
    have hp : s.platform.illegalPolicy = .nop2 := by
      rw [State.haltsOn, (lookup_none b).1 hl, Bool.true_and] at h
      cases hp : s.platform.illegalPolicy with
      | nop2 => rfl
      | strict => rw [hp] at h; cases h
    rw [opcodeLines_of_illegal hl, impliedLines_run, runFetched_illegal hl, execIll, hp]

theorem beginSequence_instr {s : State} (hq : s.nextSeq = .instr) : s.beginSequence = s.setSeq .instr := by
  simp only [State.beginSequence, hq]
  rfl

/-- The step at a boundary (R190): the sequence that is due, an instruction by its fetch and what follows it. -/
theorem step_boundary {s : State} (hs : s.halted = none) (hc : s.micro.cycleIndex = 0) : step s =
    match s.nextSeq with
    | .reset => resetSequence s.beginSequence
    | .int => interruptEntry s.beginSequence
    | .instr => andThen (busRead s.pc s.beginSequence) fun r => runFetched r.1 (r.2.incPc.setOpcode r.1) := by
  unfold step
  rw [if_neg (by simp [hs]), if_neg (not_not.2 hc)]
  cases hq : s.nextSeq with
  | reset => rfl
  | int => rfl
  | instr =>
    simp only [beginSequence_instr hq, fetchBytes, fetchOpcode, readAtPc_eq, runFetched, andThen_assoc, andThen_next]
    rfl

theorem fetchLine_after (b : Byte) (s : State) :
    fetchLine.after b s =
      (if (s.incPc.setOpcode b).haltsOn b then haltInvalid b (s.incPc.setOpcode b) else s.incPc.setOpcode b, false) := rfl

/-- The fetch cycle (R191). -/
theorem tick_fetch {s : State} (hs : s.halted = none) (hc : s.micro.cycleIndex = 0) (hq : s.nextSeq = .instr) :
    tick s = andThen (busRead s.pc s.beginSequence) fun r =>
      let t := r.2.incPc.setOpcode r.1
      .next (if t.haltsOn r.1 then haltInvalid r.1 t else t.setCycleIndex 1) := by
  have ht : tick s = doLine fetchLine (s.setSeq .instr) := by
    unfold tick
    rw [if_neg (by simp [hs]), if_pos hc, beginSequence_instr hq]
    simp only [show (s.setSeq .instr).micro.cycleIndex = 0 from hc]
    rfl
  rw [ht, beginSequence_instr hq, doLine_eq, Line.run, andThen_assoc]
  refine andThen_congr fun r hr => ?_
  have hh : r.2.halted = none := (busRead_bystander hr).halted.trans hs
  have hi : r.2.micro.cycleIndex = 0 := (congrArg Micro.cycleIndex (busRead_micro hr)).trans hc
  simp only [andThen_next, fetchLine_after]
  cases (r.2.incPc.setOpcode r.1).haltsOn r.1 with
  | true => rfl
  | false =>
    change (if r.2.halted.isSome then _ else Host.Outcome.next (State.setCycleIndex _ (r.2.micro.cycleIndex + 1))) = _
    rw [hh, hi]
    rfl

/-- The ticks after a fetch of `b` that does not halt do what the step does after it. -/
theorem finishSequence_fetched {b : Byte} {t : State} (ht : t.halted = none) (hq : t.micro.seq = .instr)
    (hc : t.micro.cycleIndex = 0) (ho : t.micro.opcode = b) (hn : t.haltsOn b = false) :
    finishSequence 7 (t.setCycleIndex 1) = runFetched b t := by
  have hd : (t.setCycleIndex 1).sequenceLines.drop 1 = opcodeLines b := by
    unfold State.sequenceLines
    rw [show (t.setCycleIndex 1).micro.seq = .instr from hq, show (t.setCycleIndex 1).micro.opcode = b from ho]
    rfl
  calc finishSequence 7 (t.setCycleIndex 1)
      = runLines (opcodeLines b) (t.atCycle { t.micro with cycleIndex := 0 }) :=
        finishSequence_atCycle (m := { t.micro with cycleIndex := 1 })
          (opcodeLines_steady b) (opcodeLines_length b) one_ne_zero ht hd
    _ = runFetched b t := by rw [State.atCycle_zero hc, opcodeLines_run hn]

/-- From its first cycle, the ticks of an instruction do its fetch and what the step does after it. -/
theorem finishSequence_instruction {s : State} (hs : s.halted = none) (hc : s.micro.cycleIndex = 0)
    (hq : s.nextSeq = .instr) :
    finishSequence 8 s = andThen (busRead s.pc s.beginSequence) fun r => runFetched r.1 (r.2.incPc.setOpcode r.1) := by
  rw [finishSequence, tick_fetch hs hc hq, andThen_assoc, beginSequence_instr hq]
  refine andThen_congr fun r hr => ?_
  have hm : r.2.micro = { s.micro with seq := .instr } := busRead_micro hr
  have hi : (r.2.incPc.setOpcode r.1).micro.cycleIndex = 0 := (congrArg Micro.cycleIndex hm).trans hc
  have ht : (r.2.incPc.setOpcode r.1).halted = none := (busRead_bystander hr).halted.trans hs
  have hseq : (r.2.incPc.setOpcode r.1).micro.seq = .instr := congrArg Micro.seq hm
  have hop : (r.2.incPc.setOpcode r.1).micro.opcode = r.1 := rfl
  generalize r.2.incPc.setOpcode r.1 = t at *
  simp only [andThen_next]
  cases hn : t.haltsOn r.1 with
  | true => exact (if_pos hi).trans (runFetched_halt hn).symm
  | false => exact finishSequence_fetched ht hseq hi hop hn

theorem sequenceLines_reset {s : State} (hq : s.nextSeq = .reset) : s.beginSequence.sequenceLines = resetLines := by
  simp only [State.beginSequence, hq]
  rfl

theorem sequenceLines_int {s : State} (hq : s.nextSeq = .int) : s.beginSequence.sequenceLines = intLines := by
  simp only [State.beginSequence, hq]
  rfl

/-- Settles O9: at a boundary the sequence is a reset, an interrupt entry or an instruction, and for each of them the ticks are
its lines and its lines are the step. -/
theorem ticksAgreeWithStep : Obligations.TicksAgreeWithStep := by
  intro s hs hc
  rw [step_boundary hs hc, sequenceBound]
  cases hq : s.nextSeq with
  | reset =>
    exact (finishSequence_begin hs hc resetLines_steady (Nat.le_of_ble_eq_true rfl)
      (sequenceLines_reset hq)).trans (resetLines_run _)
  | int =>
    exact (finishSequence_begin hs hc intLines_steady (Nat.le_of_ble_eq_true rfl)
      (sequenceLines_int hq)).trans (intLines_run _)
  | instr => exact finishSequence_instruction hs hc hq

end Sys2Proof.Machine
end

section
/-! SUPPORT. What a tick can do, said once (R190, R192): nothing on a halted machine, else one line of the sequence in
progress. What a tick keeps, a whole step keeps. -/

namespace Sys2Proof.Machine

/-! ## One tick is one line -/

/-- The state in which a tick chooses its line: at a boundary the sequence has begun (R190). -/
def State.begun (s : State) : State := if s.micro.cycleIndex = 0 then s.beginSequence else s

theorem State.beginSequence_outside (s : State) : SameOutside s s.beginSequence := by
  unfold State.beginSequence
  dsimp only
  split <;> exact ⟨rfl, rfl, rfl, rfl⟩

theorem State.begun_outside (s : State) : SameOutside s s.begun := by
  unfold State.begun
  split
  · exact s.beginSequence_outside
  · exact .refl s

@[simp] theorem State.beginSequence_halted (s : State) : s.beginSequence.halted = s.halted := by
  unfold State.beginSequence
  dsimp only
  split <;> rfl

@[simp] theorem State.beginSequence_cycles (s : State) : s.beginSequence.cycles = s.cycles := by
  unfold State.beginSequence
  dsimp only
  split <;> rfl

@[simp] theorem State.begun_halted (s : State) : s.begun.halted = s.halted := by
  unfold State.begun
  split <;> simp

@[simp] theorem State.begun_cycles (s : State) : s.begun.cycles = s.cycles := by
  unfold State.begun
  split <;> simp

/-- A tick of a machine that runs does the line that `cycle_index` names (R190). -/
theorem tick_line {s t : State} (hs : s.halted = none) (h : tick s = .next t) :
    ∃ l, s.begun.sequenceLines[s.begun.micro.cycleIndex]? = some l ∧ doLine l s.begun = .next t := by
  unfold tick at h
  rw [if_neg (by simp [hs])] at h
  change (match s.begun.sequenceLines[s.begun.micro.cycleIndex]? with
    | some l => doLine l s.begun
    | none => .refused .noSuchCycle) = _ at h
  split at h
  · next l hl => exact ⟨l, hl, h⟩
  · cases h

theorem tick_halted {s : State} (hs : s.halted ≠ none) : tick s = .next s := by
  unfold tick
  rw [if_pos (Option.isSome_iff_ne_none.2 hs)]

/-- A line is its access between its updates; the tick then moves `cycle_index` (R192). -/
theorem doLine_parts {l : Line} {s t : State} (h : doLine l s = .next t) :
    ∃ v u n, (l.access (l.before s)).perform (l.before s) = .next (v, u) ∧ t = (l.after v u).1.setCycleIndex n := by
  obtain ⟨⟨v, u⟩, hu, ht⟩ := andThen_eq_next.1 h
  dsimp only at ht
  split at ht
  · exact ⟨v, u, (l.after v u).1.micro.cycleIndex, hu, (Host.Outcome.next.inj ht).symm⟩
  · exact ⟨v, u, _, hu, (Host.Outcome.next.inj ht).symm⟩

/-- An access is one cycle, and either the store of the byte on the bus or a callback at most (R46, R47). -/
theorem perform_cases {acc : Access} {s t : State} {v : Byte} (h : acc.perform s = .next (v, t)) :
    (∃ a, t = s.addCycle.setMem (s.mem.poke a v)) ∨ Bystander s.addCycle t := by
  cases acc with
  | read a => exact .inr (busRead_bystander h)
  | write a w =>
    obtain ⟨u, hu, ht⟩ := andThen_eq_next.1 h
    cases ht
    exact (busWrite_bystander hu).imp_left fun e => ⟨a, e⟩

/-- A tick keeps what every access keeps, where the updates inside the CPU make no difference to it. -/
theorem tick_keeps {I : State → Prop} (inside : ∀ s t, SameOutside s t → I s → I t)
    (access : ∀ acc s v t, Access.perform acc s = .next (v, t) → I s → I t) {s t : State} (h : tick s = .next t)
    (hi : I s) : I t := by
  by_cases hs : s.halted = none
  · obtain ⟨l, hl, hd⟩ := tick_line hs h
    obtain ⟨before, after⟩ := sequenceLines_inside _ l (List.mem_of_getElem? hl)
    obtain ⟨v, u, n, hu, rfl⟩ := doLine_parts hd
    have hb : I (l.before s.begun) := inside _ _ (before _) (inside _ _ s.begun_outside hi)
    exact inside _ _ ((after v u).trans ⟨rfl, rfl, rfl, rfl⟩) (access _ _ _ _ hu hb)
  · rw [tick_halted hs] at h
    cases h
    exact hi

/-! ## A step is ticks -/

theorem finishSequence_keeps {I : State → Prop} (keep : ∀ s t, tick s = .next t → I s → I t) {fuel : Nat} {s t : State}
    (h : finishSequence fuel s = .next t) (hi : I s) : I t := by
  induction fuel generalizing s with
  | zero => cases h
  | succ fuel ih =>
    obtain ⟨u, hu, ht⟩ := andThen_eq_next.1 h
    have hiu : I u := keep s u hu hi
    split at ht
    · cases ht
      exact hiu
    · exact ih ht hiu

theorem step_halted {s : State} (hs : s.halted ≠ none) : step s = .next s := by
  unfold step
  rw [if_pos (Option.isSome_iff_ne_none.2 hs)]

/-- A step of a machine that runs is the ticks of its sequence, from a boundary and from the middle (R190, R225). -/
theorem step_eq_finishSequence {s : State} (hs : s.halted = none) : step s = finishSequence sequenceBound s := by
  by_cases hc : s.micro.cycleIndex = 0
  · exact (ticksAgreeWithStep s hs hc).symm
  · unfold step
    rw [if_neg (by simp [hs]), if_pos hc]

theorem step_keeps {I : State → Prop} (keep : ∀ s t, tick s = .next t → I s → I t) {s t : State}
    (h : step s = .next t) (hi : I s) : I t := by
  by_cases hs : s.halted = none
  · rw [step_eq_finishSequence hs] at h
    exact finishSequence_keeps keep h hi
  · rw [step_halted hs] at h
    cases h
    exact hi

/-! ## The canonical form of the Memory (R21, R25 a) -/

theorem perform_memWf (acc : Access) (s : State) (v : Byte) (t : State) (h : acc.perform s = .next (v, t))
    (hm : s.mem.wf = true) : t.mem.wf = true := by
  obtain ⟨a, rfl⟩ | hb := perform_cases h
  · exact Memory.poke_wf hm a v
  · exact hb.memWf hm

theorem tick_memWf {s t : State} (h : tick s = .next t) (hm : s.mem.wf = true) : t.mem.wf = true :=
  tick_keeps (I := fun s => s.mem.wf = true) (fun _ _ ho hi => by rwa [ho.mem]) perform_memWf h hm

/-- Settles O49: a step is ticks, and each tick keeps the form, as its one access does. -/
theorem stepKeepsMemoryForm : Obligations.StepKeepsMemoryForm := by
  intro s t hm h
  exact step_keeps (fun _ _ => tick_memWf) h hm

end Sys2Proof.Machine
end

section
/-! SUPPORT. Every sequence ends with its last line (R190, R223), so that a tick leads from a line of a sequence to the next
one or to a boundary. -/

namespace Sys2Proof.Machine

/-! ## The last line ends its sequence -/

/-- The line is the final micro-step, whatever byte is on the bus. -/
def Line.Ends (l : Line) : Prop := ∀ v s, (l.after v s).2 = true

theorem opLines_last (op : Op) : ∀ l ∈ (opLines op).getLast?, l.Ends := by
  cases op with
  | read o k => cases k <;> (rintro _ ⟨⟩; exact fun _ _ => rfl)
  | write o k => cases k <;> (rintro _ ⟨⟩; exact fun _ _ => rfl)
  | rmw o k => cases k <;> (rintro _ ⟨⟩; exact fun _ _ => rfl)
  | _ => rintro _ ⟨⟩; exact fun _ _ => rfl

theorem opcodeLines_last (b : Byte) : ∀ l ∈ (opcodeLines b).getLast?, l.Ends := by
  unfold opcodeLines
  split
  · exact opLines_last _
  · rintro _ ⟨⟩; exact fun _ _ => rfl

theorem opLines_ne_nil (op : Op) : opLines op ≠ [] := by
  cases op with
  | read o k => cases k <;> exact List.cons_ne_nil _ _
  | write o k => cases k <;> exact List.cons_ne_nil _ _
  | rmw o k => cases k <;> exact List.cons_ne_nil _ _
  | _ => exact List.cons_ne_nil _ _

theorem opcodeLines_ne_nil (b : Byte) : opcodeLines b ≠ [] := by
  unfold opcodeLines
  split
  · exact opLines_ne_nil _
  · exact List.cons_ne_nil _ _

theorem sequenceLines_last (s : State) : ∀ l ∈ s.sequenceLines.getLast?, l.Ends := by
  unfold State.sequenceLines
  split
  · rintro _ ⟨⟩; exact fun _ _ => rfl
  · rintro _ ⟨⟩; exact fun _ _ => rfl
  · rw [List.getLast?_cons_of_ne_nil (opcodeLines_ne_nil _)]
    exact opcodeLines_last _

/-- Every line but the fetch is steady. -/
theorem sequenceLines_steady {s : State} {l : Line} (hl : s.sequenceLines[s.micro.cycleIndex]? = some l)
    (h : s.micro.cycleIndex ≠ 0 ∨ s.micro.seq ≠ .instr) : l.Steady := by
  unfold State.sequenceLines at hl
  split at hl
  · exact List.forall_iff_forall_mem.1 resetLines_steady l (List.mem_of_getElem? hl)
  · exact List.forall_iff_forall_mem.1 intLines_steady l (List.mem_of_getElem? hl)
  · next hq =>
    obtain ⟨n, hn⟩ := Nat.exists_eq_succ_of_ne_zero (h.resolve_right (not_not.2 hq))
    rw [hn, List.getElem?_cons_succ] at hl
    exact List.forall_iff_forall_mem.1 (opcodeLines_steady _) l (List.mem_of_getElem? hl)

/-! ## `cycle_index` stays on a line of its sequence (R17, R25 f) -/

theorem State.microWf_iff {s : State} : s.microWf = true ↔ s.micro.cycleIndex < s.sequenceLines.length := decide_eq_true_iff

theorem sequenceLines_length_pos (s : State) : 0 < s.sequenceLines.length := by
  unfold State.sequenceLines
  split <;> exact Nat.succ_pos _

theorem State.microWf_of_boundary {s : State} (h : s.micro.cycleIndex = 0) : s.microWf = true := by
  rw [State.microWf_iff, h]
  exact sequenceLines_length_pos s

/-- After the fetch there is a second line (R191). -/
theorem State.microWf_of_fetched {s : State} (hq : s.micro.seq = .instr) (hc : s.micro.cycleIndex = 1) : s.microWf = true := by
  have := List.length_pos_iff.2 (opcodeLines_ne_nil s.micro.opcode)
  rw [State.microWf_iff, hc, State.sequenceLines, hq, List.length_cons]
  omega

/-- A steady line is followed by the next of its sequence, or by a boundary if it ends it. -/
theorem doLine_microWf {l : Line} {s t : State} (hs : s.halted = none) (hl : s.sequenceLines[s.micro.cycleIndex]? = some l)
    (hst : l.Steady) (h : doLine l s = .next t) : t.microWf = true := by
  have hd : doLine l (s.atCycle s.micro) = .next t := h
  rw [hst.doLine_atCycle s.micro hs] at hd
  obtain ⟨⟨u, last⟩, hu, ht⟩ := andThen_eq_next.1 hd
  cases ht
  obtain ⟨x, -, hx⟩ := andThen_eq_next.1 hu
  cases last with
  | true => exact State.microWf_of_boundary rfl
  | false =>
    obtain ⟨hlt, hget⟩ := List.getElem?_eq_some_iff.1 hl
    refine State.microWf_iff.2 (show s.micro.cycleIndex + 1 < s.sequenceLines.length from ?_)
    by_contra hge
    have hlast : s.sequenceLines.getLast? = some l := by
      rw [List.getLast?_eq_getElem?, ← hl]
      congr 1
      omega
    have hend := sequenceLines_last s l hlast x.1 x.2
    rw [Host.Outcome.next.inj hx] at hend
    cases hend

theorem fetch_microWf {s t : State} (hs : s.halted = none) (hc : s.micro.cycleIndex = 0) (hq : s.nextSeq = .instr)
    (h : tick s = .next t) : t.microWf = true := by
  rw [tick_fetch hs hc hq, beginSequence_instr hq] at h
  obtain ⟨⟨b, u⟩, hu, ht⟩ := andThen_eq_next.1 h
  have hm : u.micro = { s.micro with seq := .instr } := busRead_micro hu
  dsimp only at ht
  split at ht
  · cases ht
    exact State.microWf_of_boundary ((congrArg Micro.cycleIndex hm).trans hc)
  · cases ht
    exact State.microWf_of_fetched (congrArg Micro.seq hm) rfl

theorem State.beginSequence_seq (s : State) : s.beginSequence.micro.seq = s.nextSeq := by
  unfold State.beginSequence
  dsimp only
  split <;> rfl

theorem tick_microWf {s t : State} (h : tick s = .next t) (hm : s.microWf = true) : t.microWf = true := by
  by_cases hs : s.halted = none
  · by_cases hf : s.micro.cycleIndex = 0 ∧ s.nextSeq = .instr
    · exact fetch_microWf hs hf.1 hf.2 h
    · obtain ⟨l, hl, hd⟩ := tick_line hs h
      refine doLine_microWf (s.begun_halted.trans hs) hl (sequenceLines_steady hl ?_) hd
      by_cases hc : s.micro.cycleIndex = 0
      · refine .inr fun hq => hf ⟨hc, ?_⟩
        rw [← s.beginSequence_seq, ← hq, State.begun, if_pos hc]
      · rw [State.begun, if_neg hc]
        exact .inl hc
  · rw [tick_halted hs] at h
    cases h
    exact hm

end Sys2Proof.Machine
end

section
/-! SUPPORT. Every event keeps the wires well formed: one source a wire, one wire a source, every sink of its wire's width (R230,
R231, R234, R245). -/

namespace Sys2Proof.Machine

/-! ## The wires -/

/-- Two wires that can stand in one fabric: of different identifiers and of different sources (R230, R234). -/
def Wire.Apart (u v : Wire) : Prop := u.id ≠ v.id ∧ ∀ e, u.source = some e → v.source ≠ some e

/-- Every sink of the wire has its width (R231, R234). -/
def Wire.Fits (w : Wire) : Prop := ∀ k ∈ w.sinks, k.wide = isWide w.value

theorem Wire.Apart.symm {u v : Wire} (h : u.Apart v) : v.Apart u := ⟨h.1.symm, fun e hv hu => h.2 e hu hv⟩

theorem Fabric.wf_iff {f : Fabric} : f.wf = true ↔ f.wires.Pairwise Wire.Apart ∧ ∀ w ∈ f.wires, w.Fits := by
  have hsource : (f.wires.filterMap Wire.source).Nodup ↔
      f.wires.Pairwise fun u v => ∀ e, u.source = some e → v.source ≠ some e := by
    rw [List.Nodup, List.pairwise_filterMap]
    refine List.Pairwise.iff fun {u v} => ⟨fun h e hu hv => h e hu e hv rfl, fun h e hu e' hv he => ?_⟩
    subst he
    exact h e hu hv
  have hid : (f.wires.map Wire.id).Nodup ↔ f.wires.Pairwise fun u v => u.id ≠ v.id := List.pairwise_map
  simp only [Fabric.wf, Bool.and_eq_true, decide_eq_true_eq, hsource, hid, ← List.pairwise_and_iff, List.all_eq_true,
    beq_iff_eq]
  rfl

/-- Replacing a wire keeps the wires well formed where the new one fits and shares its source with no other wire. -/
theorem Fabric.wf_setWire {f : Fabric} (hf : f.wf = true) {w : Wire} (hfit : w.Fits)
    (hsource : ∀ u ∈ f.wires, u.id ≠ w.id → u.Apart w) : (f.setWire w).wf = true := by
  obtain ⟨hpair, hfits⟩ := Fabric.wf_iff.1 hf
  refine Fabric.wf_iff.2
    ⟨List.pairwise_map.2 (hpair.imp_of_mem fun {u v} hu hv huv => ?_), List.forall_mem_map.2 fun u hu => ?_⟩
  · by_cases hu' : u.id = w.id
    · have hv' : v.id ≠ w.id := fun hv' => huv.1 (hu'.trans hv'.symm)
      rw [if_pos hu', if_neg hv']
      exact (hsource v hv hv').symm
    · rw [if_neg hu']
      split
      · exact hsource u hu hu'
      · exact huv
  · split
    · exact hfit
    · exact hfits u hu

/-- A new wire that fits and is apart from the others keeps the wires well formed. -/
theorem Fabric.wf_addWire {f : Fabric} (hf : f.wf = true) {w : Wire} (hfit : w.Fits) (hw : ∀ u ∈ f.wires, u.Apart w) :
    ({ f with wires := f.wires ++ [w] } : Fabric).wf = true := by
  obtain ⟨hpair, hfits⟩ := Fabric.wf_iff.1 hf
  exact Fabric.wf_iff.2
    ⟨List.pairwise_append.2 ⟨hpair, List.pairwise_singleton _ _, fun u hu => List.forall_mem_singleton.2 (hw u hu)⟩,
     List.forall_mem_append.2 ⟨hfits, List.forall_mem_singleton.2 hfit⟩⟩

/-- An endpoint that is no wire's source can become the source of one (R231, R234). -/
theorem Fabric.wf_bind {f : Fabric} (hf : f.wf = true) {w : Wire} (hw : w ∈ f.wires) {src : EndpointId}
    (hsrc : f.wireOfSource src = none) : (f.setWire { w with source := some src }).wf = true := by
  refine Fabric.wf_setWire hf ((Fabric.wf_iff.1 hf).2 w hw) fun u hu hid => ⟨hid, fun e he hse => ?_⟩
  cases hse
  exact List.find?_eq_none.1 hsrc u hu (beq_iff_eq.2 he)

/-- A connected sink has its wire's width (R231, R234). -/
theorem Fabric.wf_addSink {f : Fabric} (hf : f.wf = true) {w : Wire} (hw : w ∈ f.wires) {k : Sink}
    (hk : k.wide = isWide w.value) : (f.setWire { w with sinks := w.sinks ++ [k] }).wf = true := by
  obtain ⟨hpair, hfits⟩ := Fabric.wf_iff.1 hf
  refine Fabric.wf_setWire hf (List.forall_mem_append.2 ⟨hfits w hw, List.forall_mem_singleton.2 hk⟩) fun u hu hid => ?_
  have : Std.Symm Wire.Apart := ⟨fun _ _ => Wire.Apart.symm⟩
  have hne : u ≠ w := fun e => hid (congrArg Wire.id e :)
  exact (hpair.forall hu hw hne :)

theorem Wire.without_source {w : Wire} {e x : EndpointId} (h : (w.without e).source = some x) : w.source = some x := by
  unfold Wire.without at h
  dsimp only at h
  split at h
  · cases h
  · exact h

/-- Taking an endpoint away leaves fewer sources and sinks (R233). -/
theorem disconnect_fabricWf (e : EndpointId) {s : State} (hf : s.fabric.wf = true) : (disconnect e s).fabric.wf = true := by
  obtain ⟨hpair, hfits⟩ := Fabric.wf_iff.1 hf
  refine Fabric.wf_iff.2 ⟨List.pairwise_map.2 (hpair.imp fun {u v} huv => ⟨huv.1, fun x hu hv => ?_⟩),
    List.forall_mem_map.2 fun w hw k hk => hfits w hw k (List.mem_of_mem_filter hk)⟩
  exact huv.2 x (Wire.without_source hu) (Wire.without_source hv)

end Sys2Proof.Machine
end

section
/-! Every event keeps the state well formed (R17, R25, R230, R234, R245). -/

namespace Sys2Proof.Machine

theorem State.wf_iff {s : State} : s.wf = true ↔ s.mem.wf = true ∧ s.fabric.wf = true ∧ s.microWf = true := by
  simp only [State.wf, Bool.and_eq_true, and_assoc]

/-- A change of the Memory alone. -/
theorem State.wf_setMem {s : State} (hs : s.wf = true) {m : Memory} (hm : m.wf = true) : (s.setMem m).wf = true := by
  obtain ⟨-, hf, hc⟩ := State.wf_iff.1 hs
  exact State.wf_iff.2 ⟨hm, hf, hc⟩

/-- A change of the fabric alone. -/
theorem State.wf_setFabric {s : State} (hs : s.wf = true) {f : Fabric} (hf : f.wf = true) : (s.setFabric f).wf = true := by
  obtain ⟨hm, -, hc⟩ := State.wf_iff.1 hs
  exact State.wf_iff.2 ⟨hm, hf, hc⟩

theorem perform_fabricWf (acc : Access) (s : State) (v : Byte) (t : State) (h : acc.perform s = .next (v, t))
    (hf : s.fabric.wf = true) : t.fabric.wf = true := by
  obtain ⟨a, rfl⟩ | hb := perform_cases h
  · exact hf
  · exact hb.fabricWf hf

theorem tick_fabricWf {s t : State} (h : tick s = .next t) (hf : s.fabric.wf = true) : t.fabric.wf = true :=
  tick_keeps (I := fun s => s.fabric.wf = true) (fun _ _ ho hi => by rwa [ho.fabric]) perform_fabricWf h hf

theorem tick_wf {s t : State} (h : tick s = .next t) (hs : s.wf = true) : t.wf = true := by
  obtain ⟨hm, hf, hc⟩ := State.wf_iff.1 hs
  exact State.wf_iff.2 ⟨tick_memWf h hm, tick_fabricWf h hf, tick_microWf h hc⟩

/-- Deliveries keep the state well formed, with the ticks of the CPU that they run (R232, R246). -/
theorem delivered_wf : Delivered tick fun s t => s.wf = true → t.wf = true where
  refl := fun _ => id
  trans := fun _ _ _ h k hs => k (h hs)
  lines := fun _ _ => id
  world := fun _ _ => id
  stop := fun _ => id
  value := fun _ _ _ _ hw hv hs =>
    State.wf_setFabric hs (Fabric.setWire_wf (State.wf_iff.1 hs).2.1 (Fabric.wireOfSource_mem hw).1 rfl rfl rfl hv)
  nested := fun _ _ _ => id
  rise := fun _ _ => tick_wf

/-! ## The host's calls -/

theorem installBank_wf {b : Bank} {s t : State} (hs : s.wf = true) (h : installBank b s = .next t) : t.wf = true := by
  unfold installBank at h
  split at h
  · next m hm =>
    cases h
    exact State.wf_setMem hs (Memory.install_wf (State.wf_iff.1 hs).1 hm)
  · cases h

theorem switchBank_wf {lo hi : Addr} {id : BankId} {s t : State} (hs : s.wf = true) (h : switchBank lo hi id s = .next t) :
    t.wf = true := by
  unfold switchBank at h
  split at h
  · next m hm =>
    cases h
    exact State.wf_setMem hs (Memory.switch_wf (State.wf_iff.1 hs).1 hm)
  · cases h

theorem loadImage_wf {origin : Addr} {bytes : List Byte} {s t : State} (hs : s.wf = true)
    (h : loadImage origin bytes s = .next t) : t.wf = true := by
  unfold loadImage at h
  split at h
  · cases h
  · split at h
    · next m hm =>
      cases h
      exact State.wf_setMem hs (Memory.loadBytes_wf (State.wf_iff.1 hs).1 hm)
    · cases h

theorem createWire_wf {id : WireId} {wide : Bool} {s t : State} (hs : s.wf = true) (h : createWire id wide s = .next t) :
    t.wf = true := by
  unfold createWire at h
  split at h
  · cases h
  · next hnone =>
    cases h
    refine State.wf_setFabric hs (Fabric.wf_addWire (State.wf_iff.1 hs).2.1 (fun _ => nofun) fun u hu =>
      ⟨fun hid => ?_, fun _ _ => nofun⟩)
    exact List.find?_eq_none.1 hnone u hu (beq_iff_eq.2 hid)

theorem bindSource_wf {id : WireId} {src : EndpointId} {s t : State} (hs : s.wf = true) (h : bindSource id src s = .next t) :
    t.wf = true := by
  unfold bindSource at h
  split at h
  · cases h
  · next w hw =>
    split at h
    · cases h
    · next hfree =>
      cases h
      simp only [Bool.or_eq_true, not_or, Option.not_isSome_iff_eq_none] at hfree
      exact State.wf_setFabric hs (Fabric.wf_bind (State.wf_iff.1 hs).2.1 (List.mem_of_find?_eq_some hw) hfree.2)

theorem connect_wf {src : EndpointId} {k : Sink} {s t : State} (hs : s.wf = true) (h : connect src k s = .next t) :
    t.wf = true := by
  unfold connect at h
  split at h
  · cases h
  · next w hw =>
    split at h
    · cases h
    · next hk =>
      have hadd := Fabric.wf_addSink (State.wf_iff.1 hs).2.1 (Fabric.wireOfSource_mem hw).1 (by simpa using hk)
      exact delivered_wf.during (fun _ _ => delivered_wf.deliver fun _ _ _ _ => delivered_wf.write) h
        (State.wf_setFabric hs hadd)

theorem hostWrite_wf {src : EndpointId} {v : Signal} {s t : State} (hs : s.wf = true) (h : hostWrite src v s = .next t) :
    t.wf = true := by
  unfold hostWrite at h
  split at h
  · cases h
  · exact delivered_wf.write h hs

theorem setFrequency_wf {hz : Nat} {s t : State} (hs : s.wf = true) (h : setFrequency hz s = .next t) : t.wf = true := by
  unfold setFrequency at h
  split at h
  · cases h
  · cases h
    exact hs

theorem clockStep_wf {s t : State} (hs : s.wf = true) (h : clockStep s = .next t) : t.wf = true := by
  unfold clockStep at h
  dsimp only at h
  split at h
  · cases h
  · split at h
    · exact delivered_wf.write h hs
    · cases h
      exact hs

theorem computerStep_wf {s t : State} (hs : s.wf = true) (h : computerStep s = .next t) : t.wf = true := by
  obtain ⟨u, hu, ht⟩ := andThen_eq_next.1 h
  cases ht
  exact clockStep_wf (s := s.setFabric { s.fabric with tickCount := s.fabric.tickCount + 1 }) hs hu

/-- Settles O50, event by event: the CPU's inputs, the clock's settings and the outside world are no part of what is well
formed; the other events each keep it. -/
theorem eventsKeepTheStateWellFormed : Obligations.EventsKeepTheStateWellFormed := by
  intro e s t hs h
  cases e with
  | tick => exact tick_wf h hs
  | computerStep => exact computerStep_wf hs h
  | installBank b => exact installBank_wf hs h
  | switch lo hi id => exact switchBank_wf hs h
  | loadImage origin bytes => exact loadImage_wf hs h
  | createWire id wide => exact createWire_wf hs h
  | bindSource id src => exact bindSource_wf hs h
  | connect src k => exact connect_wf hs h
  | write src v => exact hostWrite_wf hs h
  | setFrequency hz => exact setFrequency_wf hs h
  | disconnect e =>
    cases h
    exact State.wf_setFabric hs (disconnect_fabricWf e (State.wf_iff.1 hs).2.1)
  | irqLine v | nmiLine v | reset | setRunning b | outside w =>
    cases h
    exact hs

end Sys2Proof.Machine
end

section
/-! The cycle count (R20, R25 d, R192): the updates of a line do not touch it, so that a tick counts what its one access counts.
And a halted machine, on which nothing counts (R19). -/

namespace Sys2Proof.Machine

/-! ## The updates of a line count nothing -/

/-- The updates of the line, before and after its access, leave the cycle count alone. What holds of a line by definition need
not be given. -/
structure Line.Untimed (l : Line) : Prop where
  before : ∀ s, (l.before s).cycles = s.cycles := by intros; rfl
  after : ∀ v s, (l.after v s).1.cycles = s.cycles := by intros; rfl

theorem readEffect_cycles (o : ReadOp) (v : Byte) (s : State) : (readEffect o v s).cycles = s.cycles := by
  cases o <;> rfl

theorem impliedEffect_cycles (o : ImpliedOp) (s : State) : (impliedEffect o s).cycles = s.cycles := by
  cases o <;> rfl

@[simp] theorem lowLine_untimed : lowLine.Untimed := {}

@[simp] theorem highLine_untimed : highLine.Untimed := {}

@[simp] theorem highIndexedLine_untimed (i : Index) : (highIndexedLine i).Untimed := {}

@[simp] theorem zeroPageIndexLine_untimed (i : Index) : (zeroPageIndexLine i).Untimed := {}

@[simp] theorem izxLines_untimed : izxLines.Forall Line.Untimed := ⟨{}, {}, {}, {}⟩

@[simp] theorem izyLines_untimed : izyLines.Forall Line.Untimed := ⟨{}, {}, {}⟩

@[simp] theorem fixPageLine_untimed : fixPageLine.Untimed where
  after v s := by
    simp only [fixPageLine, goOn, discarded]
    split <;> rfl

@[simp] theorem dataLine_untimed (ea : State → Addr) (o : ReadOp) : (dataLine ea o).Untimed where
  after v s := readEffect_cycles o v (s.setOperand v)

@[simp] theorem indexedDataLine_untimed (o : ReadOp) : (indexedDataLine o).Untimed where
  after v s := by
    simp only [indexedDataLine]
    split
    · rfl
    · exact readEffect_cycles o v (s.setOperand v)

@[simp] theorem storeLine_untimed (ea : State → Addr) (o : WriteOp) : (storeLine ea o).Untimed := {}

@[simp] theorem modifyLines_untimed (ea : State → Addr) (o : RmwOp) : (modifyLines ea o).Forall Line.Untimed := ⟨{}, {}, {}⟩

theorem fetchLine_untimed : fetchLine.Untimed where
  after v s := by
    simp only [fetchLine_after]
    split <;> rfl

theorem exceptionLines_untimed (brk : Bool) : (exceptionLines brk).Forall Line.Untimed := by
  refine ⟨{}, {}, {}, { before := fun s => ?_ }, {}⟩
  simp only [selectVector]
  split <;> rfl

theorem impliedLines_untimed {f : State → State} (hf : ∀ s, (f s).cycles = s.cycles) : (impliedLines f).Forall Line.Untimed :=
  { after := fun _ s => hf s }

theorem opLines_untimed (op : Op) : (opLines op).Forall Line.Untimed := by
  cases op with
  | read o k =>
    cases k with
    | imm => exact { after := fun v s => readEffect_cycles o v (s.incPc.setOperand v) }
    | _ => simp [opLines, readLines]
  | write o k => cases k <;> simp [opLines, writeLines]
  | rmw o k => cases k <;> simp [opLines, rmwLines]
  | acc o => exact impliedLines_untimed fun _ => rfl
  | implied o => exact impliedLines_untimed (impliedEffect_cycles o)
  | branch o => exact ⟨{}, {}, {}⟩
  | push o => exact ⟨{}, {}⟩
  | pull o => cases o <;> exact ⟨{}, {}, {}⟩
  | jmpAbs => exact ⟨{}, {}⟩
  | jmpInd => exact ⟨{}, {}, {}, {}⟩
  | jsr => exact ⟨{}, {}, {}, {}, {}⟩
  | rts => exact ⟨{}, {}, {}, {}, {}⟩
  | rti => exact ⟨{}, {}, {}, {}, {}⟩
  | brk => exact ⟨{}, exceptionLines_untimed true⟩

theorem opcodeLines_untimed (b : Byte) : (opcodeLines b).Forall Line.Untimed := by
  unfold opcodeLines
  split
  · exact opLines_untimed _
  · exact impliedLines_untimed fun _ => rfl

theorem sequenceLines_untimed (s : State) : s.sequenceLines.Forall Line.Untimed := by
  unfold State.sequenceLines
  split
  · exact ⟨{}, {}, {}, {}, {}, {}, {}⟩
  · exact ⟨{}, {}, exceptionLines_untimed false⟩
  · exact (List.forall_cons _ _ _).2 ⟨fetchLine_untimed, opcodeLines_untimed _⟩

/-! ## One access, one cycle -/

theorem perform_cycles {acc : Access} {s t : State} {v : Byte} (h : acc.perform s = .next (v, t)) :
    t.cycles = s.cycles + 1 := by
  obtain ⟨a, rfl⟩ | hb := perform_cases h
  · rfl
  · exact hb.cycles

/-- Settles O52: a tick is one line, whose access counts one cycle and whose updates count none. -/
theorem tickCountsOneCycle : Obligations.TickCountsOneCycle := by
  intro s t hs h
  obtain ⟨l, hl, hd⟩ := tick_line hs h
  have hu : l.Untimed := List.forall_iff_forall_mem.1 (sequenceLines_untimed _) l (List.mem_of_getElem? hl)
  obtain ⟨v, u, n, hp, rfl⟩ := doLine_parts hd
  calc ((l.after v u).1.setCycleIndex n).cycles
      = u.cycles := hu.after v u
    _ = (l.before s.begun).cycles + 1 := perform_cycles hp
    _ = s.cycles + 1 := by rw [hu.before, State.begun_cycles]

/-! ## A halted machine (R19) -/

theorem ticks_halted {s : State} (hs : s.halted ≠ none) (n : Nat) : ticks n s = .next s := by
  induction n with
  | zero => rfl
  | succ n ih => rw [ticks, tick_halted hs, andThen_next, ih]

/-- Settles O7: tick and step look at `halted` first. -/
theorem haltedMachineStays : Obligations.HaltedMachineStays :=
  fun _ n hs => ⟨tick_halted hs, step_halted hs, ticks_halted hs n⟩

end Sys2Proof.Machine
end

section
/-! The status byte (R13 to R16, R27). -/

namespace Sys2Proof.Machine

/-- The bits of a status byte, bit 0 first (R13, R16). -/
theorem Flags.toByte_bits (p : Flags) (b : Bool) :
    (List.range 8).map (p.toByte b).getLsbD = [p.c, p.z, p.i, p.d, b, true, p.v, p.n] := by
  obtain ⟨n, v, d, i, z, c⟩ := p
  revert n v d i z c b
  decide

/-- Bits 5 and 4 are no flags: storing the loaded flags sets the one and gives the other (R14, R15). -/
theorem Flags.toByte_ofByte (v : Byte) (b : Bool) :
    (Flags.ofByte v).toByte b = (v &&& 0xCF#8) ||| (if b then 0x30#8 else 0x20#8) := by
  revert v b
  decide

theorem Flags.ofByte_toByte (p : Flags) (b : Bool) : Flags.ofByte (p.toByte b) = p := by
  obtain ⟨n, v, d, i, z, c⟩ := p
  revert n v d i z c b
  decide

/-- Settles O27: the bits of a byte of flags, of the flags of a byte, and of the one after the other. -/
theorem statusByteHasTheSpecsBits : Obligations.StatusByteHasTheSpecsBits :=
  fun p b v => ⟨p.toByte_bits b, rfl, p.ofByte_toByte b, Flags.toByte_ofByte v b, fun _ => rfl⟩

end Sys2Proof.Machine
end

section
/-! The pushes and pulls (R11, R116 to R119, R213, R214). Their accesses are written out on the bus first, whatever answers them;
over storage each access then answers what memory shows. -/

namespace Sys2Proof.Machine

/-! ## From the accesses to the result -/

/-- What shows the same as a next state is a next state that shows the same. -/
theorem SameAnswer.next {r : Res State} {u : State} (h : SameAnswer r (.next u)) :
    ∃ t, r = .next t ∧ t.visible = u.visible := by
  obtain ⟨t, ht, hv⟩ := andThen_eq_next.1 h
  exact ⟨t, ht, Host.Outcome.next.inj hv⟩

/-- An instruction that runs as accesses which all answer leaves the state that they leave. -/
theorem RunsAs.completes {i : Instr} {s u : State} {r : Res State} (h : RunsAs i s r) (hr : r = .next u) :
    Completes i s u := by
  subst hr
  exact h.next

/-- Equal answers are one answer. -/
theorem RunsAs.of_eq {i : Instr} {s : State} {r : Res State} (h : exec i s = r) : RunsAs i s r := congrArg (andThen · _) h

theorem discardReads_noHandler {as : List Addr} {s : State} (h : ∀ a ∈ as, s.noHandler a) :
    discardReads as s = .next { s with cycles := s.cycles + as.length } := by
  induction as generalizing s with
  | nil => rfl
  | cons a as ih =>
    obtain ⟨ha, has⟩ := List.forall_mem_cons.1 h
    rw [discardReads_cons, busRead_noHandler ha, andThen_next, ih (s := s.addCycle) has]
    simp only [State.addCycle, List.length_cons, Nat.add_assoc, Nat.add_comm 1]

/-! ## The pushes -/

theorem exec_push (o : PushOp) (s : State) :
    exec ((Op.push o).instr 0 0) s = andThen (discardRead s.pc s) fun t => push (pushValue o t) t := by
  cases o <;> rfl

theorem pushValue_putCpu (o : PushOp) (c u : State) : pushValue o (State.putCpu c u) = pushValue o c := by
  cases o <;> rfl

/-- The two accesses of a push (R213), and `SP--` (R11). -/
theorem push_runsAs (o : PushOp) (s : State) :
    RunsAs ((Op.push o).instr 0 0) s
      (andThen (discardReads [s.pc] s) fun t =>
        andThen (busWrite (stackAddr s.sp) (pushValue o s) t) fun t => .next { t with sp := s.sp - 1 }) := by
  refine .of_eq ?_
  rw [exec_push, discardReads_cons, discardRead, andThen_assoc, andThen_assoc]
  refine andThen_congr fun r hr => ?_
  simp only [andThen_next, discardReads_nil]
  rw [← busRead_keeps hr, push, pushValue_putCpu]
  refine andThen_congr fun t ht => ?_
  rw [← busWrite_keeps ht]
  rfl

/-- A push over storage (R116, R117). -/
theorem push_completes (o : PushOp) {s : State} (hpc : s.noHandler s.pc) (hst : s.noHandler (stackAddr s.sp)) :
    Completes ((Op.push o).instr 0 0) s
      { s with sp := s.sp - 1, mem := s.mem.poke (stackAddr s.sp) (pushValue o s), cycles := s.cycles + 2 } := by
  refine (push_runsAs o s).completes ?_
  rw [discardReads_noHandler (List.forall_mem_singleton.2 hpc), andThen_next]
  exact congrArg (andThen · fun t => .next { t with sp := s.sp - 1 })
    (busWrite_noHandler (s := { s with cycles := s.cycles + 1 }) hst _)

/-- Settles O25: both pushes are one instruction that writes its own byte. -/
theorem pushesComplete : Obligations.PushesComplete := by
  intro s row hrow
  have hop : ∃ o : PushOp, row = ((Op.push o).instr 0 0, pushValue o s) := by
    simp only [List.mem_cons, List.not_mem_nil, or_false] at hrow
    obtain rfl | rfl := hrow
    · exact ⟨.pha, rfl⟩
    · exact ⟨.php, rfl⟩
  obtain ⟨o, rfl⟩ := hop
  refine ⟨fun hm hpc hst a ha => ?_, push_runsAs o s⟩
  subst ha
  exact ⟨push_completes o hpc hst, sameBut_poke hm _ _, fun h => peek_poke_ram hm h _, fun h => poke_of_not_isRam h _⟩

/-! ## The pulls -/

theorem cpuOnly_setSp (v : Byte) : CpuOnly fun s => s.setSp v := fun _ _ => rfl

theorem exec_pull (o : PullOp) (s : State) :
    exec ((Op.pull o).instr 0 0) s = andThen (pullOperand s) fun r => .next (pullEffect o r.1 r.2) := by
  cases o <;> rfl

/-- A pull reads above the `SP` it finds, which it moves there (R5, R11). -/
theorem pull_eq (s : State) :
    pull s = andThen (busRead (stackAddr (s.sp + 1)) s) fun r => .next (r.1, r.2.setSp (s.sp + 1)) :=
  (cpuOnly_setSp (s.sp + 1)).busRead _ s

/-- The accesses of a pull, and the byte and the `SP` they leave (R214). -/
def pulledFrom (s : State) : Res (Byte × State) :=
  andThen (discardReads [s.pc, stackAddr s.sp] s) (busRead (stackAddr (s.sp + 1)))

theorem pullOperand_eq (s : State) :
    pullOperand s = andThen (pulledFrom s) fun r => .next (r.1, (r.2.setSp (s.sp + 1)).setOperand r.1) := by
  simp only [pullOperand, pulledFrom, discardReads_cons, discardReads_nil, discardRead, discardStack, pull_eq, andThen_assoc,
    andThen_next]
  refine andThen_congr fun r hr => ?_
  rw [← busRead_keeps hr]
  refine andThen_congr fun t ht => ?_
  rw [← busRead_keeps ht]
  rfl

theorem pulledFrom_keeps {s t : State} {v : Byte} (h : pulledFrom s = .next (v, t)) : State.putCpu s t = t := by
  obtain ⟨u, hu, ht⟩ := andThen_eq_next.1 h
  rw [← busRead_keeps ht, ← discardReads_keeps hu]
  rfl

/-- Over storage the byte above `SP` is pulled. -/
theorem pulledFrom_noHandler {s : State} (hpc : s.noHandler s.pc) (hsp : s.noHandler (stackAddr s.sp))
    (hfrom : s.noHandler (stackAddr (s.sp + 1))) :
    pulledFrom s = .next (shownByte s (stackAddr (s.sp + 1)), { s with cycles := s.cycles + 3 }) := by
  rw [pulledFrom, discardReads_noHandler (List.forall_mem_cons.2 ⟨hpc, List.forall_mem_singleton.2 hsp⟩), andThen_next]
  exact busRead_noHandler (s := { s with cycles := s.cycles + 2 }) hfrom

/-- What a pull changes with the byte `v` after its accesses have led from `s` to `t`: A with N and Z, or the six flags; SP goes
up by one (R118, R119). -/
def pulled (o : PullOp) (s : State) (v : Byte) (t : State) : State :=
  match o with
  | .pla => { t with a := v, p := s.p.nz v, sp := s.sp + 1 }
  | .plp => { t with p := Flags.ofByte v, sp := s.sp + 1 }

/-- A pull makes its accesses and then its change. -/
theorem pull_runsAs (o : PullOp) (s : State) :
    RunsAs ((Op.pull o).instr 0 0) s (andThen (pulledFrom s) fun r => .next (pulled o s r.1 r.2)) := by
  unfold RunsAs SameAnswer
  rw [exec_pull, pullOperand_eq, andThen_assoc, andThen_assoc, andThen_assoc]
  refine andThen_congr fun r hr => ?_
  simp only [andThen_next]
  rw [← pulledFrom_keeps hr]
  cases o <;> rfl

/-- A pull over storage. -/
theorem pull_completes (o : PullOp) {s : State} (hpc : s.noHandler s.pc) (hsp : s.noHandler (stackAddr s.sp))
    (hfrom : s.noHandler (stackAddr (s.sp + 1))) :
    Completes ((Op.pull o).instr 0 0) s
      (pulled o s (shownByte s (stackAddr (s.sp + 1))) { s with cycles := s.cycles + 3 }) :=
  (pull_runsAs o s).completes (by rw [pulledFrom_noHandler hpc hsp hfrom, andThen_next])

/-- Settles O26: PLA and PLP make the same accesses and differ in what they do with the byte. -/
theorem pullsComplete : Obligations.PullsComplete := fun s =>
  ⟨fun hpc hsp hfrom => ⟨pull_completes .pla hpc hsp hfrom, pull_completes .plp hpc hsp hfrom⟩,
   pull_runsAs .pla s, pull_runsAs .plp s⟩

end Sys2Proof.Machine
end

section
/-! Construction, the reset sequence and the state after it (R26, R222, R290, R291). -/

namespace Sys2Proof.Machine

/-! ## The reset sequence -/

/-- The reset sequence at any memory (R222): two discarded reads at `PC`, three on the stack, the two of the vector. -/
theorem resetSequence_through (s : State) :
    SameAnswer (resetSequence s)
      (andThen (discardReads [s.pc, s.pc, 0x0100, 0x01FF, 0x01FE] s) fun t =>
        andThen (busRead 0xFFFC t) fun l =>
        andThen (busRead 0xFFFD l.2) fun h =>
        .next { h.2 with sp := 0xFD, p := { s.p with i := true, d := false }, pc := cat h.1 l.1 }) := by
  have key : ∀ c u : State,
      SameAnswer (resetSequence (State.putCpu c u))
        (andThen (discardReads [c.pc, c.pc, 0x0100, 0x01FF, 0x01FE] (State.putCpu c u)) fun t =>
          andThen (busRead 0xFFFC t) fun l =>
          andThen (busRead 0xFFFD l.2) fun h =>
          .next { h.2 with sp := 0xFD, p := { c.p with i := true, d := false }, pc := cat h.1 l.1 }) := by
    intro c u
    have hsp : stackAddr 0x00#8 = 0x0100 ∧ stackAddr (0x00#8 - 1) = 0x01FF ∧ stackAddr (0x00#8 - 1 - 1) = 0x01FE ∧
        0x00#8 - 1 - 1 - 1 = 0xFD := by decide
    have hvector : resetVector = 0xFFFC ∧ (0xFFFC + 1 : Addr) = 0xFFFD := by decide
    simp only [SameAnswer, resetSequence, resetStackCycle, discardStack, discardRead, discardReads_cons, discardReads_nil,
      State.setSp_putCpu, State.setSp_sp, State.setSp_pc, busRead_putCpu, State.putCpu_pc, State.putCpu_sp, State.setAdl,
      State.setAdh, State.setMicro_putCpu, State.setP_putCpu, State.setPc_putCpu, State.putCpu_micro, State.putCpu_p,
      State.setSp_p, State.setSp_micro, State.setMicro_micro, State.setP_micro, State.latchedAddr, andThen_assoc, andThen_next,
      hsp, hvector]
    simp [State.visible, State.putCpu, Flags.afterReset, Config.resetClearsD]
  exact key s s

/-- The reset sequence over storage (R290). -/
theorem resetSequence_noHandler {s : State}
    (h : ∀ a ∈ [s.pc, 0x0100#16, 0x01FF#16, 0x01FE#16, 0xFFFC#16, 0xFFFD#16], s.noHandler a) :
    ∃ t, resetSequence s = .next t ∧
      t.visible =
        State.visible
          { s with
            sp := 0xFD
            p := { s.p with i := true, d := false }
            pc := cat (s.mem.shows 0xFFFD) (s.mem.shows 0xFFFC)
            cycles := s.cycles + 7 } := by
  have hdiscards : discardReads [s.pc, s.pc, 0x0100, 0x01FF, 0x01FE] s = .next { s with cycles := s.cycles + 5 } :=
    discardReads_noHandler fun a ha => h a (by simp only [List.mem_cons] at ha ⊢; tauto)
  have hlow := busRead_noHandler (s := { s with cycles := s.cycles + 5 }) (a := 0xFFFC) (h 0xFFFC (by simp))
  have hhigh := busRead_noHandler (s := State.addCycle { s with cycles := s.cycles + 5 }) (a := 0xFFFD) (h 0xFFFD (by simp))
  have hrun := resetSequence_through s
  rw [hdiscards, andThen_next, hlow, andThen_next] at hrun
  rw [hhigh, andThen_next] at hrun
  exact hrun.next

/-- The step at a boundary with a reset pending, over storage (R190, R266). -/
theorem step_reset_noHandler {s : State} (hs : s.halted = none) (hc : s.micro.cycleIndex = 0) (hr : s.lines.resetPending = true)
    (h : ∀ a ∈ [s.pc, 0x0100#16, 0x01FF#16, 0x01FE#16, 0xFFFC#16, 0xFFFD#16], s.noHandler a) :
    StepsTo s
      { s with
        lines := { s.lines with resetPending := false }
        sp := 0xFD
        p := { s.p with i := true, d := false }
        pc := cat (s.mem.shows 0xFFFD) (s.mem.shows 0xFFFC)
        cycles := s.cycles + 7 } := by
  have hq : s.nextSeq = .reset := by rw [State.nextSeq, if_pos hr]
  have hb : s.beginSequence = (s.setSeq .reset).setLines { s.lines with resetPending := false } := by
    simp only [State.beginSequence, hq]
    rfl
  have hstep : step s = resetSequence ((s.setSeq .reset).setLines { s.lines with resetPending := false }) := by
    rw [step_boundary hs hc, hq, ← hb]
  rw [StepsTo, hstep]
  exact resetSequence_noHandler (s := (s.setSeq .reset).setLines { s.lines with resetPending := false }) h

/-! ## Construction -/

/-- With no bank installed no callback is anywhere (R51). -/
theorem noHandler_of_empty {s : State} (h : s.mem = { banks := [], active := [] }) (a : Addr) : s.noHandler a := by
  rw [State.noHandler, h]
  rfl

/-- Settles O40: both states hold their values by definition, and from the one to the other leads the reset sequence, which meets
the open bus alone. -/
theorem resetStateIsAsStated : Obligations.ResetStateIsAsStated := by
  refine ⟨fun init hz platform world => ?_, ?_⟩
  · have hwf : (State.constructed init hz platform world).wf = true :=
      State.wf_iff.2 ⟨rfl, rfl, State.microWf_of_boundary rfl⟩
    refine ⟨hwf, rfl, rfl, rfl, rfl, rfl, rfl, rfl, rfl, rfl, rfl, rfl, fun _ => rfl, rfl, rfl, rfl, rfl,
      rfl, rfl, rfl, rfl, rfl, ?_⟩
    exact step_reset_noHandler (s := resetCall (State.constructed init hz platform world)) rfl rfl rfl
      fun a _ => noHandler_of_empty rfl a
  · have hwf : State.reset.wf = true := State.wf_iff.2 ⟨rfl, rfl, State.microWf_of_boundary rfl⟩
    exact ⟨hwf, rfl, rfl, rfl, rfl, rfl, rfl, rfl, rfl, rfl, fun _ => rfl, rfl, rfl, rfl, rfl, rfl, rfl, rfl⟩

end Sys2Proof.Machine
end

section
/-! SUPPORT. What each instruction does to the registers and flags, said once (R10, R11, R193): its accesses, whatever answers
them, change none, so that the change is that of its operation alone. -/

namespace Sys2Proof.Machine

/-! ## Registers and flags -/

/-- The registers and flags, but for `PC`. -/
structure RegisterFile where
  a : Byte
  x : Byte
  y : Byte
  sp : Byte
  p : Flags

/-- The registers and flags of a state. -/
def State.file (s : State) : RegisterFile := { a := s.a, x := s.x, y := s.y, sp := s.sp, p := s.p }

/-- `SP` moved by `n`. -/
def RegisterFile.moveSp (n : Byte) (f : RegisterFile) : RegisterFile := { f with sp := f.sp + n }

theorem RegisterFile.moveSp_moveSp (m n : Byte) (f : RegisterFile) : (f.moveSp m).moveSp n = f.moveSp (m + n) := by
  simp only [moveSp, BitVec.add_assoc]

theorem file_setSp_sub (s : State) (n : Byte) : (s.setSp (s.sp - n)).file = s.file.moveSp (-n) := by
  simp only [RegisterFile.moveSp, State.file, State.setSp, BitVec.sub_eq_add_neg]

@[simp] theorem file_setPc (s : State) (v : Addr) : (s.setPc v).file = s.file := rfl

@[simp] theorem file_setMicro (s : State) (m : Micro) : (s.setMicro m).file = s.file := rfl

/-! ## Accesses change none -/

theorem file_of_putCpu {s t : State} (h : State.putCpu s t = t) : t.file = s.file := (congrArg State.file h).symm

theorem busRead_file {a : Addr} {s : State} {r : Byte × State} (h : busRead a s = .next r) : r.2.file = s.file :=
  file_of_putCpu (busRead_keeps h)

theorem busWrite_file {a : Addr} {v : Byte} {s t : State} (h : busWrite a v s = .next t) : t.file = s.file :=
  file_of_putCpu (busWrite_keeps h)

theorem discardRead_file {a : Addr} {s t : State} (h : discardRead a s = .next t) : t.file = s.file := by
  obtain ⟨r, hr, ht⟩ := andThen_eq_next.1 h
  cases ht
  exact busRead_file hr

/-- Where an answer shows the same as one that keeps the registers, it keeps them. -/
theorem file_of_shown {α : Type} {r r' : Res (α × State)} {s : State} (h : shown r = shown r')
    (hk : ∀ x, r' = .next x → State.putCpu s x.2 = x.2) {x : α × State} (hx : r = .next x) : x.2.file = s.file := by
  rw [hx] at h
  obtain ⟨y, hy, he⟩ := andThen_eq_next.1 h.symm
  have hv : y.2.visible = x.2.visible := congrArg Prod.snd (Host.Outcome.next.inj he)
  calc x.2.file = y.2.file := (congrArg State.file hv).symm
    _ = s.file := file_of_putCpu (hk y hy)

theorem readOperand_file {m : ReadMode} {s : State} {x : Byte × State} (h : readOperand m s = .next x) :
    x.2.file = s.file := file_of_shown (readOperand_through m s) (fun _ => readThrough_keeps) h

theorem writeAddress_file {m : WriteMode} {s : State} {x : Addr × State} (h : writeAddress m s = .next x) :
    x.2.file = s.file := file_of_shown (writeAddress_through m s) (fun _ => storeThrough_keeps) h

theorem rmwAddress_file {m : RmwMode} {s : State} {x : Addr × State} (h : rmwAddress m s = .next x) :
    x.2.file = s.file := by
  refine file_of_shown (rmwAddress_through m s) (fun y hy => ?_) h
  obtain ⟨u, hu, hy⟩ := andThen_eq_next.1 hy
  cases hy
  exact discardReads_keeps hu

/-! ## The stack moves `SP` -/

theorem push_file {v : Byte} {s t : State} (h : push v s = .next t) : t.file = s.file.moveSp (-1) := by
  obtain ⟨u, hu, ht⟩ := andThen_eq_next.1 h
  cases ht
  rw [file_setSp_sub, busWrite_file hu]

theorem pull_file {s : State} {r : Byte × State} (h : pull s = .next r) : r.2.file = s.file.moveSp 1 := busRead_file h

theorem takeException_file {brk : Bool} {s t : State} (h : takeException brk s = .next t) :
    t.file = { s.file with sp := s.sp - 3, p := { s.p with i := true } } := by
  have hr := takeException_through brk s
  rw [h] at hr
  obtain ⟨u, hu, hv⟩ := andThen_eq_next.1 hr.symm
  obtain ⟨t1, h1, hu⟩ := andThen_eq_next.1 hu
  obtain ⟨t2, h2, hu⟩ := andThen_eq_next.1 hu
  obtain ⟨t3, h3, hu⟩ := andThen_eq_next.1 hu
  obtain ⟨l, hl, hu⟩ := andThen_eq_next.1 hu
  obtain ⟨k, hk, hu⟩ := andThen_eq_next.1 hu
  cases hu
  have hfile : k.2.file = s.file :=
    calc k.2.file = l.2.file := busRead_file hk
      _ = t3.file := (busRead_file hl :)
      _ = t2.file := busWrite_file h3
      _ = t1.file := busWrite_file h2
      _ = s.file := busWrite_file h1
  calc t.file = _ := (congrArg State.file (Host.Outcome.next.inj hv)).symm
    _ = { k.2.file with sp := s.sp - 3, p := { s.p with i := true } } := rfl
    _ = { s.file with sp := s.sp - 3, p := { s.p with i := true } } := by rw [hfile]

/-! ## The change of an operation -/

/-- What an operation does to the registers and flags with the byte `v` that it read, if it reads one (R193). -/
def opEffect (op : Op) (v : Byte) (s : State) : State :=
  match op with
  | .read o _ => readEffect o v s
  | .rmw o _ => s.setP (rmwOperation o v s.p).2
  | .acc o => accEffect o s
  | .implied o => impliedEffect o s
  | .push _ => s.setSp (s.sp - 1)
  | .pull o => pullEffect o v (s.setSp (s.sp + 1))
  | .jsr => s.setSp (s.sp - 2)
  | .rts => s.setSp (s.sp + 2)
  | .rti => (s.setSp (s.sp + 3)).setP (Flags.ofByte v)
  | .brk => (s.setSp (s.sp - 3)).setP { s.p with i := true }
  | .write _ _ | .branch _ | .jmpAbs | .jmpInd => s

/-- A state with the registers and flags of a file. -/
def State.withFile (s : State) (f : RegisterFile) : State := { s with a := f.a, x := f.x, y := f.y, sp := f.sp, p := f.p }

/-- The change looks at the registers and flags alone. -/
theorem opEffect_file (op : Op) (v : Byte) {s t : State} (h : t.file = s.file) :
    (opEffect op v t).file = (opEffect op v s).file := by
  have ht : t = t.withFile s.file := by rw [← h]; rfl
  rw [ht]
  cases op with
  | read o k => cases o <;> rfl
  | implied o => cases o <;> rfl
  | pull o => cases o <;> rfl
  | _ => rfl

theorem implied_file {f : State → State} {s t : State} (h : implied f s = .next t) :
    ∃ u, u.file = s.file ∧ t = f u := by
  obtain ⟨u, hu, ht⟩ := andThen_eq_next.1 h
  cases ht
  exact ⟨u, discardRead_file hu, rfl⟩

theorem takeBranch_file {s t : State} (h : takeBranch s = .next t) : t.file = s.file := by
  obtain ⟨u, hu, h⟩ := andThen_eq_next.1 h
  have fixed : ∀ w : State, (if w.micro.pageCross then
      andThen (discardRead w.pc w) fun w => .next (w.setPc (cat w.micro.adh (lo w.pc))) else .next w) = .next t →
      t.file = w.file := by
    intro w hw
    split at hw
    · obtain ⟨x, hx, hw⟩ := andThen_eq_next.1 hw
      cases hw
      rw [file_setPc, discardRead_file hx]
    · cases hw
      rfl
  rw [fixed _ h, ← discardRead_file hu]
  simp only [State.setAdh, State.setPageCross, file_setPc, file_setMicro]

theorem branch_file {taken : Bool} {rel : Byte} {s t : State} (h : branch taken rel s = .next t) : t.file = s.file := by
  simp only [branch] at h
  split at h
  · exact (takeBranch_file h :)
  · cases h
    rfl

theorem rewriteAt_file {f : Byte → Flags → Byte × Flags} {a : Addr} {s t : State} (h : rewriteAt f a s = .next t) :
    ∃ v, t.file = { s.file with p := (f v s.p).2 } := by
  obtain ⟨r, hr, h⟩ := andThen_eq_next.1 h
  obtain ⟨u, hu, h⟩ := andThen_eq_next.1 h
  obtain ⟨x, hx, hr⟩ := andThen_eq_next.1 hr
  cases hr
  have hf : u.file = s.file := (busWrite_file hu :).trans (busRead_file hx :)
  refine ⟨x.1, ?_⟩
  rw [← hf, show s.p = u.p from congrArg RegisterFile.p hf.symm]
  exact busWrite_file h

theorem execJsr_file {w : Addr} {s t : State} (h : execJsr w s = .next t) : t.file = s.file.moveSp (-2) := by
  obtain ⟨u1, h1, h⟩ := andThen_eq_next.1 h
  obtain ⟨u2, h2, h⟩ := andThen_eq_next.1 h
  obtain ⟨u3, h3, h⟩ := andThen_eq_next.1 h
  obtain ⟨r, hr, h⟩ := andThen_eq_next.1 h
  cases h
  change r.2.file = _
  calc r.2.file = u3.file := busRead_file hr
    _ = (u1.file.moveSp (-1)).moveSp (-1) := by rw [push_file h3, push_file h2]
    _ = u1.file.moveSp (-2) := RegisterFile.moveSp_moveSp _ _ _
    _ = s.file.moveSp (-2) := congrArg _ (discardRead_file h1 :)

theorem execRts_file {s t : State} (h : execRts s = .next t) : t.file = s.file.moveSp 2 := by
  obtain ⟨u1, h1, h⟩ := andThen_eq_next.1 h
  obtain ⟨u2, h2, h⟩ := andThen_eq_next.1 h
  obtain ⟨l, hl, h⟩ := andThen_eq_next.1 h
  obtain ⟨k, hk, h⟩ := andThen_eq_next.1 h
  obtain ⟨u3, h3, h⟩ := andThen_eq_next.1 h
  cases h
  have hlow : l.2.file = u2.file.moveSp 1 := pull_file hl
  have hhigh : k.2.file = l.2.file.moveSp 1 := (pull_file hk :)
  change u3.file = _
  calc u3.file = k.2.file := (discardRead_file h3 :)
    _ = (u2.file.moveSp 1).moveSp 1 := by rw [hhigh, hlow]
    _ = u2.file.moveSp 2 := RegisterFile.moveSp_moveSp _ _ _
    _ = s.file.moveSp 2 := congrArg _ ((discardRead_file h2).trans (discardRead_file h1))

theorem execRti_file {s t : State} (h : execRti s = .next t) :
    ∃ v, t.file = { s.file.moveSp 3 with p := Flags.ofByte v } := by
  obtain ⟨u1, h1, h⟩ := andThen_eq_next.1 h
  obtain ⟨u2, h2, h⟩ := andThen_eq_next.1 h
  obtain ⟨st, hst, h⟩ := andThen_eq_next.1 h
  obtain ⟨l, hl, h⟩ := andThen_eq_next.1 h
  obtain ⟨k, hk, h⟩ := andThen_eq_next.1 h
  cases h
  have hstatus : st.2.file = u2.file.moveSp 1 := pull_file hst
  have hlow : l.2.file = st.2.file.moveSp 1 := (pull_file hl :)
  have hhigh : k.2.file = l.2.file.moveSp 1 := (pull_file hk :)
  have hfile : k.2.file = s.file.moveSp 3 := by
    rw [hhigh, hlow, hstatus, RegisterFile.moveSp_moveSp, RegisterFile.moveSp_moveSp, discardRead_file h2, discardRead_file h1]
    rfl
  exact ⟨k.2.micro.operand, congrArg (fun f => { f with p := Flags.ofByte k.2.micro.operand }) hfile⟩

theorem execJmp_file {m : JumpMode} {s t : State} (h : execJmp m s = .next t) : t.file = s.file := by
  cases m with
  | abs a =>
    cases h
    rfl
  | ind p =>
    obtain ⟨l, hl, h⟩ := andThen_eq_next.1 h
    obtain ⟨k, hk, h⟩ := andThen_eq_next.1 h
    cases h
    exact (busRead_file hk :).trans (busRead_file hl :)

/-- An instruction changes the registers and flags as its operation says, whatever its accesses meet. -/
theorem exec_file (op : Op) (b1 b2 : Byte) {s t : State} (h : exec (op.instr b1 b2) s = .next t) :
    ∃ v, t.file = (opEffect op v s).file := by
  cases op with
  | read o k =>
    rw [Op.instr, exec_readOp] at h
    obtain ⟨r, hr, ht⟩ := andThen_eq_next.1 h
    cases ht
    exact ⟨r.1, opEffect_file (.read o k) r.1 (readOperand_file hr)⟩
  | write o k =>
    rw [Op.instr, exec_store] at h
    obtain ⟨r, hr, ht⟩ := andThen_eq_next.1 h
    exact ⟨0, (busWrite_file ht).trans (writeAddress_file hr)⟩
  | rmw o k =>
    rw [Op.instr, exec_rmwOp, modifyMemory_eq] at h
    obtain ⟨r, hr, ht⟩ := andThen_eq_next.1 h
    obtain ⟨v, hv⟩ := rewriteAt_file ht
    exact ⟨v, hv.trans (opEffect_file (.rmw o k) v (rmwAddress_file hr))⟩
  | acc o =>
    rw [Op.instr, exec_acc] at h
    obtain ⟨u, hu, rfl⟩ := implied_file h
    exact ⟨0, opEffect_file (.acc o) 0 hu⟩
  | implied o =>
    rw [Op.instr, exec_implied] at h
    obtain ⟨u, hu, rfl⟩ := implied_file h
    exact ⟨0, opEffect_file (.implied o) 0 hu⟩
  | branch o =>
    rw [Op.instr, exec_branch] at h
    exact ⟨0, branch_file h⟩
  | push o =>
    rw [show (Op.push o).instr b1 b2 = (Op.push o).instr 0 0 by cases o <;> rfl, exec_push] at h
    obtain ⟨u, hu, ht⟩ := andThen_eq_next.1 h
    exact ⟨0, by rw [push_file ht, discardRead_file hu]; exact (file_setSp_sub s 1).symm⟩
  | pull o =>
    rw [show (Op.pull o).instr b1 b2 = (Op.pull o).instr 0 0 by cases o <;> rfl, exec_pull, pullOperand_eq, andThen_assoc] at h
    obtain ⟨r, hr, ht⟩ := andThen_eq_next.1 h
    cases ht
    rw [← pulledFrom_keeps hr]
    exact ⟨r.1, by cases o <;> rfl⟩
  | jmpAbs => exact ⟨0, execJmp_file (m := .abs (cat b2 b1)) h⟩
  | jmpInd => exact ⟨0, execJmp_file (m := .ind (cat b2 b1)) h⟩
  | jsr => exact ⟨0, (execJsr_file h).trans (file_setSp_sub s 2).symm⟩
  | rts => exact ⟨0, execRts_file h⟩
  | rti => exact execRti_file h
  | brk =>
    obtain ⟨u, hu, ht⟩ := andThen_eq_next.1 h
    have hf : u.file = s.file := discardRead_file hu
    have hsp : u.sp = s.sp := congrArg RegisterFile.sp hf
    have hp : u.p = s.p := congrArg RegisterFile.p hf
    refine ⟨0, (takeException_file ht).trans ?_⟩
    simp only [State.setPc_sp, State.setPc_p, hsp, hp]
    exact congrArg (fun f => { f with sp := s.sp - 3, p := { s.p with i := true } }) hf

end Sys2Proof.Machine
end

section
/-! Which instructions write which flag and register (R10, R11, R128, R172, R174, R176, R193). -/

namespace Sys2Proof.Machine

/-! ## Every instruction is its operation with operand bytes -/

theorem readMode_of_bytes (m : ReadMode) : ∃ b1 b2, m.kind.mode b1 b2 = m := by
  cases m with
  | abs a | abx a | aby a => exact ⟨lo a, hi a, by simp only [ReadMode.kind, ReadKind.mode, cat_hi_lo]⟩
  | imm b | zp b | zpx b | zpy b | izx b | izy b => exact ⟨b, 0, rfl⟩

theorem writeMode_of_bytes (m : WriteMode) : ∃ b1 b2, m.kind.mode b1 b2 = m := by
  cases m with
  | abs a | abx a | aby a => exact ⟨lo a, hi a, by simp only [WriteMode.kind, WriteKind.mode, cat_hi_lo]⟩
  | zp b | zpx b | zpy b | izx b | izy b => exact ⟨b, 0, rfl⟩

theorem rmwMode_of_bytes (m : RmwMode) : ∃ b1 b2, m.kind.mode b1 b2 = m := by
  cases m with
  | abs a | abx a => exact ⟨lo a, hi a, by simp only [RmwMode.kind, RmwKind.mode, cat_hi_lo]⟩
  | zp b | zpx b => exact ⟨b, 0, rfl⟩

theorem shift_of_bytes (o : ShiftOp) (m : ShiftMode) : ∃ b1 b2, (m.op o).instr b1 b2 = o.instr m := by
  cases m with
  | acc => exact ⟨0, 0, rfl⟩
  | mem m =>
    obtain ⟨b1, b2, h⟩ := rmwMode_of_bytes m
    exact ⟨b1, b2, by rw [ShiftMode.op, Op.instr, h]; rfl⟩

/-- An instruction of the opcode map, well formed or not, is its operation with some operand bytes (R71, R86). -/
theorem instr_of_op {i : Instr} {op : Op} (h : i.op = some op) : ∃ b1 b2, op.instr b1 b2 = i := by
  cases i with
  | lda m | ldx m | ldy m | adc m | sbc m | cmp m | cpx m | cpy m | and m | ora m | eor m | bit m =>
    cases h
    obtain ⟨b1, b2, hm⟩ := readMode_of_bytes m
    exact ⟨b1, b2, by rw [Op.instr, hm]; rfl⟩
  | sta m | stx m | sty m =>
    cases h
    obtain ⟨b1, b2, hm⟩ := writeMode_of_bytes m
    exact ⟨b1, b2, by rw [Op.instr, hm]; rfl⟩
  | asl m | lsr m | rol m | ror m =>
    cases h
    exact shift_of_bytes _ m
  | inc m | dec m =>
    cases h
    obtain ⟨b1, b2, hm⟩ := rmwMode_of_bytes m
    exact ⟨b1, b2, by rw [Op.instr, hm]; rfl⟩
  | jmp m =>
    cases m with
    | abs a | ind a =>
      cases h
      exact ⟨lo a, hi a, by rw [Op.instr, cat_hi_lo]⟩
  | jsr a =>
    cases h
    exact ⟨lo a, hi a, by rw [Op.instr, cat_hi_lo]⟩
  | bcc r | bcs r | beq r | bne r | bmi r | bpl r | bvc r | bvs r =>
    cases h
    exact ⟨r, 0, rfl⟩
  | ill b => cases h
  | _ =>
    cases h
    exact ⟨0, 0, rfl⟩

/-- What an instruction does to the registers and flags: an illegal opcode nothing, any other what its operation does. -/
def instrEffect (i : Instr) (v : Byte) (s : State) : State :=
  match i.op with
  | some op => opEffect op v s
  | none => s

theorem execIll_file {b : Byte} {s t : State} (h : execIll b s = .next t) : t.file = s.file := by
  unfold execIll at h
  split at h
  · obtain ⟨u, hu, rfl⟩ := implied_file h
    exact hu
  · cases h
    rfl

theorem exec_instrEffect {i : Instr} {s t : State} (h : exec i s = .next t) : ∃ v, t.file = (instrEffect i v s).file := by
  unfold instrEffect
  cases hop : i.op with
  | some op =>
    obtain ⟨b1, b2, rfl⟩ := instr_of_op hop
    exact exec_file op b1 b2 h
  | none =>
    cases i with
    | ill b => exact ⟨0, execIll_file h⟩
    | asl m | lsr m | rol m | ror m | jmp m => cases m <;> cases hop
    | _ => cases hop

/-- Settles O55: for each instruction, what its operation does is read off. -/
theorem onlyTheListedInstructionsWrite : Obligations.OnlyTheListedInstructionsWrite := by
  intro i s t h
  obtain ⟨v, hfile⟩ := exec_instrEffect h
  obtain ⟨ha, hx, hy, hsp, hp⟩ := RegisterFile.mk.inj hfile
  rw [ha, hx, hy, hsp, hp]
  clear h hfile ha hx hy hsp hp
  cases i with
  | asl m | lsr m | rol m | ror m | jmp m => cases m <;> and_intros <;> trivial
  | _ => and_intros <;> trivial

end Sys2Proof.Machine
end

section
/-! The bus: what a read and a write do at each kind of bank, what a callback's calls do, and what no access touches (R46, R47,
R50 to R54, R232, R234, R235). -/

namespace Sys2Proof.Machine

/-! ## Accesses by the kind of the active bank (R46, R47, R51, R53) -/

theorem noHandler_of_bankAt {s : State} {a : Addr} (h : ∀ b, s.mem.bankAt a = some b → b.kind ≠ .handler) :
    s.noHandler a := by
  rw [State.noHandler, peek_isSome]
  cases hb : s.mem.bankAt a with
  | none => simp
  | some b => simpa using h b hb

/-- What memory shows at storage is its byte at the offset. -/
theorem Memory.peek_storage {m : Memory} {a : Addr} {b : Bank} (hb : m.bankAt a = some b) (hk : b.kind ≠ .handler) :
    m.peek a = some (b.byteAt a) := by
  cases hkind : b.kind with
  | ram | rom => simp only [Memory.peek, hb, hkind]
  | handler => exact absurd hkind hk

theorem shownByte_storage {s : State} {a : Addr} {b : Bank} (hb : s.mem.bankAt a = some b) (hk : b.kind ≠ .handler) :
    shownByte s a = b.byteAt a := by
  rw [shownByte, Memory.peek_storage hb hk, Option.getD_some]

theorem shownByte_unmapped {s : State} {a : Addr} (hb : s.mem.bankAt a = none) : shownByte s a = Config.openBusValue := by
  rw [shownByte, Memory.peek, hb]
  rfl

section
variable {s : State} {a : Addr} {b : Bank} (hb : s.mem.bankAt a = some b) (hk : b.kind = .handler)
include hb hk

theorem busRead_fault {k : BusErrorKind} (h : Config.onRead s.world b.id a = .fault k) :
    busRead a s = .fault (.busError k) := by
  simp only [busRead, hb, hk, h]

theorem busRead_value {v : Byte} {calls : List HandlerCall} {w : World}
    (h : Config.onRead s.world b.id a = .value v calls w) :
    busRead a s = andThen (runAll handlerCall calls (s.addCycle.setWorld w)) fun t => .next (v, t) := by
  simp only [busRead, hb, hk, h]

theorem busWrite_fault {v : Byte} {k : BusErrorKind} (h : Config.onWrite s.world b.id a v = .fault k) :
    busWrite a v s = .fault (.busError k) := by
  simp only [busWrite, hb, hk, h]

theorem busWrite_ok {v : Byte} {calls : List HandlerCall} {w : World}
    (h : Config.onWrite s.world b.id a v = .ok calls w) :
    busWrite a v s = runAll handlerCall calls (s.addCycle.setWorld w) := by
  simp only [busWrite, hb, hk, h]

end

/-- A write where no handler is and no RAM either counts its cycle alone (R47, R51). -/
theorem busWrite_ignored {s : State} {a : Addr} (hn : s.noHandler a) (hr : ¬s.mem.isRam a) (v : Byte) :
    busWrite a v s = .next s.addCycle := by
  rw [busWrite_noHandler hn, poke_of_not_isRam hr]
  rfl

theorem isRam_noHandler {s : State} {a : Addr} (h : s.mem.isRam a) : s.noHandler a := by
  rw [State.noHandler, peek_isSome, h]
  simp

/-- Settles O41: the three kinds of answer of a bus read. -/
theorem busReadDispatches : Obligations.BusReadDispatches := by
  refine fun a s => ⟨fun hb => ?_, fun b hb hk => ?_, fun b hb hk => ?_⟩
  · rw [busRead_noHandler (noHandler_of_bankAt (by simp [hb])), shownByte_unmapped hb]
    rfl
  · rw [busRead_noHandler (noHandler_of_bankAt (by simpa [hb] using hk)), shownByte_storage hb hk]
    rfl
  · split
    · next hf => exact busRead_fault hb hk hf
    · next hv => exact busRead_value hb hk hv

/-! ## The calls of a callback (R49, R50, R232, R234, R235) -/

/-- A `switch` outside its preconditions is rejected (R49, D13). -/
theorem Memory.switch_eq_none {m : Memory} {lo hi : Addr} {id : BankId}
    (h : ∀ b, m.bank id = some b → ¬(lo.toNat ≤ hi.toNat ∧ b.lo.toNat ≤ lo.toNat ∧ hi.toNat ≤ b.hi.toNat)) :
    m.switch lo hi id = none := by
  unfold Memory.switch
  split
  · rfl
  · next b hb => exact if_neg (by simpa [and_assoc] using h b hb)

section
variable {onRise : State → Res State} {src : EndpointId} {v : Signal} {s : State} {w : Wire}

/-- A write through an endpoint that is no wire's source changes nothing (R234). -/
theorem writeWire_notASource (hw : s.fabric.wireOfSource src = none) : writeWire onRise src v s = .next s := by
  rw [writeWire, Fabric.depth, writeWireWith, hw]

/-- A write of a wire from inside its own delivery is refused (U6). -/
theorem writeWire_delivering (hw : s.fabric.wireOfSource src = some w) (hd : w.id ∈ s.fabric.delivering) :
    writeWire onRise src v s = .refused .wireReentry := by
  simp only [writeWire, Fabric.depth, writeWireWith, hw, List.contains_eq_mem, hd, decide_true, if_true]

/-- A write of a value of another width is refused (D26). -/
theorem writeWire_illTyped (hw : s.fabric.wireOfSource src = some w) (hd : w.id ∉ s.fabric.delivering)
    (hv : isWide v ≠ isWide w.value) : writeWire onRise src v s = .refused .illTypedWrite := by
  simp only [writeWire, Fabric.depth, writeWireWith, hw, List.contains_eq_mem, hd, decide_false, Bool.false_eq_true,
    if_false, bne_iff_ne, ne_eq, hv, not_false_eq_true, if_true]

end

/-- Settles O42: the kinds of bank first, then each call of a callback. -/
theorem busWriteDispatches : Obligations.BusWriteDispatches := by
  refine fun a v s => ⟨fun hb => ?unmapped, fun b hb hk => ?rom, fun b hb hk => ?ram, fun b hb hk => ?handler,
    fun lo hi id b hm hb h1 h2 h3 => ?switch, fun lo hi id h => ?rejected, rfl, rfl, fun src u hw => writeWire_notASource hw,
    fun src u w hw => ⟨writeWire_delivering hw, writeWire_illTyped hw, handlerCall_write hw⟩⟩
  case unmapped => exact busWrite_ignored (noHandler_of_bankAt (by simp [hb])) (by simp [Memory.isRam, hb]) v
  case rom => exact busWrite_ignored (noHandler_of_bankAt (by simp [hb, hk])) (by simp [Memory.isRam, hb, hk]) v
  case ram =>
    exact ⟨busWrite_noHandler (noHandler_of_bankAt (by simp [hb, hk])) v,
      fun hm => ⟨Memory.peek_poke_same hm hb hk v, sameBut_poke hm a v⟩⟩
  case handler =>
    split
    · next hf => exact busWrite_fault hb hk hf
    · next ho => exact busWrite_ok hb hk ho
  case switch =>
    obtain ⟨m, hs, hbanks, hat⟩ := Memory.bankAt_switch hm hb h1 h2 h3
    exact ⟨m, by rw [handlerCall, hs]; rfl, hbanks, hat⟩
  case rejected => rw [handlerCall, Memory.switch_eq_none h]

/-! ## What no access touches, and what the next access answers -/

/-- What one access leaves alone, and that it counts one cycle (R52, R192). -/
theorem Bystander.accessed {s t : State} (h : Bystander s.addCycle t) :
    t.a = s.a ∧ t.x = s.x ∧ t.y = s.y ∧ t.sp = s.sp ∧ t.pc = s.pc ∧ t.p = s.p ∧ t.micro = s.micro ∧ t.halted = s.halted ∧
      t.platform = s.platform ∧ t.cycles = s.cycles + 1 :=
  ⟨h.a, h.x, h.y, h.sp, h.pc, h.p, h.micro, h.halted, h.platform, h.cycles⟩

/-- Settles O43: an access is a store, which has no callback, or a callback at most. -/
theorem accessesTouchNoRegister : Obligations.AccessesTouchNoRegister := by
  intro a v s t h
  have banks (hr : busRead a s = .next (v, t)) : t.mem.banks = s.mem.banks := (busRead_bystander hr).banks
  obtain hr | hw := h
  · simpa only [and_assoc] using And.intro (busRead_bystander hr).accessed banks
  · obtain rfl | hb := busWrite_bystander hw
    · exact ⟨rfl, rfl, rfl, rfl, rfl, rfl, rfl, rfl, rfl, rfl, banks⟩
    · simpa only [and_assoc] using And.intro hb.accessed banks

/-- Settles O44: the write is a store, and the read shows the store. -/
theorem readAfterWrite : Obligations.ReadAfterWrite := by
  intro a b v s t hm ha h hb
  rw [busWrite_noHandler (isRam_noHandler ha)] at h
  cases h
  rw [busRead_noHandler ((noHandler_setMem_poke _ s a b v).2 hb)]
  congr 2
  change ((s.mem.poke a v).peek b).getD Config.openBusValue = _
  split
  · next hba => rw [hba, peek_poke_ram hm ha, Option.getD_some]
  · next hba => rw [Memory.peek_poke_other hm hba, shownByte]

end Sys2Proof.Machine
end

section
/-! The Memory's calls from outside: `install_bank`, `switch` and the load of an image (R48, R49, R60), and what no step changes
of the banks (R61). -/

namespace Sys2Proof.Machine

/-! ## `install_bank` (R48) and `switch` (R49) -/

theorem Bank.lo_le_hi {b : Bank} (h : b.wf = true) : b.lo.toNat ≤ b.hi.toNat := by
  simp only [Bank.wf, Bool.and_eq_true, decide_eq_true_eq] at h
  exact h.1

theorem Memory.install_eq {m : Memory} {b : Bank} (hb : b.wf = true) (hid : ∀ c ∈ m.banks, c.id ≠ b.id) :
    m.install b = some { banks := m.banks ++ [b], active := assignActive b.lo.toNat b.hi.toNat b.id m.active } := by
  rw [Memory.install, if_pos (by simpa [hb] using hid)]

theorem Memory.install_eq_none {m : Memory} {b : Bank} (h : b.wf = false ∨ ∃ c ∈ m.banks, c.id = b.id) :
    m.install b = none := by
  rw [Memory.install, if_neg]
  obtain hb | ⟨c, hc, hid⟩ := h
  · simp [hb]
  · simpa using fun _ => ⟨c, hc, hid⟩

/-- Settles O45: the new map is the old one with the bank's range assigned, both read over the longer list of banks. -/
theorem installBankActivatesItsRange : Obligations.InstallBankActivatesItsRange := by
  refine fun b s hm => ⟨fun hb hid => ?_, fun h => by rw [installBank, Memory.install_eq_none h]⟩
  have hi := Memory.install_eq hb hid
  refine ⟨_, by rw [installBank, hi], rfl, fun a => ?_⟩
  have hn := ((Memory.wf_iff _).1 (Memory.install_wf hm hi)).2.1
  have hr : Rising (s.mem.banks ++ [b]) 0 s.mem.active := by
    refine activeWf_rising (activeWf_congr (fun c hc => ?_) ((Memory.wf_iff _).1 hm).2.2)
    exact ⟨c, List.mem_append_left _ hc, rfl, rfl, rfl⟩
  exact idAt_assignActive hn hr (List.mem_append_right _ (List.mem_singleton_self b)) (Bank.lo_le_hi hb) le_rfl le_rfl a.toNat

theorem Memory.switch_eq {m : Memory} {lo hi : Addr} {id : BankId} {b : Bank} (hb : m.bank id = some b)
    (h1 : lo.toNat ≤ hi.toNat) (h2 : b.lo.toNat ≤ lo.toNat) (h3 : hi.toNat ≤ b.hi.toNat) :
    m.switch lo hi id = some { m with active := assignActive lo.toNat hi.toNat id m.active } := by
  simp only [Memory.switch, hb, h1, h2, h3, decide_true, Bool.and_self, if_true]

/-- Settles O46: the banks are those before, so the map with the range assigned is read over the same list. -/
theorem switchActivatesTheRange : Obligations.SwitchActivatesTheRange := by
  refine fun lo hi id s hm => ⟨fun b hb h1 h2 h3 => ?_, fun h => by rw [switchBank, Memory.switch_eq_none h]⟩
  refine ⟨{ s.mem with active := assignActive lo.toNat hi.toNat id s.mem.active },
    by rw [switchBank, Memory.switch_eq hb h1 h2 h3], rfl, fun a => ?_⟩
  obtain ⟨-, hn, hact⟩ := (Memory.wf_iff _).1 hm
  obtain ⟨hmem, rfl⟩ := Memory.bank_mem hb
  exact idAt_assignActive hn (activeWf_rising hact) hmem h1 h2 h3 a.toNat

/-! ## A byte of storage set from outside (R60) -/

/-- A RAM or ROM bank is active at the address. -/
def Memory.hasStorage (m : Memory) (a : Addr) : Prop := ∃ b, m.bankAt a = some b ∧ b.kind ≠ .handler

theorem Memory.loadByte_storage {m : Memory} {a : Addr} {b : Bank} (hb : m.bankAt a = some b) (hk : b.kind ≠ .handler)
    (v : Byte) : m.loadByte a v = some (m.setBank (b.put a v)) := by
  cases hkind : b.kind with
  | ram | rom => simp only [Memory.loadByte, hb, hkind]
  | handler => exact absurd hkind hk

/-- The bank at an address after one bank has been replaced. -/
theorem Memory.bankAt_setBank (m : Memory) (b : Bank) (a : Addr) :
    (m.setBank b).bankAt a = (m.bankAt a).map fun c => if c.id = b.id then b else c := by
  have same (c : Bank) : (if c.id = b.id then b else c).id = c.id := by
    split
    · next h => exact h.symm
    · rfl
  have hbank : (m.setBank b).bank = fun id => (m.bank id).map fun c => if c.id = b.id then b else c := by
    funext id
    simp only [Memory.bank, Memory.setBank, List.find?_map, Function.comp_def, same]
  rw [Memory.bankAt, Memory.bankAt, Memory.resolve_setBank, hbank, Option.map_bind]
  rfl

/-- Storage reads back what was written at the offset, and every other offset as before. -/
theorem Bank.byteAt_put {b : Bank} (hb : b.wf = true) (hk : b.kind ≠ .handler) (a : Addr) (v : Byte) (x : Addr) :
    (b.put a v).byteAt x = if x.toNat - b.lo.toNat = a.toNat - b.lo.toNat then v else b.byteAt x :=
  cellsGet_put (Bank.wf_storage hb hk)

/-- Content set at an address is what memory shows there, in ROM too, and every other address shows what it did. -/
theorem Memory.peek_setBank_put {m : Memory} (hm : m.wf = true) {a : Addr} {b : Bank} (hb : m.bankAt a = some b)
    (hk : b.kind ≠ .handler) (v : Byte) (x : Addr) :
    (m.setBank (b.put a v)).peek x = if x = a then some v else m.peek x := by
  obtain ⟨hw, hn, -⟩ := (Memory.wf_iff m).1 hm
  obtain ⟨hmem, hlo, -⟩ := Memory.bankAt_covers hm hb
  have hat := Memory.bankAt_setBank m (b.put a v) x
  by_cases hc : m.bankAt x = some b
  · obtain ⟨-, hxlo, -⟩ := Memory.bankAt_covers hm hc
    have hoff : x.toNat - b.lo.toNat = a.toNat - b.lo.toNat ↔ x = a := by
      rw [← BitVec.toNat_inj]
      omega
    rw [hc, Option.map_some, if_pos (show b.id = (b.put a v).id from rfl)] at hat
    rw [Memory.peek_storage hat hk, Memory.peek_storage hc hk, Bank.byteAt_put (hw b hmem) hk]
    simp only [hoff, apply_ite some]
  · have hsame : (m.setBank (b.put a v)).bankAt x = m.bankAt x := by
      cases hx : m.bankAt x with
      | none => rw [hat, hx, Option.map_none]
      | some c =>
        have hid : c.id ≠ b.id := fun h => hc (banks_same_id hn (Memory.bankAt_covers hm hx).1 hmem h ▸ hx)
        rw [hat, hx, Option.map_some, if_neg (show c.id ≠ (b.put a v).id from hid)]
    have hne : x ≠ a := fun h => hc (h ▸ hb)
    rw [if_neg hne, Memory.peek, Memory.peek, hsame]

/-- Setting a byte takes no storage away. -/
theorem Memory.hasStorage_setBank_put {m : Memory} {a : Addr} {b : Bank} (hk : b.kind ≠ .handler) (v : Byte) {x : Addr}
    (hx : m.hasStorage x) : (m.setBank (b.put a v)).hasStorage x := by
  obtain ⟨c, hc, hck⟩ := hx
  refine ⟨_, by rw [Memory.bankAt_setBank, hc, Option.map_some], ?_⟩
  split
  · exact hk
  · exact hck

/-! ## The load of an image (R60) -/

/-- Once the bytes of an image are set, memory shows them from its origin on; every other address shows what it did. -/
theorem Memory.loadBytes_storage {m : Memory} (hm : m.wf = true) {origin : Addr} {bytes : List Byte}
    (hlen : bytes.length ≤ 65536) (hst : ∀ i < bytes.length, m.hasStorage (origin + BitVec.ofNat 16 i)) :
    ∃ m', m.loadBytes origin bytes = some m' ∧ ∀ x : Addr, m'.peek x = bytes[(x - origin).toNat]?.or (m.peek x) := by
  induction bytes generalizing m origin with
  | nil => exact ⟨m, rfl, fun x => rfl⟩
  | cons v vs ih =>
    rw [List.length_cons] at hlen
    obtain ⟨b, hb, hk⟩ : m.hasStorage origin := by simpa using hst 0 (by simp)
    have hl := Memory.loadByte_storage hb hk v
    have hvs : ∀ i < vs.length, (m.setBank (b.put origin v)).hasStorage (origin + 1 + BitVec.ofNat 16 i) := by
      intro i hi
      have hnext : origin + 1 + BitVec.ofNat 16 i = origin + BitVec.ofNat 16 (i + 1) := by bv_omega
      rw [hnext]
      exact Memory.hasStorage_setBank_put hk v (hst (i + 1) (Nat.succ_lt_succ hi))
    obtain ⟨m', hm', hpeek⟩ := ih (Memory.loadByte_wf hm hl) (Nat.le_of_succ_le hlen) hvs
    refine ⟨m', by rw [Memory.loadBytes, hl, Option.bind_some, hm'], fun x => ?_⟩
    rw [hpeek, Memory.peek_setBank_put hm hb hk]
    by_cases hx : x = origin
    · have hlast : (x - (origin + 1)).toNat = 65535 := by bv_omega
      rw [hlast, List.getElem?_eq_none (by omega), if_pos hx, hx, BitVec.sub_self]
      rfl
    · have hsucc : (x - origin).toNat = (x - (origin + 1)).toNat + 1 := by bv_omega
      rw [if_neg hx, hsucc, List.getElem?_cons_succ]

/-- Settles O47: byte `i` is what memory shows `i` above the origin, and an address outside the image is not that near above. -/
theorem imageLoadSetsItsBytes : Obligations.ImageLoadSetsItsBytes := by
  refine fun origin bytes s hm => ⟨fun h => by rw [loadImage, if_pos h], fun hlen hst => ?_⟩
  obtain ⟨m, hload, hpeek⟩ := Memory.loadBytes_storage hm (by omega) hst
  refine ⟨m, by rw [loadImage, if_neg (by omega), hload], fun i hi => ?_, fun a ha => ?_⟩
  · have hoff : (origin + BitVec.ofNat 16 i - origin).toNat = i := by bv_omega
    rw [hpeek, hoff, List.getElem?_eq_getElem hi, Option.some_or]
  · have hoff : bytes.length ≤ (a - origin).toNat := by bv_omega
    rw [hpeek, List.getElem?_eq_none hoff, Option.none_or]

/-! ## What no step changes of the banks (R47, R48, R61) -/

/-- The ROM banks of `n` stand in `m` byte for byte, and the banks of the two are the same but for the storage of RAM. -/
def SameBanks (m n : Memory) : Prop :=
  (∀ b ∈ n.banks, b.kind = .rom → b ∈ m.banks) ∧
    n.banks.map (fun b => (b.id, b.kind, b.lo, b.hi, b.length)) = m.banks.map (fun b => (b.id, b.kind, b.lo, b.hi, b.length))

theorem SameBanks.of_eq {m n : Memory} (h : n.banks = m.banks) : SameBanks m n :=
  ⟨fun b hb _ => h ▸ hb, by rw [h]⟩

theorem SameBanks.trans {m n o : Memory} (h : SameBanks m n) (k : SameBanks n o) : SameBanks m o :=
  ⟨fun b hb hr => h.1 b (k.1 b hb hr) hr, k.2.trans h.2⟩

/-- A write changes a RAM bank's storage at most (R47). -/
theorem Memory.poke_sameBanks {m : Memory} (hm : m.wf = true) (a : Addr) (v : Byte) : SameBanks m (m.poke a v) := by
  by_cases hram : m.isRam a
  · obtain ⟨b, hb, hk⟩ := Option.map_eq_some_iff.1 hram
    have hpoke : m.poke a v = m.setBank (b.put a v) := by simp only [Memory.poke, hb, hk]
    have hmem := (Memory.bankAt_covers hm hb).1
    rw [hpoke]
    refine ⟨fun c hc hrom => ?_, ?_⟩
    · obtain ⟨d, hd, rfl⟩ := List.mem_map.1 hc
      split at hrom
      · exact absurd (hk.symm.trans hrom) nofun
      · next hid => rwa [if_neg hid]
    · rw [Memory.setBank, List.map_map]
      refine List.map_congr_left fun d hd => ?_
      rw [Function.comp_apply]
      split
      · next hid =>
        rw [banks_same_id ((Memory.wf_iff m).1 hm).2.1 hd hmem hid]
        rfl
      · rfl
  · rw [poke_of_not_isRam hram]
    exact .of_eq rfl

/-- Settles O48: a step is ticks, and the one access of each is a store or a callback, which changes no bank. -/
theorem stepsNeverWriteRom : Obligations.StepsNeverWriteRom := by
  intro s t hm h
  have access : ∀ acc u v w, Access.perform acc u = .next (v, w) → u.mem.wf = true ∧ SameBanks s.mem u.mem →
      w.mem.wf = true ∧ SameBanks s.mem w.mem := by
    rintro acc u v w hp ⟨hu, hs⟩
    refine ⟨perform_memWf acc u v w hp hu, hs.trans ?_⟩
    obtain ⟨a, rfl⟩ | hb := perform_cases hp
    · exact Memory.poke_sameBanks hu a v
    · exact .of_eq hb.banks
  have tick (u w : State) (hw : tick u = .next w) :=
    tick_keeps (I := fun u => u.mem.wf = true ∧ SameBanks s.mem u.mem) (fun _ _ ho hi => by rwa [ho.mem]) access hw
  exact (step_keeps tick h ⟨hm, .of_eq rfl⟩).2

end Sys2Proof.Machine
end

section
/-! The read-modify-write instructions on memory (R43, R140 to R145, R198, R201, R204, R207). -/

namespace Sys2Proof.Machine

/-- A read-modify-write instruction over storage (R43): `g` is its result and carry as a statement writes them. -/
theorem modifyMemory_completes {m : RmwMode} {f : Byte → Flags → Byte × Flags} {s : State} {g : Byte → Byte × Bool}
    (hf : ∀ v, f v s.p = ((g v).1, { s.p.nz (g v).1 with c := (g v).2 })) {i : Instr} (hi : exec i s = modifyMemory m f s)
    (h : ∀ a ∈ rmwAccesses m s, s.noHandler a) :
    Completes i s
      { s with
        mem := (s.mem.poke (rmwEa m s) (shownByte s (rmwEa m s))).poke (rmwEa m s) (g (shownByte s (rmwEa m s))).1
        p := { s.p.nz (g (shownByte s (rmwEa m s))).1 with c := (g (shownByte s (rmwEa m s))).2 }
        cycles := s.cycles + (rmwAccesses m s).length } := by
  obtain ⟨t, ht, hp⟩ := modifyMemory_noHandler m f h
  rw [hf] at ht
  exact ⟨_, hi.trans ht, congrArg (fun u : State => (u.setP _).setMem _) hp.visible⟩

/-- Writing a byte back and then another leaves what the second write alone would (R43, R54). -/
theorem poke_poke_shows {m : Memory} (hm : m.wf = true) (a : Addr) (v r : Byte) :
    SameBut [a] m ((m.poke a v).poke a r) ∧ (m.isRam a → ((m.poke a v).poke a r).peek a = some r) ∧
      (¬m.isRam a → (m.poke a v).poke a r = m) := by
  have hwf := Memory.poke_wf hm a v
  refine ⟨((sameBut_poke hm a v).trans (sameBut_poke hwf a r)).mono (by simp), fun hram => ?_, fun hram => ?_⟩
  · exact peek_poke_ram hwf ((isRam_poke m a a v).2 hram) r
  · rw [poke_of_not_isRam hram, poke_of_not_isRam hram]

/-- The operation of each mnemonic, as result and carry: the shifts set C, INC and DEC keep it (R140 to R145). -/
def rmwResult (o : RmwOp) (p : Flags) (v : Byte) : Byte × Bool :=
  let old : Byte := if p.c then 1 else 0
  match o with
  | .shift .asl => (v <<< 1, v.getLsbD 7)
  | .shift .lsr => (v >>> 1, v.getLsbD 0)
  | .shift .rol => (v <<< 1 ||| old, v.getLsbD 7)
  | .shift .ror => (v >>> 1 ||| old <<< 7, v.getLsbD 0)
  | .inc => (v + 1, p.c)
  | .dec => (v - 1, p.c)

theorem rmwOperation_eq (o : RmwOp) (v : Byte) (p : Flags) :
    rmwOperation o v p = ((rmwResult o p v).1, { p.nz (rmwResult o p v).1 with c := (rmwResult o p v).2 }) := by
  cases o with
  | shift o => cases o <;> rfl
  | inc => rfl
  | dec => rfl

/-- Settles O20: the six instructions are one with six operations. -/
theorem readModifyWriteCompletes : Obligations.ReadModifyWriteCompletes := by
  intro m s a ha old row hrow
  subst ha
  obtain ⟨o, rfl⟩ : ∃ o : RmwOp, row = (o.instr m, rmwResult o s.p) := by
    simp only [List.mem_cons, List.not_mem_nil, or_false] at hrow
    obtain rfl | rfl | rfl | rfl | rfl | rfl := hrow
    exacts [⟨.shift .asl, rfl⟩, ⟨.shift .lsr, rfl⟩, ⟨.shift .rol, rfl⟩, ⟨.shift .ror, rfl⟩, ⟨.inc, rfl⟩, ⟨.dec, rfl⟩]
  have hi := exec_rmwOp o m s
  have hf (v : Byte) := rmwOperation_eq o v s.p
  refine ⟨fun hm hn => ⟨modifyMemory_completes hf hi hn, poke_poke_shows hm _ _ _⟩, ?_⟩
  have through := modifyMemory_through m (rmwOperation o) s
  simp only [hf, ← hi] at through
  exact through

end Sys2Proof.Machine
end

section
/-! The decoder and the encoder are inverse (R70, R71, R85 to R88). Every instruction but ILL is a cell of the opcode map with
operand bytes (`instr_of_op`), so that each statement is about cells: their code, their length, and the bytes they use. -/

namespace Sys2Proof.Machine

/-! ## Bytes that a cell uses -/

/-- An instruction uses no operand byte that the length of its cell leaves out (R71). -/
theorem instr_unused (op : Op) (b1 b2 : Byte) :
    op.instr (if op.length = 1 then 0 else b1) (if op.length = 3 then b2 else 0) = op.instr b1 b2 := by
  cases op with
  | read o k => cases k <;> rfl
  | write o k => cases k <;> rfl
  | rmw o k => cases k <;> rfl
  | push o => cases o <;> rfl
  | pull o => cases o <;> rfl
  | _ => rfl

/-- A cell of a well-formed instruction has an opcode byte (R86). -/
theorem codeOf_of_wf {op : Op} (h : (op.instr 0 0).wf = true) : ∃ b, codeOf op = some b := by
  refine Option.isSome_iff_exists.1 ?_
  revert h
  cases op with
  | read o k => cases o <;> cases k <;> decide
  | write o k => cases o <;> cases k <;> decide
  | rmw o k =>
    cases o with
    | shift o => cases o <;> cases k <;> decide
    | inc => cases k <;> decide
    | dec => cases k <;> decide
  | acc o => cases o <;> decide
  | implied o => cases o <;> decide
  | branch o => cases o <;> decide
  | push o => cases o <;> decide
  | pull o => cases o <;> decide
  | _ => decide

/-- Only the illegal opcodes stand in no cell (R87). -/
theorem eq_ill_of_op {i : Instr} (h : i.op = none) : ∃ b, i = .ill b := by
  cases i with
  | ill b => exact ⟨b, rfl⟩
  | asl m | lsr m | rol m | ror m | jmp m => cases m <;> cases h
  | _ => cases h

/-! ## An illegal opcode is one byte (R87, D5) -/

theorem encode_ill {b : Byte} (h : isIllegal b = true) : encode (.ill b) = [b] := if_pos h

theorem decode_ill {b : Byte} (h : lookup b = none) (rest : List Byte) : decode (b :: rest) = .ok (.ill b, rest) := by
  rw [decode, h]

/-! ## Decoding what was encoded -/

/-- Settles O1: an instruction is ILL or a cell with operand bytes, and a cell's code leads back to it. -/
theorem decodeInvertsEncode : Obligations.DecodeInvertsEncode := by
  intro i rest hwf
  cases hop : i.op with
  | none =>
    obtain ⟨b, rfl⟩ := eq_ill_of_op hop
    rw [encode_ill hwf]
    exact decode_ill ((lookup_none b).2 hwf) rest
  | some op =>
    obtain ⟨b1, b2, rfl⟩ := instr_of_op hop
    obtain ⟨c, hc⟩ := codeOf_of_wf ((wf_instr op b1 b2).symm.trans hwf)
    rw [decode_of hc, instr_unused]

/-! ## Encoding what was decoded -/

/-- What bytes that decode are: an illegal opcode, or the code of a cell and the operand bytes of its length (R85, R88). -/
theorem decode_eq_ok {bytes rest : List Byte} {i : Instr} (h : decode bytes = .ok (i, rest)) :
    (∃ b, lookup b = none ∧ i = .ill b ∧ bytes = b :: rest) ∨
      ∃ b op b1 b2, lookup b = some op ∧ i = op.instr b1 b2 ∧ bytes = b :: [b1, b2].take (op.length - 1) ++ rest := by
  cases bytes with
  | nil => cases h
  | cons b tail =>
    cases hl : lookup b with
    | none =>
      rw [decode_ill hl] at h
      cases h
      exact .inl ⟨b, hl, rfl, rfl⟩
    | some op =>
      refine .inr ⟨b, op, ?_⟩
      simp only [decode, hl] at h
      obtain hn | hn | hn := length_cases op <;> rw [hn] at h ⊢
      · cases h
        exact ⟨0, 0, hl, rfl, rfl⟩
      · cases tail with
        | nil => cases h
        | cons b1 tail =>
          cases h
          exact ⟨b1, 0, hl, rfl, rfl⟩
      · match tail, h with
        | b1 :: b2 :: tail, h =>
          cases h
          exact ⟨b1, b2, hl, rfl, rfl⟩

/-- Settles O2: an illegal opcode is its own byte, and a cell's instruction is its code and the operand bytes it used. -/
theorem encodeInvertsDecode : Obligations.EncodeInvertsDecode := by
  intro bytes rest i h
  obtain ⟨b, hl, rfl, rfl⟩ | ⟨b, op, b1, b2, hl, rfl, rfl⟩ := decode_eq_ok h
  · have hb := (lookup_none b).1 hl
    exact ⟨hb, congrArg (· ++ rest) (encode_ill hb)⟩
  · exact ⟨lookup_wf hl b1 b2, congrArg (· ++ rest) (encode_instr hl b1 b2)⟩

/-! ## Lengths, and the opcode map -/

/-- Settles O3: the length is that of the byte's cell, or 1 where it has none. -/
theorem firstByteFixesLength : Obligations.FirstByteFixesLength := by
  intro b
  cases hl : lookup b with
  | none =>
    refine ⟨1, le_rfl, by decide, fun _ => rfl, fun tail => ⟨fun _ => ⟨.ill b, decode_ill hl tail⟩, fun h => ?_⟩⟩
    omega
  | some op =>
    have hlegal : ¬isIllegal b = true := fun hb => by rw [(lookup_none b).2 hb] at hl; cases hl
    obtain ⟨hlow, hhigh⟩ : 1 ≤ op.length ∧ op.length ≤ 3 := by
      obtain hn | hn | hn := length_cases op <;> rw [hn] <;> decide
    exact ⟨op.length, hlow, hhigh, fun hb => absurd hb hlegal, decode_length op hl⟩

/-- Settles O4: the bytes with no cell are those of the list. -/
theorem illegalBytesAreTheListedOnes : Obligations.IllegalBytesAreTheListedOnes := by
  refine ⟨rfl, fun b rest => ?_⟩
  have hb : lookup b = none ↔ b.toNat ∈ illegalBytes := (lookup_none b).trans List.contains_iff_mem
  exact ⟨hb, fun h => decode_ill (hb.2 h) rest⟩

/-- Settles O5: the decoder evaluated on ten words. -/
theorem sampleWordsDecode : Obligations.SampleWordsDecode := by
  and_intros <;> rfl

end Sys2Proof.Machine
end

section
/-! A step at a boundary where nothing is due fetches the bytes at `PC`, decodes them and runs the instruction (R85, R88, R190,
R191, R217). -/

namespace Sys2Proof.Machine

theorem State.fetches.nextSeq {s : State} (h : s.fetches) : s.nextSeq = .instr := by
  obtain ⟨-, -, hreset, hnmi, hirq⟩ := h
  have hint : s.interruptDue = false := by
    rw [State.interruptDue, hnmi]
    obtain h | h := hirq <;> simp [h]
  simp [State.nextSeq, hreset, hint]

/-! ## The operand bytes -/

theorem shownByte_peek {s : State} {a : Addr} {v : Byte} (h : s.mem.peek a = some v) : shownByte s a = v := by
  rw [shownByte, h]
  rfl

theorem busRead_peek {s : State} {a : Addr} {v : Byte} (h : s.mem.peek a = some v) :
    busRead a s = .next (v, s.addCycle) := by
  rw [busRead_noHandler (Option.isSome_iff_exists.2 ⟨v, h⟩), shownByte_peek h]

/-- A byte of the fetch more (R85, R191). -/
theorem readAtPc_fetched {s : State} {n : Nat} {v : Byte} (b : Byte)
    (h : s.mem.peek (s.pc + BitVec.ofNat 16 n) = some v) : readAtPc (s.fetched b n) = .next (v, s.fetched b (n + 1)) := by
  have hpc : s.pc + BitVec.ofNat 16 n + 1 = s.pc + BitVec.ofNat 16 (n + 1) := by
    rw [BitVec.ofNat_add, ← BitVec.add_assoc]
    rfl
  have hread : busRead (s.fetched b n).pc (s.fetched b n) = .next (v, (s.fetched b n).addCycle) := busRead_peek h
  rw [readAtPc, hread, andThen_next]
  exact congrArg (fun a => Host.Outcome.next (v, { s.fetched b (n + 1) with pc := a })) hpc

/-- The fetch of the opcode (R191). -/
theorem step_opcode {s : State} {b : Byte} (h : s.fetches) (hb : s.mem.peek s.pc = some b) :
    step s = runFetched b (s.fetched b 1) := by
  obtain ⟨hhalted, hindex, -⟩ := id h
  have hread : busRead s.pc (s.setSeq .instr) = .next (b, (s.setSeq .instr).addCycle) := busRead_peek hb
  simp only [step_boundary hhalted hindex, h.nextSeq, beginSequence_instr h.nextSeq, hread, andThen_next]
  rfl

/-! ## The bytes fetched first -/

/-- All bytes of an instruction but a JSR are fetched first. -/
theorem fetchedBytes_instr {b : Byte} {op : Op} (h : lookup b = some op) (hj : op ≠ .jsr) (b1 b2 : Byte) :
    fetchedBytes (op.instr b1 b2) = op.length := by
  have hlen : (encode (op.instr b1 b2)).length = op.length := by
    rw [encode_instr h]
    obtain hn | hn | hn := length_cases op <;> rw [hn] <;> rfl
  rw [← hlen]
  have hop := op_instr op b1 b2
  cases hi : op.instr b1 b2 with
  | jsr w =>
    rw [hi] at hop
    exact absurd (Option.some.inj hop).symm hj
  | _ => rfl

/-- After its opcode a documented instruction fetches its operand bytes, a JSR its second byte alone, and runs (R217). -/
theorem runFetched_shown {s : State} {b b1 b2 : Byte} {op : Op} (hl : lookup b = some op)
    (hs : s.holdsAtPc (b :: [b1, b2].take (op.length - 1))) :
    runFetched b (s.fetched b 1) = exec (op.instr b1 b2) (s.fetched b (fetchedBytes (op.instr b1 b2))) := by
  by_cases hj : op = .jsr
  · subst hj
    have h1 : s.mem.peek (s.pc + BitVec.ofNat 16 1) = some b1 := hs 1 (Nat.le_of_ble_eq_true rfl)
    have h2 : s.mem.peek (s.pc + BitVec.ofNat 16 2) = some b2 := hs 2 (Nat.le_of_ble_eq_true rfl)
    have hshown : shownByte (s.fetched b 2) (s.fetched b 2).pc = b2 := shownByte_peek h2
    rw [runFetched_jsr hl, readAtPc_fetched b h1, andThen_next, hshown]
    rfl
  rw [fetchedBytes_instr hl hj]
  obtain hn | hn | hn := length_cases op
  · have hunused : op.instr 0 0 = op.instr b1 b2 := by simpa [hn] using instr_unused op b1 b2
    rw [runFetched_one hl _ hn, hunused, hn]
  · rw [hn] at hs
    have h1 : s.mem.peek (s.pc + BitVec.ofNat 16 1) = some b1 := hs 1 (Nat.le_of_ble_eq_true rfl)
    have hunused : op.instr b1 0 = op.instr b1 b2 := by simpa [hn] using instr_unused op b1 b2
    rw [runFetched_two hl _ hn, readAtPc_fetched b h1, andThen_next, hunused, hn]
  · rw [hn] at hs
    have h1 : s.mem.peek (s.pc + BitVec.ofNat 16 1) = some b1 := hs 1 (Nat.le_of_ble_eq_true rfl)
    have h2 : s.mem.peek (s.pc + BitVec.ofNat 16 2) = some b2 := hs 2 (Nat.le_of_ble_eq_true rfl)
    rw [runFetched_three hl _ hn hj, readAtPc_fetched b h1, andThen_next, readAtPc_fetched b h2, andThen_next, hn]

/-- Settles O6: after the opcode, the bytes that decode are those of a cell, or an illegal opcode alone. -/
theorem stepRunsDecodedInstruction : Obligations.StepRunsDecodedInstruction := by
  intro s b0 tail i hf hd hs
  have hb : s.mem.peek (s.pc + 0#16) = some b0 := hs 0 (Nat.succ_pos _)
  rw [BitVec.add_zero] at hb
  rw [step_opcode hf hb]
  obtain ⟨b, hl, rfl, he⟩ | ⟨b, op, b1, b2, hl, rfl, he⟩ := decode_eq_ok hd
  · cases he
    have hlen : fetchedBytes (.ill b0) = 1 := congrArg List.length (encode_ill ((lookup_none b0).1 hl))
    rw [hlen]
    exact runFetched_illegal hl _
  · rw [List.append_nil] at he
    cases he
    exact runFetched_shown hl hs

end Sys2Proof.Machine
end

section
/-! The instructions of one byte and two cycles (R194): one discarded read at `PC`, then their change. -/

namespace Sys2Proof.Machine

/-- The access of such an instruction, whatever bank is at `PC`; `g` is its change as a statement writes it, from a state that
the read has left (R63). -/
theorem implied_runsAs {i : Instr} {s : State} {f g : State → State} (hi : exec i s = implied f s)
    (hf : ∀ t, State.putCpu s t = t → f t = g t) : RunsAs i s (andThen (discardRead s.pc s) fun t => .next (g t)) := by
  refine .of_eq (hi.trans (andThen_congr fun t ht => ?_))
  obtain ⟨r, hr, hrt⟩ := andThen_eq_next.1 ht
  cases hrt
  rw [hf r.2 (busRead_keeps hr)]

/-- An accumulator shift after its read: the result and the bit shifted out, from the registers before it (R140 to R143). -/
theorem accEffect_eq (o : ShiftOp) {s t : State} (h : State.putCpu s t = t) :
    accEffect o t =
      { t with
        a := (rmwResult (.shift o) s.p s.a).1
        p := { s.p.nz (rmwResult (.shift o) s.p s.a).1 with c := (rmwResult (.shift o) s.p s.a).2 } } := by
  rw [← h]
  exact congrArg (fun r : Byte × Flags => { State.putCpu s t with a := r.1, p := r.2 }) (rmwOperation_eq (.shift o) s.a s.p)

/-- Each row is one of the implied instructions with the operation that the cycle level gives it. -/
theorem exists_impliedOp_of_mem_rows {row : Byte × Instr × (State → State)} (h : row ∈ transferRows ++ countRows ++ flagRows) :
    ∃ o : ImpliedOp, row.2 = (o.instr, impliedEffect o) := by
  simp only [transferRows, countRows, flagRows, List.cons_append, List.nil_append, List.mem_cons, List.not_mem_nil,
    or_false] at h
  obtain rfl | rfl | rfl | rfl | rfl | rfl | rfl | rfl | rfl | rfl | rfl | rfl | rfl | rfl | rfl | rfl | rfl | rfl := h
  exacts [⟨.tax, rfl⟩, ⟨.tay, rfl⟩, ⟨.txa, rfl⟩, ⟨.tya, rfl⟩, ⟨.tsx, rfl⟩, ⟨.txs, rfl⟩, ⟨.inx, rfl⟩, ⟨.iny, rfl⟩, ⟨.dex, rfl⟩,
    ⟨.dey, rfl⟩, ⟨.clc, rfl⟩, ⟨.sec, rfl⟩, ⟨.cli, rfl⟩, ⟨.sei, rfl⟩, ⟨.cld, rfl⟩, ⟨.sed, rfl⟩, ⟨.clv, rfl⟩, ⟨.nop, rfl⟩]

/-- Settles O19: the four shifts are one instruction with four operations, and so are the rows. -/
theorem accumulatorShiftsComplete : Obligations.AccumulatorShiftsComplete := by
  intro s a old
  refine ⟨fun row hrow => ?_, fun row hrow => ?_⟩
  · obtain ⟨o, rfl⟩ : ∃ o : ShiftOp, row = (o.instr .acc, rmwResult (.shift o) s.p s.a) := by
      simp only [List.mem_cons, List.not_mem_nil, or_false] at hrow
      obtain rfl | rfl | rfl | rfl := hrow
      exacts [⟨.asl, rfl⟩, ⟨.lsr, rfl⟩, ⟨.rol, rfl⟩, ⟨.ror, rfl⟩]
    have hruns := implied_runsAs (exec_acc o s) fun t => accEffect_eq o
    exact ⟨fun h => hruns.completes (by rw [discardRead_noHandler h]; rfl), hruns⟩
  · obtain ⟨o, ho⟩ := exists_impliedOp_of_mem_rows hrow
    rw [ho]
    exact implied_runsAs (exec_implied o s) fun _ _ => rfl

end Sys2Proof.Machine
end

section
/-! The branches (R84, R153 to R161, R212). -/

namespace Sys2Proof.Machine

/-- A taken branch makes its discarded reads and goes to its target, by way of the uncorrected page where that differs (R161,
R212). -/
theorem takeBranch_through (rel : Byte) (s : State) :
    SameAnswer (takeBranch (s.setOperand rel))
      (andThen (discardReads (branchAccesses true rel s) s) fun t => .next { t with pc := s.pc + sext16 rel }) := by
  have key : ∀ c u : State,
      SameAnswer (takeBranch ((State.putCpu c u).setOperand rel))
        (andThen (discardReads (branchAccesses true rel c) (State.putCpu c u)) fun t =>
          .next { t with pc := c.pc + sext16 rel }) := by
    intro c u
    simp only [SameAnswer, takeBranch, branchTarget, branchAccesses, State.setOperand, State.setPageCross, State.setAdh,
      discardRead, busRead_putCpu, State.setMicro_putCpu, State.setPc_putCpu, State.putCpu_pc, State.putCpu_micro,
      State.setMicro_pc, State.setMicro_micro, State.setPc_micro, State.setPc_pc, lo_cat, cat_hi_lo, andThen_assoc,
      andThen_next, if_true]
    by_cases h : hi (c.pc + sext16 rel) = hi c.pc
    · have ht : cat (hi c.pc) (lo (c.pc + sext16 rel)) = c.pc + sext16 rel := by rw [← h, cat_hi_lo]
      simp only [h, ht, bne_self_eq_false, Bool.false_eq_true, if_false, if_true, discardReads_cons, discardReads_nil,
        busRead_putCpu, andThen_assoc, andThen_next]
      rfl
    · simp only [h, bne_iff_ne.2 h, if_false, if_true, discardReads_cons, discardReads_nil, busRead_putCpu, andThen_assoc,
        andThen_next]
      rfl
  exact key s s

theorem length_branchAccesses (taken : Bool) (rel : Byte) (s : State) :
    (branchAccesses taken rel s).length = if taken then if hi (s.pc + sext16 rel) = hi s.pc then 1 else 2 else 0 := by
  unfold branchAccesses
  split_ifs <;> rfl

/-- A branch makes the reads of its condition's case, and nothing but `PC` changes. -/
theorem branch_runsAs (o : BranchOp) (rel : Byte) (s : State) :
    RunsAs (o.instr rel) s
      (andThen (discardReads (branchAccesses (branchTaken o s.p) rel s) s) fun t =>
        .next { t with pc := if branchTaken o s.p then s.pc + sext16 rel else s.pc }) := by
  rw [RunsAs, exec_branch]
  cases branchTaken o s.p with
  | false => rfl
  | true => exact takeBranch_through rel s

/-- Settles O33: the eight branches are one with eight conditions. -/
theorem branchesComplete : Obligations.BranchesComplete := by
  intro rel s row hrow
  obtain ⟨o, rfl⟩ : ∃ o : BranchOp, row = (o.instr rel, branchTaken o s.p) := by
    simp only [List.mem_cons, List.not_mem_nil, or_false] at hrow
    obtain rfl | rfl | rfl | rfl | rfl | rfl | rfl | rfl := hrow
    exacts [⟨.bcc, rfl⟩, ⟨.bcs, rfl⟩, ⟨.beq, rfl⟩, ⟨.bne, rfl⟩, ⟨.bmi, rfl⟩, ⟨.bpl, rfl⟩, ⟨.bvc, rfl⟩, ⟨.bvs, rfl⟩]
  have hruns := branch_runsAs o rel s
  rw [← sext16_eq]
  refine ⟨fun h => hruns.completes ?_, hruns⟩
  rw [discardReads_noHandler h, length_branchAccesses]
  rfl

end Sys2Proof.Machine
end

section
/-! Loads and stores (R74 to R83, R100 to R105): the accesses of the mode, whatever answers them, and then the change; over
storage each access answers what memory shows. -/

namespace Sys2Proof.Machine

/-! ## The accesses over storage -/

/-- Accesses that keep the registers and show the same as accesses that only pass time leave all but the cycle count. -/
theorem eq_next_of_shown {α : Type} {r r' : Res (α × State)} {v : α} {n : Nat} {s t : State} (h : shown r = shown r')
    (hr : r = .next (v, t)) (hp : Passed n s t) (hk : ∀ u, r' = .next (v, u) → State.putCpu s u = u) :
    r' = .next (v, { s with cycles := s.cycles + n }) := by
  rw [hr] at h
  obtain ⟨⟨w, u⟩, hu, he⟩ := andThen_eq_next.1 h.symm
  obtain ⟨rfl, hvis⟩ := Prod.mk.inj (Host.Outcome.next.inj he)
  have hs : u = { s with cycles := s.cycles + n } :=
    calc u = State.putCpu s u := (hk u hu).symm
      _ = State.putCpu s u.visible := rfl
      _ = State.putCpu s { s with cycles := s.cycles + n : State }.visible := by rw [hvis, hp.visible]
      _ = { s with cycles := s.cycles + n } := rfl
  rw [hu, hs]

/-- The reads of the read class over storage. -/
theorem readThrough_noHandler (m : ReadMode) {s : State} (h : ∀ a ∈ readAccesses m s, s.noHandler a) :
    readThrough m s = .next (operandByte m s, { s with cycles := s.cycles + (readAccesses m s).length }) := by
  obtain ⟨t, ht, hp⟩ := readOperand_noHandler m h
  exact eq_next_of_shown (readOperand_through m s) ht hp fun _ => readThrough_keeps

theorem storeEa_mem_storeAccesses (m : WriteMode) (s : State) : storeEa m s ∈ storeAccesses m s := by
  cases m <;> simp [storeAccesses, storeEa]

/-- The reads and the write of a store over storage. -/
theorem storeThrough_busWrite_noHandler (m : WriteMode) (v : Byte) {s : State} (h : ∀ a ∈ storeAccesses m s, s.noHandler a) :
    (andThen (storeThrough m s) fun r => busWrite r.1 v r.2) =
      .next { s with mem := s.mem.poke (storeEa m s) v, cycles := s.cycles + (storeAccesses m s).length } := by
  obtain ⟨t, n, ht, hp, hn⟩ := writeAddress_noHandler m h
  have hthrough := eq_next_of_shown (writeAddress_through m s) ht hp fun _ => storeThrough_keeps
  have hea : { s with cycles := s.cycles + n : State }.noHandler (storeEa m s) := h _ (storeEa_mem_storeAccesses m s)
  rw [hthrough, andThen_next, busWrite_noHandler hea, ← hn]
  rfl

/-! ## The read class -/

theorem readEffect_visible (o : ReadOp) (v : Byte) (t : State) :
    (readEffect o v t).visible = (readEffect o v t.visible).visible := by
  cases o <;> rfl

/-- A read-class instruction makes the reads of its mode and then its change; `g` is the change as a statement writes it, to a
state that the reads have left (R63, R193). -/
theorem readOp_runsAs {o : ReadOp} {s : State} {g : Byte → State → State}
    (hg : ∀ v t, State.putCpu s t = t → readEffect o v t = g v t) (m : ReadMode) :
    RunsAs (o.instr m) s (andThen (readThrough m s) fun r => .next (g r.1 r.2)) := by
  rw [RunsAs, exec_readOp]
  exact readThen_through m s (readEffect_visible o) fun v t => congrArg State.visible (hg v (State.putCpu s t) rfl)

/-- A read-class instruction over storage changes the cycle count, and what its operation changes with the operand byte. -/
theorem readOp_completes {o : ReadOp} {s : State} {g : Byte → State → State}
    (hg : ∀ v t, State.putCpu s t = t → readEffect o v t = g v t) {m : ReadMode}
    (h : ∀ a ∈ readAccesses m s, s.noHandler a) :
    Completes (o.instr m) s (g (operandByte m s) { s with cycles := s.cycles + (readAccesses m s).length }) :=
  (readOp_runsAs hg m).completes (by rw [readThrough_noHandler m h, andThen_next])

/-- Settles O11: the three loads are one read-class instruction with three registers to load. -/
theorem loadsComplete : Obligations.LoadsComplete := by
  intro m s
  have hlda (v t) (h : State.putCpu s t = t) : readEffect .lda v t = { t with a := v, p := s.p.nz v } := by rw [← h]; rfl
  have hldx (v t) (h : State.putCpu s t = t) : readEffect .ldx v t = { t with x := v, p := s.p.nz v } := by rw [← h]; rfl
  have hldy (v t) (h : State.putCpu s t = t) : readEffect .ldy v t = { t with y := v, p := s.p.nz v } := by rw [← h]; rfl
  exact ⟨fun h => ⟨readOp_completes hlda h, readOp_completes hldx h, readOp_completes hldy h⟩,
    readOp_runsAs hlda m, readOp_runsAs hldx m, readOp_runsAs hldy m⟩

/-! ## The write class -/

/-- A store makes the reads of its mode and then its write (R63). -/
theorem writeOp_runsAs (o : WriteOp) (m : WriteMode) (s : State) :
    RunsAs (o.instr m) s (andThen (storeThrough m s) fun r => busWrite r.1 (writeValue o s) r.2) := by
  rw [RunsAs, exec_writeOp]
  exact storeOperand_through m (writeValue o s) s

/-- Settles O18: the three stores are one instruction with three registers to store. -/
theorem storesComplete : Obligations.StoresComplete := by
  intro m s row hrow
  obtain ⟨o, rfl⟩ : ∃ o : WriteOp, row = (o.instr m, writeValue o s) := by
    simp only [List.mem_cons, List.not_mem_nil, or_false] at hrow
    obtain rfl | rfl | rfl := hrow
    exacts [⟨.sta, rfl⟩, ⟨.stx, rfl⟩, ⟨.sty, rfl⟩]
  have hruns := writeOp_runsAs o m s
  refine ⟨fun hm hn a ha => ?_, hruns⟩
  subst ha
  exact ⟨hruns.completes (storeThrough_busWrite_noHandler m _ hn), sameBut_poke hm _ _, fun h => peek_poke_ram hm h _,
    fun h => poke_of_not_isRam h _⟩

end Sys2Proof.Machine
end

section
/-! The steps of the instructions of one byte and two cycles (R194): the transfers of R110 to R115 and the rows beside them. -/

namespace Sys2Proof.Machine

/-- Each row's opcode byte is that of its instruction (R86). -/
theorem decode_opcode_of_mem_rows :
    ∀ row ∈ transferRows ++ countRows ++ flagRows, decode [row.1] = .ok (row.2.1, []) := by
  simp only [transferRows, countRows, flagRows, List.cons_append, List.nil_append, List.forall_mem_cons, List.not_mem_nil,
    false_implies, implies_true, and_true]
  and_intros <;> rfl

theorem fetchedBytes_implied (o : ImpliedOp) : fetchedBytes o.instr = 1 := by
  cases o <;> rfl

/-- The change of an implied instruction neither reads nor writes `PC`, the cycle count and the latches. -/
theorem impliedEffect_fetched (o : ImpliedOp) (s : State) (b : Byte) :
    ({ impliedEffect o (s.fetched b 1) with cycles := s.cycles + 2 } : State).visible =
      ({ impliedEffect o s with pc := s.pc + 1, cycles := s.cycles + 2 } : State).visible := by
  cases o <;> rfl

/-- Over storage an implied instruction makes its change in one cycle after the fetch (R194). -/
theorem implied_completes (o : ImpliedOp) {s : State} (h : s.noHandler s.pc) :
    Completes o.instr s { impliedEffect o s with cycles := s.cycles + 1 } := by
  refine ⟨impliedEffect o s.addCycle, (exec_implied o s).trans (implied_noHandler h _), ?_⟩
  cases o <;> rfl

/-- The rows of the two-cycle instructions hold, whichever of them are listed: the step is the instruction's own after the fetch
of its opcode (R191). -/
theorem twoCycleRows_of_subset {rows : List (Byte × Instr × (State → State))}
    (h : rows ⊆ transferRows ++ countRows ++ flagRows) : TwoCycleRows rows := by
  intro row hrow s
  have hdecode := decode_opcode_of_mem_rows row (h hrow)
  obtain ⟨o, ho⟩ := exists_impliedOp_of_mem_rows (h hrow)
  rw [ho] at hdecode ⊢
  refine ⟨implied_completes o, fun hf hb hn => ?_⟩
  have hat : s.holdsAtPc [row.1] := by
    intro k hk
    obtain rfl : k = 0 := Nat.lt_one_iff.1 hk
    rw [BitVec.add_zero]
    exact hb
  have hstep := stepRunsDecodedInstruction s row.1 [] o.instr hf hdecode hat
  obtain ⟨t, ht, hv⟩ := implied_completes o (s := s.fetched row.1 1) hn
  rw [fetchedBytes_implied, ht] at hstep
  exact ⟨t, hstep, hv.trans (impliedEffect_fetched o s row.1)⟩

/-- Settles O21: the transfers are the first of the two-cycle rows. -/
theorem transfersComplete : Obligations.TransfersComplete :=
  twoCycleRows_of_subset fun _ h => List.mem_append_left _ (List.mem_append_left _ h)

end Sys2Proof.Machine
end

section
/-! A push and then the pull that matches it (R116 to R119). -/

namespace Sys2Proof.Machine

/-- Where a push has moved `SP` down, a pull changes the registers as it would without the push, and `SP` is back. -/
theorem pulled_file (q : PullOp) (v : Byte) {s t : State} (h : t.file = s.file.moveSp (-1)) (n : Nat) :
    (pulled q t v { t with cycles := n }).file = { (pulled q s v s).file with sp := s.sp } := by
  obtain ⟨ha, hx, hy, hsp, hp⟩ := RegisterFile.mk.inj h
  have hback : t.sp + 1 = s.sp := hsp ▸ neg_add_cancel_right s.sp 1
  cases q with
  | pla => simp only [pulled, State.file, hback, hx, hy, hp]
  | plp => simp only [pulled, State.file, hback, ha, hx, hy]

/-- A pull after a push into RAM gets the byte pushed, and `SP` is back (R11). -/
theorem push_then_pull (o : PushOp) (q : PullOp) {s : State} (hm : s.mem.wf = true) (hn : ∀ a, s.noHandler a)
    (hram : s.mem.isRam (stackAddr s.sp)) :
    ∃ t u, exec ((Op.push o).instr 0 0) s = .next t ∧ exec ((Op.pull q).instr 0 0) t = .next u ∧
      u.file = { (pulled q s (pushValue o s) s).file with sp := s.sp } := by
  obtain ⟨t, ht, htv⟩ := push_completes o (hn s.pc) (hn (stackAddr s.sp))
  have hmem : t.mem = s.mem.poke (stackAddr s.sp) (pushValue o s) := congrArg State.mem htv
  have hsp : t.sp = s.sp - 1 := congrArg State.sp htv
  have hnt (a : Addr) : t.noHandler a := noHandler_congr (fun b => by rw [hmem, isSome_peek_poke]) (hn a)
  have hbyte : shownByte t (stackAddr (t.sp + 1)) = pushValue o s :=
    shownByte_peek (by rw [hsp, BitVec.sub_add_cancel, hmem, peek_poke_ram hm hram])
  obtain ⟨u, hu, huv⟩ := pull_completes q (hnt t.pc) (hnt (stackAddr t.sp)) (hnt (stackAddr (t.sp + 1)))
  rw [hbyte] at huv
  have hfile : t.file = s.file.moveSp (-1) := (congrArg State.file htv).trans (file_setSp_sub s 1)
  exact ⟨t, u, ht, hu, (congrArg State.file huv).trans (pulled_file q (pushValue o s) hfile (t.cycles + 3))⟩

/-- Settles O28: what a pull makes of the byte pushed is the register pushed. -/
theorem pushThenPullRestores : Obligations.PushThenPullRestores := by
  intro s hm hn hram
  obtain ⟨t, u, ht, hu, hfile⟩ := push_then_pull .pha .pla hm hn hram
  obtain ⟨t', u', ht', hu', hfile'⟩ := push_then_pull .php .plp hm hn hram
  exact ⟨⟨t, u, ht, hu, congrArg RegisterFile.a hfile, congrArg RegisterFile.sp hfile, congrArg RegisterFile.p hfile⟩,
    ⟨t', u', ht', hu', (congrArg RegisterFile.p hfile').trans (s.p.ofByte_toByte true), congrArg RegisterFile.sp hfile',
      congrArg RegisterFile.a hfile'⟩⟩

end Sys2Proof.Machine
end

section
/-! Arithmetic and compare: the adders of R125 to R127 in numbers, and the instructions that use them (R120 to R124). -/

namespace Sys2Proof.Machine

/-! ## The binary adder -/

/-- A mask of bit 7 shows the sign (R125). -/
theorem and_0x80_ne_zero (x : Byte) : x &&& 0x80#8 ≠ 0#8 ↔ x.msb = true := by
  have hmask : x &&& 0x80#8 = if x.getLsbD 7 then 0x80#8 else 0#8 := BitVec.and_twoPow x 7
  rw [hmask, BitVec.msb_eq_getLsbD_last]
  cases x.getLsbD 7 <;> decide

/-- V's formula in signs: both operands have the sign that the result has not (R125). -/
theorem add8_v_iff (a m : Byte) (c : Bool) :
    (add8 a m c).v = true ↔ a.msb ≠ (add8 a m c).r.msb ∧ m.msb ≠ (add8 a m c).r.msb := by
  have hv : (add8 a m c).v = decide (((a ^^^ (add8 a m c).r) &&& (m ^^^ (add8 a m c).r)) &&& 0x80#8 ≠ 0#8) := rfl
  rw [hv, decide_eq_true_iff, and_0x80_ne_zero, BitVec.msb_and, BitVec.msb_xor, BitVec.msb_xor, Bool.and_eq_true, bne_iff_ne,
    bne_iff_ne]

theorem toNat_add8_r (a m : Byte) (c : Bool) : (add8 a m c).r.toNat = (a.toNat + m.toNat + c.toNat) % 256 :=
  BitVec.toNat_ofNat ..

/-- V says that the sum of the operands as signed numbers has no place in a byte (R125). -/
theorem add8_v_iff_overflow (a m : Byte) (c : Bool) :
    (add8 a m c).v = true ↔ a.toInt + m.toInt + (c.toNat : Int) < -128 ∨ 127 < a.toInt + m.toInt + (c.toNat : Int) := by
  have hc := c.toNat_le
  have ha := a.isLt
  have hm := m.isLt
  rw [add8_v_iff, BitVec.msb_eq_decide, BitVec.msb_eq_decide, BitVec.msb_eq_decide, toNat_add8_r, BitVec.toInt_eq_toNat_cond,
    BitVec.toInt_eq_toNat_cond, ne_eq, ne_eq, decide_eq_decide, decide_eq_decide]
  omega

/-- Settles O15: all but V's meaning is how the adder is defined. -/
theorem binaryAddIsTheSpecsAdder : Obligations.BinaryAddIsTheSpecsAdder := fun a m c =>
  ⟨toNat_add8_r a m c, rfl, rfl, rfl, rfl, add8_v_iff_overflow a m c⟩

/-! ## Decimal digits -/

/-- A number in decimal digits of four bits each, the hundreds in the place of a byte's carry or borrow. -/
def digitsOf (n : Int) : Int := 256 * (n / 10 / 10) + 16 * (n / 10 % 10) + n % 10

/-- Two sums of digits, the ones carried into the tens, are the digits of the number they make. -/
theorem digitsOf_ten_mul_add (h l : Int) :
    digitsOf (10 * h + l) = 256 * ((h + l / 10) / 10) + 16 * ((h + l / 10) % 10) + l % 10 := by
  rw [digitsOf, Int.mul_add_ediv_left _ _ (by decide), Int.mul_add_emod_self_left]

/-- The low two digits are a valid BCD byte, the number modulo 100. -/
theorem validBcd_of_digitsOf {v : Byte} {n : Int} (h : (v.toNat : Int) = digitsOf n % 256) :
    ValidBcd v ∧ (bcdValue v : Int) = n - 100 * (n / 10 / 10) := by
  simp only [digitsOf] at h
  simp only [ValidBcd, bcdValue]
  omega

theorem bcdValue_le {v : Byte} (h : ValidBcd v) : bcdValue v ≤ 99 := by
  obtain ⟨hhigh, hlow⟩ := h
  simp only [bcdValue]
  omega

/-- The carry out of the byte is the one out of the two digits. -/
theorem le_digitsOf_iff {n : Int} : 256 ≤ digitsOf n ↔ 100 ≤ n := by
  simp only [digitsOf]
  omega

/-! ## The decimal adder -/

/-- The sum of R126 with both digits corrected. -/
def decimalSum (a m : Byte) (c : Bool) : Nat :=
  let t := a.toNat / 16 * 16 + m.toNat / 16 * 16 + decimalLow a m c
  if 0xA0 ≤ t then t + 0x60 else t

theorem toNat_adcDec_r (a m : Byte) (c : Bool) : (adcDec a m c).r.toNat = decimalSum a m c % 256 := BitVec.toNat_ofNat ..

theorem adcDec_c (a m : Byte) (c : Bool) : (adcDec a m c).c = decide (0x100 ≤ decimalSum a m c) := rfl

/-- On valid digits the low correction carries ten as sixteen (R126). -/
theorem decimalLow_validBcd {a m : Byte} (ha : ValidBcd a) (hm : ValidBcd m) (c : Bool) :
    let low := a.toNat % 16 + m.toNat % 16 + c.toNat
    decimalLow a m c = 16 * (low / 10) + low % 10 := by
  have hc := c.toNat_le
  obtain ⟨-, ha⟩ := ha
  obtain ⟨-, hm⟩ := hm
  simp only [decimalLow]
  split <;> omega

/-- On valid operands the corrected sum is the sum of the numbers, in digits. -/
theorem decimalSum_validBcd {a m : Byte} (ha : ValidBcd a) (hm : ValidBcd m) (c : Bool) :
    (decimalSum a m c : Int) = digitsOf (bcdValue a + bcdValue m + c.toNat) := by
  have hn : (bcdValue a + bcdValue m + c.toNat : Int) =
      10 * (a.toNat / 16 + m.toNat / 16 : Nat) + (a.toNat % 16 + m.toNat % 16 + c.toNat : Nat) := by
    simp only [bcdValue]
    omega
  rw [hn, digitsOf_ten_mul_add]
  have hlow := decimalLow_validBcd ha hm c
  have hc := c.toNat_le
  obtain ⟨ha, ha'⟩ := ha
  obtain ⟨hm, hm'⟩ := hm
  simp only [decimalSum, hlow]
  split <;> omega

/-- C is the carry of the numbers (R126). -/
theorem adcDec_c_validBcd {a m : Byte} (ha : ValidBcd a) (hm : ValidBcd m) (c : Bool) :
    (adcDec a m c).c = true ↔ 100 ≤ bcdValue a + bcdValue m + c.toNat := by
  rw [adcDec_c, decide_eq_true_iff, ← Int.ofNat_le, decimalSum_validBcd ha hm c]
  exact le_digitsOf_iff.trans (by omega)

/-- On valid operands the decimal adder adds the numbers, C the hundreds (R126). -/
theorem adcDec_validBcd {a m : Byte} (ha : ValidBcd a) (hm : ValidBcd m) (c : Bool) :
    ValidBcd (adcDec a m c).r ∧
      bcdValue (adcDec a m c).r + (if (adcDec a m c).c then 100 else 0) = bcdValue a + bcdValue m + c.toNat := by
  have hr : ((adcDec a m c).r.toNat : Int) = (decimalSum a m c : Int) % 256 := congrArg Nat.cast (toNat_adcDec_r a m c)
  rw [decimalSum_validBcd ha hm c] at hr
  obtain ⟨hv, hb⟩ := validBcd_of_digitsOf hr
  have hc := c.toNat_le
  have hva := bcdValue_le ha
  have hvm := bcdValue_le hm
  refine ⟨hv, ?_⟩
  simp only [adcDec_c_validBcd ha hm c]
  split <;> omega

/-- Settles O16: what is more than the definition holds on valid operands. -/
theorem decimalAddIsTheSpecsAdder : Obligations.DecimalAddIsTheSpecsAdder := fun a m c =>
  ⟨toNat_adcDec_r a m c, adcDec_c a m c, rfl, rfl, rfl, fun ha hm => adcDec_validBcd ha hm c⟩

/-! ## The decimal subtracter -/

/-- The difference of R127 with both digits corrected. -/
def decimalDiff (a m : Byte) (c : Bool) : Int :=
  let t : Int := (a.toNat / 16 * 16 : Nat) - (m.toNat / 16 * 16 : Nat) + decimalLowDiff a m c
  if t < 0 then t - 0x60 else t

theorem toNat_sbcDec_r (a m : Byte) (c : Bool) : ((sbcDec a m c).r.toNat : Int) = decimalDiff a m c % 256 := by
  have hr : (sbcDec a m c).r.toNat = (decimalDiff a m c % 256).toNat % 256 := BitVec.toNat_ofNat ..
  omega

/-- On valid digits the low correction borrows sixteen for ten (R127). -/
theorem decimalLowDiff_validBcd {a m : Byte} (ha : ValidBcd a) (hm : ValidBcd m) (c : Bool) :
    let low : Int := (a.toNat % 16 : Nat) - (m.toNat % 16 : Nat) + (c.toNat : Nat) - 1
    decimalLowDiff a m c = 16 * (low / 10) + low % 10 := by
  have hc := c.toNat_le
  obtain ⟨-, ha⟩ := ha
  obtain ⟨-, hm⟩ := hm
  simp only [decimalLowDiff]
  split <;> omega

/-- On valid operands the corrected difference is the difference of the numbers, in digits. -/
theorem decimalDiff_validBcd {a m : Byte} (ha : ValidBcd a) (hm : ValidBcd m) (c : Bool) :
    decimalDiff a m c = digitsOf (bcdValue a - bcdValue m - (1 - c.toNat)) := by
  have hn : (bcdValue a - bcdValue m - (1 - c.toNat) : Int) =
      10 * ((a.toNat / 16 : Nat) - (m.toNat / 16 : Nat)) +
        ((a.toNat % 16 : Nat) - (m.toNat % 16 : Nat) + (c.toNat : Nat) - 1) := by
    simp only [bcdValue]
    omega
  rw [hn, digitsOf_ten_mul_add]
  have hlow := decimalLowDiff_validBcd ha hm c
  have hc := c.toNat_le
  obtain ⟨ha, ha'⟩ := ha
  obtain ⟨hm, hm'⟩ := hm
  simp only [decimalDiff, hlow]
  split <;> omega

/-- The binary difference has no borrow exactly where that of the numbers has none (R127). -/
theorem sbcDec_c_validBcd {a m : Byte} (ha : ValidBcd a) (hm : ValidBcd m) (c : Bool) :
    (sbcDec a m c).c = true ↔ 0 ≤ (bcdValue a - bcdValue m - (1 - c.toNat) : Int) := by
  have hdef : (sbcDec a m c).c = decide (256 ≤ a.toNat + (~~~m).toNat + c.toNat) := rfl
  have hc := c.toNat_le
  obtain ⟨ha, ha'⟩ := ha
  obtain ⟨hm, hm'⟩ := hm
  rw [hdef, decide_eq_true_iff, BitVec.toNat_not]
  simp only [bcdValue]
  omega

/-- On valid operands the decimal subtracter subtracts the numbers, C that no hundred is borrowed (R127). -/
theorem sbcDec_validBcd {a m : Byte} (ha : ValidBcd a) (hm : ValidBcd m) (c : Bool) :
    ValidBcd (sbcDec a m c).r ∧
      (bcdValue (sbcDec a m c).r : Int) - (if (sbcDec a m c).c then 0 else 100) =
        (bcdValue a : Int) - bcdValue m - (1 - (c.toNat : Int)) := by
  have hr := toNat_sbcDec_r a m c
  rw [decimalDiff_validBcd ha hm c] at hr
  obtain ⟨hv, hb⟩ := validBcd_of_digitsOf hr
  have hc := c.toNat_le
  have hva := bcdValue_le ha
  have hvm := bcdValue_le hm
  refine ⟨hv, ?_⟩
  simp only [sbcDec_c_validBcd ha hm c]
  split <;> omega

/-- Settles O17: what is more than the definition holds on valid operands. -/
theorem decimalSubtractIsTheSpecsAdder : Obligations.DecimalSubtractIsTheSpecsAdder := fun a m c =>
  ⟨toNat_sbcDec_r a m c, rfl, rfl, rfl, rfl, fun ha hm => sbcDec_validBcd ha hm c⟩

/-! ## The instructions -/

/-- A read-class instruction over storage and at any bank, where `g` writes out its change on the registers of `s`. -/
theorem readOp_completes_and_runsAs {o : ReadOp} {s : State} {g : Byte → State → State}
    (hg : ∀ v t, readEffect o v (State.putCpu s t) = g v (State.putCpu s t)) (m : ReadMode) :
    ((∀ a ∈ readAccesses m s, s.noHandler a) →
      Completes (o.instr m) s (g (operandByte m s) { s with cycles := s.cycles + (readAccesses m s).length })) ∧
    RunsAs (o.instr m) s (andThen (readThrough m s) fun r => .next (g r.1 r.2)) := by
  have hkept (v : Byte) (t : State) (h : State.putCpu s t = t) : readEffect o v t = g v t := h ▸ hg v t
  exact ⟨readOp_completes hkept, readOp_runsAs hkept m⟩

/-- Settles O13: each is a read-class instruction whose change is the answer of its adder. -/
theorem addSubtractComplete : Obligations.AddSubtractComplete := by
  intro m s add sub row hrow
  obtain ⟨o, ho, hi⟩ : ∃ o : ReadOp, (∀ v t, readEffect o v (State.putCpu s t) =
      { State.putCpu s t with a := (row.2 v).r, p := s.p.ofAdd (row.2 v) }) ∧ row.1 = o.instr m := by
    simp only [List.mem_cons, List.not_mem_nil, or_false] at hrow
    obtain rfl | rfl := hrow
    exacts [⟨.adc, fun _ _ => rfl, rfl⟩, ⟨.sbc, fun _ _ => rfl, rfl⟩]
  rw [hi]
  exact readOp_completes_and_runsAs (g := fun v t => { t with a := (row.2 v).r, p := s.p.ofAdd (row.2 v) }) ho m

/-- Settles O14: each is a read-class instruction whose change is the flags of its register against the operand. -/
theorem comparesComplete : Obligations.ComparesComplete := by
  intro m s row hrow
  obtain ⟨o, ho, hi⟩ : ∃ o : ReadOp, (∀ v t, readEffect o v (State.putCpu s t) =
      { State.putCpu s t with p := s.p.compare row.2 v }) ∧ row.1 = o.instr m := by
    simp only [List.mem_cons, List.not_mem_nil, or_false] at hrow
    obtain rfl | rfl | rfl := hrow
    exacts [⟨.cmp, fun _ _ => rfl, rfl⟩, ⟨.cpx, fun _ _ => rfl, rfl⟩, ⟨.cpy, fun _ _ => rfl, rfl⟩]
  rw [hi]
  exact readOp_completes_and_runsAs (g := fun v t => { t with p := s.p.compare row.2 v }) ho m

end Sys2Proof.Machine
end

section
/-! Logic (R130 to R133): the read class, with the changes of AND, ORA, EOR and BIT. -/

namespace Sys2Proof.Machine

/-- A read-class instruction that leaves `f` of the operand in A and N and Z of it in P, over storage and at any bank; `f` is
one of the operations of R130 to R132. -/
theorem logicOp_completes_and_runsAs {o : ReadOp} {s : State} {f : Byte → Byte}
    (hf : ∀ v t, readEffect o v (State.putCpu s t) = { State.putCpu s t with a := f v, p := s.p.nz (f v) }) (m : ReadMode) :
    ((∀ a ∈ readAccesses m s, s.noHandler a) →
      let r := f (operandByte m s)
      Completes (o.instr m) s { s with a := r, p := s.p.nz r, cycles := s.cycles + (readAccesses m s).length }) ∧
    RunsAs (o.instr m) s (andThen (readThrough m s) fun (v, t) => .next { t with a := f v, p := s.p.nz (f v) }) :=
  readOp_completes_and_runsAs (g := fun v t => { t with a := f v, p := s.p.nz (f v) }) hf m

/-- Settles O12: three read-class instructions with three operations on A, and BIT, which changes P alone. -/
theorem logicCompletes : Obligations.LogicCompletes := by
  intro m s logic bit
  have hand : logic (.and m) (s.a &&& ·) := logicOp_completes_and_runsAs (o := .and) (fun _ _ => rfl) m
  have hora : logic (.ora m) (s.a ||| ·) := logicOp_completes_and_runsAs (o := .ora) (fun _ _ => rfl) m
  have heor : logic (.eor m) (s.a ^^^ ·) := logicOp_completes_and_runsAs (o := .eor) (fun _ _ => rfl) m
  have hbit : ∀ v t, readEffect .bit v (State.putCpu s t) = { State.putCpu s t with p := bit v } := fun _ _ => rfl
  exact ⟨hand, hora, heor, readOp_completes_and_runsAs (g := fun v t => { t with p := bit v }) hbit m⟩

end Sys2Proof.Machine
end

section
/-! The register counts INX, INY, DEX and DEY (R146 to R149): the middle rows of the two-cycle instructions. -/

namespace Sys2Proof.Machine

theorem countRows_subset : countRows ⊆ transferRows ++ countRows ++ flagRows :=
  fun _ h => List.mem_append_left _ (List.mem_append_right _ h)

/-- Settles O22: the counts are two-cycle rows, and each such row has its opcode byte, its change and its step. -/
theorem registerCountsComplete : Obligations.RegisterCountsComplete :=
  twoCycleRows_of_subset countRows_subset

end Sys2Proof.Machine
end

section
/-! The jumps: JMP, JSR and RTS (R81, R150 to R152, R215 to R218). Their accesses are written out on the bus first, whatever
answers them; over storage each access then answers what memory shows. -/

namespace Sys2Proof.Machine

/-! ## JMP -/

/-- The accesses of JMP indirect, low byte first, and its target (R81, R216). -/
def jmpIndThrough (w : Addr) (s : State) : Res State :=
  andThen (busRead w s) fun (l, t) =>
  andThen (busRead (cat (hi w) (lo w + 1)) t) fun (h, t) => .next { t with pc := cat h l }

/-- The latches that hold the pointer and the target on the way do not show. -/
theorem jmpInd_runsAs (w : Addr) (s : State) : RunsAs (.jmp (.ind w)) s (jmpIndThrough w s) := by
  have key : ∀ c u : State,
      SameAnswer (execJmp (.ind w) (State.putCpu c u)) (jmpIndThrough w (State.putCpu c u)) := by
    intro c u
    simp only [SameAnswer, execJmp, jmpIndThrough, jumpPointerHigh, State.setPtr, State.setAdl, State.setAdh, State.latchedAddr,
      State.setMicro_putCpu, State.putCpu_micro, State.setMicro_micro, busRead_putCpu, andThen_assoc, andThen_next]
    rfl
  exact key s s

/-- Settles O29: the target is the operand, or the two bytes that the pointer's reads answer. -/
theorem jumpsComplete : Obligations.JumpsComplete := by
  intro w s
  refine ⟨⟨_, rfl, ?_⟩, fun hl hh => (jmpInd_runsAs w s).completes ?_, jmpInd_runsAs w s⟩
  · rw [State.setAddress_latchedAddr]
    rfl
  · unfold State.noHandler at hl hh
    simp only [jmpIndThrough, busRead_next, hl, hh, andThen_next]
    rfl

/-! ## JSR -/

/-- The accesses of JSR: the third byte is read last, and the target is that byte and the operand's low byte (R217). -/
def jsrThrough (w : Addr) (s : State) : Res State :=
  andThen (discardReads [stackAddr s.sp] s) fun t =>
  andThen (busWrite (stackAddr s.sp) (hi s.pc) t) fun t =>
  andThen (busWrite (stackAddr (s.sp - 1)) (lo s.pc) t) fun t =>
  andThen (busRead s.pc t) fun (h, t) =>
  .next { t with pc := cat h (lo w), sp := s.sp - 2 }

/-- The pushes find the `SP` and the `PC` that JSR began with, whatever its accesses meet. -/
theorem jsr_runsAs (w : Addr) (s : State) : RunsAs (.jsr w) s (jsrThrough w s) := by
  have key : ∀ c u : State, SameAnswer (execJsr w (State.putCpu c u)) (jsrThrough w (State.putCpu c u)) := by
    intro c u
    simp only [SameAnswer, execJsr, jsrThrough, discardStack, discardRead, discardReads_cons, discardReads_nil, push,
      State.setAdl, State.setAdh, State.latchedAddr, State.setMicro_putCpu, State.setSp_putCpu, State.putCpu_micro,
      State.putCpu_sp, State.putCpu_pc, State.setMicro_micro, State.setMicro_sp, State.setMicro_pc, State.setSp_micro, State.setSp_sp,
      State.setSp_pc, busRead_putCpu, busWrite_putCpu _ _ _ _, sub_sub_byte, andThen_assoc, andThen_next]
    rfl
  exact key s s

/-- Memory after JSR's two pushes: the address `r`, high byte first (R151). -/
def pushAddress (m : Memory) (sp : Byte) (r : Addr) : Memory :=
  (m.poke (stackAddr sp) (hi r)).poke (stackAddr (sp - 1)) (lo r)

/-- A stack byte is not the one below it, across the wrap of `SP` too (R11, R58). -/
theorem stackAddr_ne_stackAddr_sub_one (sp : Byte) : stackAddr sp ≠ stackAddr (sp - 1) := by
  rw [Ne, stackAddr_inj]
  bv_omega

theorem sameBut_pushAddress {m : Memory} (hm : m.wf = true) (sp : Byte) (r : Addr) :
    SameBut [stackAddr sp, stackAddr (sp - 1)] m (pushAddress m sp r) :=
  (sameBut_poke hm _ _).trans (sameBut_poke (m.poke_wf hm _ _) _ _)

/-- The high byte pushed is not lost under the low byte. -/
theorem peek_pushAddress_hi {m : Memory} (hm : m.wf = true) {sp : Byte} (h : m.isRam (stackAddr sp)) (r : Addr) :
    (pushAddress m sp r).peek (stackAddr sp) = some (hi r) := by
  rw [pushAddress, Memory.peek_poke_other (Memory.poke_wf hm _ _) (stackAddr_ne_stackAddr_sub_one sp), peek_poke_ram hm h]

theorem peek_pushAddress_lo {m : Memory} (hm : m.wf = true) {sp : Byte} (h : m.isRam (stackAddr (sp - 1))) (r : Addr) :
    (pushAddress m sp r).peek (stackAddr (sp - 1)) = some (lo r) :=
  peek_poke_ram (Memory.poke_wf hm _ _) ((isRam_poke _ _ _ _).2 h) _

theorem isSome_peek_pushAddress (m : Memory) (sp : Byte) (r a : Addr) :
    ((pushAddress m sp r).peek a).isSome = (m.peek a).isSome := by
  rw [pushAddress, isSome_peek_poke, isSome_peek_poke]

/-- JSR over storage (R151): the third byte is what memory shows after the pushes. -/
theorem jsr_completes (w : Addr) {s : State} (hpc : s.noHandler s.pc) (hhi : s.noHandler (stackAddr s.sp))
    (hlo : s.noHandler (stackAddr (s.sp - 1))) :
    Completes (.jsr w) s
      { s with
        pc := cat ((pushAddress s.mem s.sp s.pc).shows s.pc) (lo w)
        sp := s.sp - 2
        mem := pushAddress s.mem s.sp s.pc
        cycles := s.cycles + 4 } := by
  refine (jsr_runsAs w s).completes ?_
  unfold State.noHandler at hpc hhi hlo
  simp only [jsrThrough, discardReads_cons, discardReads_nil, busRead_next, busWrite_next, isSome_peek_poke, hpc, hhi, hlo,
    andThen_next]
  rfl

/-- Settles O30: the two stack bytes differ, so that both pushes stay and nothing else changes. -/
theorem jsrCompletes : Obligations.JsrCompletes := by
  rintro w s _ _ rfl rfl
  refine ⟨fun hm hpc hhi hlo => ⟨jsr_completes w hpc hhi hlo, sameBut_pushAddress hm s.sp s.pc,
    fun h => peek_pushAddress_hi hm h s.pc, fun h => peek_pushAddress_lo hm h s.pc, fun ha hb hw => ?_⟩, jsr_runsAs w s⟩
  have hthird : (pushAddress s.mem s.sp s.pc).peek s.pc = some (hi w) :=
    (sameBut_pushAddress hm s.sp s.pc s.pc fun h => (List.mem_pair.1 h).elim ha hb).trans hw
  calc cat ((pushAddress s.mem s.sp s.pc).shows s.pc) (lo w)
    _ = cat (hi w) (lo w) := by rw [Memory.shows, hthird, Option.getD_some]
    _ = w := cat_hi_lo w

/-! ## RTS -/

/-- The accesses of RTS, the last of them at the address pulled, and one more than that address (R152, R218). -/
def rtsThrough (s : State) : Res State :=
  andThen (discardReads [s.pc, stackAddr s.sp] s) fun t =>
  andThen (busRead (stackAddr (s.sp + 1)) t) fun (l, t) =>
  andThen (busRead (stackAddr (s.sp + 2)) t) fun (h, t) =>
  andThen (discardReads [cat h l] t) fun t =>
  .next { t with pc := cat h l + 1, sp := s.sp + 2 }

/-- The pulls count from the `SP` that RTS began with, whatever its accesses meet. -/
theorem rts_runsAs (s : State) : RunsAs .rts s (rtsThrough s) := by
  have two (a : Byte) : a + 1 + 1 = a + 2 := add_assoc a 1 1
  have key : ∀ c u : State, SameAnswer (execRts (State.putCpu c u)) (rtsThrough (State.putCpu c u)) := by
    intro c u
    simp only [SameAnswer, execRts, rtsThrough, discardStack, discardRead, discardReads_cons, discardReads_nil, pull,
      State.setAdl, State.setAdh, State.latchedAddr, State.setMicro_putCpu, State.setSp_putCpu, State.setPc_putCpu,
      State.putCpu_micro, State.putCpu_sp, State.putCpu_pc, State.setMicro_micro, State.setMicro_sp, State.setSp_micro, State.setSp_sp,
      State.setPc_pc, busRead_putCpu, two, andThen_assoc, andThen_next]
    rfl
  exact key s s

/-- The address that RTS pulls over storage: the low byte above `SP`, the high byte above that (R152). -/
def pulledAddress (s : State) : Addr := cat (shownByte s (stackAddr (s.sp + 2))) (shownByte s (stackAddr (s.sp + 1)))

theorem shownByte_eq_shows (s : State) (a : Addr) : shownByte s a = s.mem.shows a := rfl

/-- RTS over storage (R152). -/
theorem rts_completes {s : State} (hpc : s.noHandler s.pc) (hsp : s.noHandler (stackAddr s.sp))
    (hlo : s.noHandler (stackAddr (s.sp + 1))) (hhi : s.noHandler (stackAddr (s.sp + 2)))
    (hr : s.noHandler (pulledAddress s)) :
    Completes .rts s { s with pc := pulledAddress s + 1, sp := s.sp + 2, cycles := s.cycles + 5 } := by
  refine (rts_runsAs s).completes ?_
  simp only [State.noHandler, pulledAddress, shownByte_eq_shows] at hpc hsp hlo hhi hr
  simp only [rtsThrough, discardReads_cons, discardReads_nil, busRead_next, hpc, hsp, hlo, hhi, hr, andThen_next]
  rfl

/-- Settles O31: one statement over every state, whatever put the two bytes on the stack (R152; log 30). -/
theorem rtsCompletes : Obligations.RtsCompletes := fun s =>
  ⟨rts_completes, rts_runsAs s⟩

/-! ## JSR and then RTS -/

/-- Settles O32: RTS pulls the two bytes pushed, which are the address of the third byte of the JSR. -/
theorem jsrThenRtsReturns : Obligations.JsrThenRtsReturns := by
  intro w s hm hn hhi hlo
  obtain ⟨t, ht, htv⟩ := jsr_completes w (hn s.pc) (hn _) (hn _)
  have hmem : t.mem = pushAddress s.mem s.sp s.pc := congrArg State.mem htv
  have hsp : t.sp = s.sp - 2 := congrArg State.sp htv
  have hnt (a : Addr) : t.noHandler a := noHandler_congr (fun b => by rw [hmem, isSome_peek_pushAddress]) (hn a)
  have hone : t.sp + 1 = s.sp - 1 := by rw [hsp]; bv_omega
  have htwo : t.sp + 2 = s.sp := by rw [hsp, BitVec.sub_add_cancel]
  have hpulled : pulledAddress t = s.pc := by
    rw [pulledAddress, htwo, hone, shownByte_peek (hmem ▸ peek_pushAddress_hi hm hhi s.pc),
      shownByte_peek (hmem ▸ peek_pushAddress_lo hm hlo s.pc), cat_hi_lo]
  obtain ⟨u, hu, huv⟩ := rts_completes (hnt _) (hnt _) (hnt _) (hnt _) (hnt _)
  have hfile : u.file = s.file :=
    calc u.file = (s.file.moveSp (-2)).moveSp 2 := by rw [execRts_file hu, execJsr_file ht]
      _ = s.file := by rw [RegisterFile.moveSp_moveSp, neg_add_cancel, RegisterFile.moveSp, add_zero]
  exact ⟨t, u, ht, hu, (congrArg State.pc huv).trans (congrArg (· + 1) hpulled), congrArg RegisterFile.sp hfile,
    congrArg RegisterFile.p hfile, congrArg RegisterFile.a hfile⟩

end Sys2Proof.Machine
end

section
/-! The flag instructions, NOP and the illegal opcodes (R170 to R177, R180). -/

namespace Sys2Proof.Machine

/-! ## The flag instructions and NOP -/

theorem flagRows_subset : flagRows ⊆ transferRows ++ countRows ++ flagRows :=
  fun _ h => List.mem_append_right _ h

/-- Settles O23: the flag instructions and NOP are two-cycle rows, and each such row has its opcode byte, its change and its
step. -/
theorem flagInstructionsComplete : Obligations.FlagInstructionsComplete :=
  twoCycleRows_of_subset flagRows_subset

/-! ## The illegal opcodes -/

theorem execIll_nop2 {s : State} (h : s.platform.illegalPolicy = .nop2) (b : Byte) : execIll b s = discardRead s.pc s := by
  rw [execIll, h]
  exact andThen_id _

theorem execIll_strict {s : State} (h : s.platform.illegalPolicy = .strict) (b : Byte) :
    execIll b s = .next (haltInvalid b s) := by
  rw [execIll, h]

theorem haltInvalid_fetched (b : Byte) (s : State) :
    haltInvalid b (s.fetched b 1) = { s.fetched b 1 with halted := some (.invalidOpcode b s.pc) } :=
  congrArg (fun a => { s.fetched b 1 with halted := some (.invalidOpcode b a) }) (BitVec.add_sub_cancel s.pc 1)

/-- An illegal opcode has no operand bytes to fetch (R180, R191). -/
theorem step_illegal {s : State} {b : Byte} (hb : isIllegal b = true) (hf : s.fetches) (hpc : s.mem.peek s.pc = some b) :
    step s = execIll b (s.fetched b 1) := by
  rw [step_opcode hf hpc, runFetched_illegal ((lookup_none b).2 hb)]

/-- Settles O24: after its fetch an illegal opcode makes one discarded read, or halts at once. -/
theorem illegalOpcodesComplete : Obligations.IllegalOpcodesComplete := by
  intro b s hb
  refine ⟨fun hp => ?_, fun hp hf hpc hn => ⟨(s.fetched b 1).addCycle, ?_, rfl⟩,
    fun hp hf hpc => ⟨haltInvalid b (s.fetched b 1), ?_, ?_⟩⟩
  · have hruns : RunsAs (.ill b) s (discardRead s.pc s) := .of_eq (execIll_nop2 hp b)
    exact ⟨fun hn => hruns.completes (discardRead_noHandler hn), hruns⟩
  · rw [step_illegal hb hf hpc, execIll_nop2 (s := s.fetched b 1) hp]
    exact discardRead_noHandler hn
  · rw [step_illegal hb hf hpc, execIll_strict (s := s.fetched b 1) hp]
  · rw [haltInvalid_fetched]
    rfl

end Sys2Proof.Machine
end

section
/-! BRK and RTI (R178, R179, R219, R220, R269, R270, R272). Their accesses are written out on the bus first, whatever answers
them; over storage each access then answers what memory shows. -/

namespace Sys2Proof.Machine

/-! ## The frame in memory -/

theorem pushAddress_wf {m : Memory} (hm : m.wf = true) (sp : Byte) (r : Addr) : (pushAddress m sp r).wf = true :=
  Memory.poke_wf (m.poke_wf hm _ _) _ _

theorem pushFrame_eq (m : Memory) (sp : Byte) (r : Addr) (status : Byte) :
    pushFrame m sp r status = (pushAddress m sp r).poke (stackAddr (sp - 2)) status := rfl

/-- The status byte is not one of the two bytes of the return address, across the wrap of `SP` too (R11, R58). -/
theorem stackAddr_ne_stackAddr_sub_two (sp : Byte) :
    stackAddr sp ≠ stackAddr (sp - 2) ∧ stackAddr (sp - 1) ≠ stackAddr (sp - 2) := by
  rw [Ne, Ne, stackAddr_inj, stackAddr_inj]
  constructor <;> bv_omega

theorem sameBut_pushFrame {m : Memory} (hm : m.wf = true) (sp : Byte) (r : Addr) (status : Byte) :
    SameBut [stackAddr sp, stackAddr (sp - 1), stackAddr (sp - 2)] m (pushFrame m sp r status) :=
  (sameBut_pushAddress hm sp r).trans (sameBut_poke (pushAddress_wf hm sp r) _ _)

theorem peek_pushFrame_hi {m : Memory} (hm : m.wf = true) {sp : Byte} (h : m.isRam (stackAddr sp)) (r : Addr)
    (status : Byte) : (pushFrame m sp r status).peek (stackAddr sp) = some (hi r) := by
  rw [pushFrame_eq, Memory.peek_poke_other (pushAddress_wf hm sp r) (stackAddr_ne_stackAddr_sub_two sp).1,
    peek_pushAddress_hi hm h]

theorem peek_pushFrame_lo {m : Memory} (hm : m.wf = true) {sp : Byte} (h : m.isRam (stackAddr (sp - 1))) (r : Addr)
    (status : Byte) : (pushFrame m sp r status).peek (stackAddr (sp - 1)) = some (lo r) := by
  rw [pushFrame_eq, Memory.peek_poke_other (pushAddress_wf hm sp r) (stackAddr_ne_stackAddr_sub_two sp).2,
    peek_pushAddress_lo hm h]

theorem peek_pushFrame_status {m : Memory} (hm : m.wf = true) {sp : Byte} (h : m.isRam (stackAddr (sp - 2))) (r : Addr)
    (status : Byte) : (pushFrame m sp r status).peek (stackAddr (sp - 2)) = some status :=
  peek_poke_ram (pushAddress_wf hm sp r) (by rwa [pushAddress, isRam_poke, isRam_poke]) status

theorem isSome_peek_pushFrame (m : Memory) (sp : Byte) (r : Addr) (status : Byte) (a : Addr) :
    ((pushFrame m sp r status).peek a).isSome = (m.peek a).isSome := by
  rw [pushFrame_eq, isSome_peek_poke, isSome_peek_pushAddress]

/-! ## BRK -/

/-- The vector of an exception that no callback's NMI overtakes: that of an NMI already pending, else that of IRQ and BRK
(R270). -/
def exceptionVector (s : State) : Addr := if s.lines.nmiPending then 0xFFFA else 0xFFFE

/-- The addresses that an exception accesses over storage, the two bytes of its vector the last. -/
def exceptionAccesses (s : State) : List Addr :=
  [stackAddr s.sp, stackAddr (s.sp - 1), stackAddr (s.sp - 2), exceptionVector s, exceptionVector s + 1]

/-- Taking an exception over storage (R269, R270). -/
theorem exceptionThrough_noHandler {s : State} (r : Addr) (brk : Bool) (h : ∀ a ∈ exceptionAccesses s, s.noHandler a) :
    exceptionThrough r brk s =
      .next
        { s with
          pc := cat ((pushFrame s.mem s.sp r (s.p.toByte brk)).shows (exceptionVector s + 1))
            ((pushFrame s.mem s.sp r (s.p.toByte brk)).shows (exceptionVector s))
          sp := s.sp - 3
          p := { s.p with i := true }
          lines := { s.lines with nmiPending := false }
          mem := pushFrame s.mem s.sp r (s.p.toByte brk)
          cycles := s.cycles + 5 } := by
  simp only [exceptionAccesses, exceptionVector, List.forall_mem_cons, State.noHandler] at h
  obtain ⟨hhi, hlo, hstatus, hv, hv1, -⟩ := h
  simp only [exceptionThrough, State.setLines, busRead_next, busWrite_next, isSome_peek_poke, hhi, hlo, hstatus, hv, hv1,
    andThen_next]
  rfl

/-- `PC` plays no part in taking an exception but as the address pushed. -/
theorem exceptionThrough_setPc (r a : Addr) (brk : Bool) (s : State) :
    exceptionThrough r brk (s.setPc a) = exceptionThrough r brk s := by
  have key : ∀ c u : State,
      exceptionThrough r brk (State.putCpu (c.setPc a) u) = exceptionThrough r brk (State.putCpu c u) := by
    intro c u
    simp only [exceptionThrough, State.putCpu_sp, State.putCpu_p, State.putCpu_lines, State.setLines_putCpu, State.setPc_sp,
      State.setPc_p, busRead_putCpu, busWrite_putCpu _ _ _ _, andThen_assoc, andThen_next]
    rfl
  exact key s s

/-- BRK reads its padding byte and takes the exception from the address after it (R220). -/
theorem brk_runsAs (s : State) : RunsAs .brk s (andThen (discardReads [s.pc] s) (exceptionThrough (s.pc + 1) true)) := by
  have hexec : exec .brk s = andThen (busRead s.pc s) fun r => takeException true (r.2.setPc (r.2.pc + 1)) :=
    andThen_assoc _ _ _
  rw [RunsAs, SameAnswer, hexec, discardReads_cons, andThen_assoc, andThen_assoc, andThen_assoc]
  refine andThen_congr fun r hr => ?_
  have hpc : r.2.pc = s.pc := (congrArg State.pc (busRead_keeps hr)).symm
  rw [discardReads_nil, andThen_next, hpc, ← exceptionThrough_setPc _ (s.pc + 1)]
  exact takeException_through true (r.2.setPc (s.pc + 1))

/-- BRK over storage (R178). -/
theorem brk_completes {s : State} (hpc : s.noHandler s.pc) (h : ∀ a ∈ exceptionAccesses s, s.noHandler a) :
    Completes .brk s
      { s with
        pc := cat ((pushFrame s.mem s.sp (s.pc + 1) (s.p.toByte true)).shows (exceptionVector s + 1))
          ((pushFrame s.mem s.sp (s.pc + 1) (s.p.toByte true)).shows (exceptionVector s))
        sp := s.sp - 3
        p := { s.p with i := true }
        lines := { s.lines with nmiPending := false }
        mem := pushFrame s.mem s.sp (s.pc + 1) (s.p.toByte true)
        cycles := s.cycles + 6 } := by
  refine (brk_runsAs s).completes ?_
  rw [discardReads_noHandler (List.forall_mem_singleton.2 hpc), andThen_next]
  exact exceptionThrough_noHandler (s := { s with cycles := s.cycles + 1 }) _ _ h

/-- Both vectors are among the addresses that the statements ask to be storage. -/
theorem exceptionAccesses_subset (s : State) :
    exceptionAccesses s ⊆
      [stackAddr s.sp, stackAddr (s.sp - 1), stackAddr (s.sp - 2), 0xFFFA#16, 0xFFFB#16, 0xFFFE#16, 0xFFFF#16] := by
  unfold exceptionAccesses exceptionVector
  cases s.lines.nmiPending <;> simp

/-- Settles O34: the exception that BRK takes over storage is the one written out on the bus. -/
theorem brkTakesTheException : Obligations.BrkTakesTheException := by
  refine fun s => ⟨fun hm hn => ⟨?_, sameBut_pushFrame hm _ _ _⟩, brk_runsAs s⟩
  obtain ⟨hpc, hrest⟩ := List.forall_mem_cons.1 hn
  exact brk_completes hpc fun a ha => hrest a (exceptionAccesses_subset s ha)

/-! ## RTI -/

/-- The accesses of RTI: discarded reads at `PC` and at the old `SP`, then the three pulls (R219). -/
def rtiThrough (s : State) : Res State :=
  andThen (discardReads [s.pc, stackAddr s.sp] s) fun t =>
  andThen (busRead (stackAddr (s.sp + 1)) t) fun (v, t) =>
  andThen (busRead (stackAddr (s.sp + 2)) t) fun (l, t) =>
  andThen (busRead (stackAddr (s.sp + 3)) t) fun (h, t) =>
  .next { t with p := Flags.ofByte v, pc := cat h l, sp := s.sp + 3 }

/-- The pulls count from the `SP` that RTI began with, whatever its accesses meet. -/
theorem rti_runsAs (s : State) : RunsAs .rti s (rtiThrough s) := by
  have two (a : Byte) : a + 1 + 1 = a + 2 := add_assoc a 1 1
  have three (a : Byte) : a + 2 + 1 = a + 3 := add_assoc a 2 1
  have key : ∀ c u : State, SameAnswer (execRti (State.putCpu c u)) (rtiThrough (State.putCpu c u)) := by
    intro c u
    simp only [SameAnswer, execRti, returnFromException, rtiThrough, discardStack, discardRead, discardReads_cons,
      discardReads_nil, pull, State.setAdl, State.setAdh, State.setOperand, State.latchedAddr, State.setMicro_putCpu,
      State.setSp_putCpu, State.putCpu_micro, State.putCpu_sp, State.putCpu_pc, State.setMicro_micro, State.setMicro_sp,
      State.setSp_micro, State.setSp_sp, busRead_putCpu, two, three, andThen_assoc, andThen_next]
    simp only [State.visible, State.putCpu, State.setSp, State.setMicro, State.setPc, State.setP]
  exact key s s

/-- RTI over storage (R179): nothing is added to the address pulled. -/
theorem rti_completes {s : State}
    (h : ∀ a ∈ [s.pc, stackAddr s.sp, stackAddr (s.sp + 1), stackAddr (s.sp + 2), stackAddr (s.sp + 3)], s.noHandler a) :
    Completes .rti s
      { s with
        p := Flags.ofByte (shownByte s (stackAddr (s.sp + 1)))
        pc := cat (shownByte s (stackAddr (s.sp + 3))) (shownByte s (stackAddr (s.sp + 2)))
        sp := s.sp + 3
        cycles := s.cycles + 5 } := by
  refine (rti_runsAs s).completes ?_
  simp only [List.forall_mem_cons, State.noHandler] at h
  obtain ⟨hpc, hsp, hstatus, hlo, hhi, -⟩ := h
  simp only [rtiThrough, discardReads_cons, discardReads_nil, busRead_next, hpc, hsp, hstatus, hlo, hhi, andThen_next]
  rfl

/-- Settles O37: the flags of the statement are those that the model loads from a status byte (R16). -/
theorem rtiCompletes : Obligations.RtiCompletes := fun s => ⟨rti_completes, rti_runsAs s⟩

/-! ## BRK and then RTI -/

/-- Settles O38: RTI pulls the frame that BRK pushed, and the flags of a status byte with B = 1 are those it was made from. -/
theorem brkThenRtiReturns : Obligations.BrkThenRtiReturns := by
  intro s hm hn hhi hlo hstatus
  obtain ⟨t, ht, htv⟩ := brk_completes (hn s.pc) fun a _ => hn a
  have hmem : t.mem = pushFrame s.mem s.sp (s.pc + 1) (s.p.toByte true) := congrArg State.mem htv
  have hsp : t.sp = s.sp - 3 := congrArg State.sp htv
  have hnt (a : Addr) : t.noHandler a := noHandler_congr (fun b => by rw [hmem, isSome_peek_pushFrame]) (hn a)
  obtain ⟨u, hu, huv⟩ := rti_completes fun a _ => hnt a
  have hone : t.sp + 1 = s.sp - 2 := by rw [hsp]; bv_omega
  have htwo : t.sp + 2 = s.sp - 1 := by rw [hsp]; bv_omega
  have hthree : t.sp + 3 = s.sp := by rw [hsp, BitVec.sub_add_cancel]
  have hflags : shownByte t (stackAddr (t.sp + 1)) = s.p.toByte true :=
    shownByte_peek (by rw [hone, hmem, peek_pushFrame_status hm hstatus])
  have hlow : shownByte t (stackAddr (t.sp + 2)) = lo (s.pc + 1) :=
    shownByte_peek (by rw [htwo, hmem, peek_pushFrame_lo hm hlo])
  have hhigh : shownByte t (stackAddr (t.sp + 3)) = hi (s.pc + 1) :=
    shownByte_peek (by rw [hthree, hmem, peek_pushFrame_hi hm hhi])
  have hpc : u.pc = s.pc + 1 :=
    calc u.pc = cat (shownByte t (stackAddr (t.sp + 3))) (shownByte t (stackAddr (t.sp + 2))) := congrArg State.pc huv
      _ = s.pc + 1 := by rw [hlow, hhigh, cat_hi_lo]
  have hp : u.p = s.p :=
    calc u.p = Flags.ofByte (shownByte t (stackAddr (t.sp + 1))) := congrArg State.p huv
      _ = s.p := by rw [hflags, Flags.ofByte_toByte]
  have ha : u.a = s.a :=
    calc u.a = t.a := (congrArg State.a huv :)
      _ = s.a := (congrArg State.a htv :)
  exact ⟨t, u, ht, hu, hpc, (congrArg State.sp huv).trans hthree, hp, ha⟩

end Sys2Proof.Machine
end

section
/-! SUPPORT. What a tick leads to (R190, R193, R223): an access over storage always answers, a line that is steady moves
`cycle_index` to the next line or to the boundary, and no sequence has more lines than a step allows for. -/

namespace Sys2Proof.Machine

/-! ## Which line a tick does -/

/-- A sequence that begins sets its kind, and a reset is no longer pending (R190, R266); nothing else is touched. -/
theorem State.begun_eq (s : State) :
    s.begun =
      (s.setSeq s.begun.micro.seq).setLines { s.lines with resetPending := s.begun.lines.resetPending } := by
  unfold State.begun State.beginSequence
  dsimp only
  split_ifs <;> rfl

@[simp] theorem State.begun_cycleIndex (s : State) : s.begun.micro.cycleIndex = s.micro.cycleIndex :=
  (congrArg (fun t : State => t.micro.cycleIndex) s.begun_eq :)

theorem State.begun_of_inside {s : State} (h : s.micro.cycleIndex ≠ 0) : s.begun = s := if_neg h

theorem State.begun_seq_of_boundary {s : State} (h : s.micro.cycleIndex = 0) : s.begun.micro.seq = s.nextSeq := by
  rw [State.begun, if_pos h, s.beginSequence_seq]

/-- A tick of a machine that runs does the line at `cycle_index`, if there is one (R190). -/
theorem tick_running {s : State} (hs : s.halted = none) :
    tick s =
      (s.begun.sequenceLines[s.begun.micro.cycleIndex]?).elim (.refused .noSuchCycle) fun l => doLine l s.begun := by
  have hbegun : (if s.micro.cycleIndex = 0 then s.beginSequence else s) = s.begun := rfl
  unfold tick
  rw [if_neg (by simp [hs])]
  dsimp only
  rw [hbegun]
  cases s.begun.sequenceLines[s.begun.micro.cycleIndex]? <;> rfl

theorem tick_of_line {s : State} {l : Line} (hs : s.halted = none)
    (hl : s.begun.sequenceLines[s.begun.micro.cycleIndex]? = some l) : tick s = doLine l s.begun := by
  rw [tick_running hs, hl, Option.elim_some]

theorem begun_has_line {s : State} (h : s.microWf = true) :
    ∃ l, s.begun.sequenceLines[s.begun.micro.cycleIndex]? = some l := by
  have hlt : s.begun.micro.cycleIndex < s.begun.sequenceLines.length := by
    by_cases hc : s.micro.cycleIndex = 0
    · rw [State.begun_cycleIndex, hc]
      exact sequenceLines_length_pos _
    · rw [State.begun_of_inside hc]
      exact State.microWf_iff.1 h
  exact ⟨_, List.getElem?_eq_getElem hlt⟩

/-- A tick that is not a fetch does a steady line of its sequence, which moves `cycle_index` on, or back to 0 where it is the
last. -/
theorem tick_steady {s t : State} (hs : s.halted = none) (hf : ¬(s.micro.cycleIndex = 0 ∧ s.nextSeq = .instr))
    (h : tick s = .next t) :
    ∃ l v u, l ∈ s.begun.sequenceLines ∧ l.Steady ∧
      (l.access (l.before s.begun)).perform (l.before s.begun) = .next (v, u) ∧
      t = (l.after v u).1.atCycle
        { s.begun.micro with cycleIndex := if (l.after v u).2 then 0 else s.begun.micro.cycleIndex + 1 } := by
  obtain ⟨l, hl, hd⟩ := tick_line hs h
  have hst : l.Steady := by
    refine sequenceLines_steady hl ?_
    by_cases hc : s.micro.cycleIndex = 0
    · exact .inr fun hq => hf ⟨hc, (State.begun_seq_of_boundary hc).symm.trans hq⟩
    · exact .inl fun h0 => hc (s.begun_cycleIndex.symm.trans h0)
  have hdo : doLine l (s.begun.atCycle s.begun.micro) = .next t := hd
  rw [hst.doLine_atCycle _ (s.begun_halted.trans hs)] at hdo
  obtain ⟨r, hr, ht⟩ := andThen_eq_next.1 hdo
  obtain ⟨⟨v, u⟩, hu, he⟩ := andThen_eq_next.1 hr
  cases he
  cases ht
  exact ⟨l, v, u, List.mem_of_getElem? hl, hst, hu, rfl⟩

/-- A tick that fetches reads the opcode at `PC` (R191). -/
theorem tick_fetched {s t : State} (hs : s.halted = none) (hc : s.micro.cycleIndex = 0) (hq : s.nextSeq = .instr)
    (h : tick s = .next t) :
    ∃ b u, Bystander (s.setSeq .instr).addCycle u ∧
      t = if (u.incPc.setOpcode b).haltsOn b then haltInvalid b (u.incPc.setOpcode b)
        else (u.incPc.setOpcode b).setCycleIndex 1 := by
  rw [tick_fetch hs hc hq, beginSequence_instr hq] at h
  obtain ⟨⟨b, u⟩, hu, ht⟩ := andThen_eq_next.1 h
  exact ⟨b, u, busRead_bystander hu, (Host.Outcome.next.inj ht).symm⟩

/-! ## A step comes to its end -/

/-- A tick leads to a boundary, or to the next line of a machine that still runs (R190, R262). -/
theorem tick_cycleIndex {s t : State} (hs : s.halted = none) (h : tick s = .next t) :
    t.micro.cycleIndex = 0 ∨ t.micro.cycleIndex = s.micro.cycleIndex + 1 ∧ t.halted = none := by
  by_cases hf : s.micro.cycleIndex = 0 ∧ s.nextSeq = .instr
  · obtain ⟨hc, hq⟩ := hf
    obtain ⟨b, u, hu, rfl⟩ := tick_fetched hs hc hq h
    split
    · exact .inl ((congrArg Micro.cycleIndex hu.micro).trans hc)
    · exact .inr ⟨by rw [hc]; rfl, hu.halted.trans hs⟩
  · obtain ⟨l, v, u, -, hst, hu, rfl⟩ := tick_steady hs hf h
    cases (l.after v u).2 with
    | true => exact .inl rfl
    | false =>
      refine .inr ⟨congrArg (· + 1) s.begun_cycleIndex, ?_⟩
      calc (l.after v u).1.halted
          = u.halted := hst.after_halted v u
        _ = (l.before s.begun).halted := perform_halted hu
        _ = none := by rw [hst.before_halted, State.begun_halted, hs]

theorem sequenceLines_length (s : State) : s.sequenceLines.length ≤ sequenceBound := by
  unfold State.sequenceLines
  split
  · exact Nat.le_of_ble_eq_true rfl
  · exact Nat.le_of_ble_eq_true rfl
  · exact Nat.succ_le_succ (opcodeLines_length _)

/-! ## Over storage every access answers -/

theorem noHandler_of_plain {s : State} (h : s.mem.plain = true) (a : Addr) : s.noHandler a :=
  Option.isSome_iff_exists.2 (Memory.plain_peek h a)

/-- What an access leaves of Memory over storage: a read nothing else, a write the byte (R46, R47). -/
def Access.memory (acc : Access) (m : Memory) : Memory :=
  match acc with
  | .read _ => m
  | .write a v => m.poke a v

/-- The byte on the bus over storage. -/
def Access.byte (acc : Access) (m : Memory) : Byte :=
  match acc with
  | .read a => m.shows a
  | .write _ v => v

theorem perform_noHandler {s : State} (h : ∀ a, s.noHandler a) (acc : Access) :
    acc.perform s = .next (acc.byte s.mem, s.addCycle.setMem (acc.memory s.mem)) := by
  cases acc with
  | read a => exact busRead_noHandler (h a)
  | write a v => rw [Access.perform, busWrite_noHandler (h a), andThen_next]; rfl

theorem noHandler_of_mem {s t : State} (h : ∀ a, s.noHandler a) (hm : t.mem = s.mem) (a : Addr) : t.noHandler a :=
  (mem_congr_noHandler hm).2 (h a)

/-- Over storage a tick answers. -/
theorem tick_noHandler {s : State} (hn : ∀ a, s.noHandler a) (hw : s.microWf = true) : ∃ t, tick s = .next t := by
  by_cases hs : s.halted = none
  · obtain ⟨l, hl⟩ := begun_has_line hw
    have hmem : (l.before s.begun).mem = s.mem :=
      ((sequenceLines_inside _ l (List.mem_of_getElem? hl)).1 s.begun).mem.trans s.begun_outside.mem
    rw [tick_of_line hs hl, doLine_eq, Line.run, perform_noHandler (noHandler_of_mem hn hmem), andThen_next, andThen_next]
    split <;> exact ⟨_, rfl⟩
  · exact ⟨s, tick_halted hs⟩

/-- A tick puts no handler bank in place where none is active. -/
theorem tick_plain {s t : State} (h : tick s = .next t) (hp : s.mem.plain = true) : t.mem.plain = true := by
  refine tick_keeps (I := fun s => s.mem.plain = true) (fun s t hst hp => hst.mem ▸ hp) ?_ h hp
  intro acc s v t hperform hp
  rw [perform_noHandler (noHandler_of_plain hp) acc] at hperform
  cases hperform
  cases acc with
  | read _ => exact hp
  | write a v => exact Memory.plain_poke hp a v

/-- Over storage the ticks reach the boundary, where they may be as many as the sequence has lines. -/
theorem finishSequence_plain {fuel : Nat} {s : State} (hs : s.halted = none) (hp : s.mem.plain = true)
    (hw : s.microWf = true) (hf : sequenceBound ≤ fuel + s.micro.cycleIndex) :
    ∃ t, finishSequence fuel s = .next t ∧ t.mem.plain = true ∧ t.micro.cycleIndex = 0 := by
  induction fuel generalizing s with
  | zero =>
    have hlt := State.microWf_iff.1 hw
    have hle := sequenceLines_length s
    omega
  | succ fuel ih =>
    obtain ⟨t, ht⟩ := tick_noHandler (noHandler_of_plain hp) hw
    have htp := tick_plain ht hp
    rw [finishSequence, ht, andThen_next]
    obtain h0 | ⟨hnext, hrun⟩ := tick_cycleIndex hs ht
    · exact ⟨t, if_pos h0, htp, h0⟩
    · rw [if_neg (by omega)]
      exact ih hrun htp (tick_microWf ht hw) (by omega)

/-- Settles O8: a step is the ticks of its sequence; over storage each of them answers, and they come to the boundary. -/
theorem stepNeverSticksOnStorage : Obligations.StepNeverSticksOnStorage := by
  intro s hp hw hs
  rw [step_eq_finishSequence hs]
  exact finishSequence_plain hs hp hw (Nat.le_add_right _ _)

/-! ## What a tick is refused for -/

theorem andThen_eq_refused {α β : Type} {r : Res α} {k : α → Res β} {e : Refusal} :
    andThen r k = .refused e ↔ r = .refused e ∨ ∃ a, r = .next a ∧ k a = .refused e := by
  cases r <;> simp

/-- The operation is never refused for want of a line of a sequence. -/
def LacksNoLine (f : State → Res State) : Prop := ∀ s, f s ≠ .refused .noSuchCycle

theorem lacksNoLine_next (f : State → State) : LacksNoLine fun s => .next (f s) :=
  fun _ h => by cases h

theorem LacksNoLine.andThen {f g : State → Res State} (hf : LacksNoLine f) (hg : LacksNoLine g) :
    LacksNoLine fun s => andThen (f s) g := by
  intro s h
  obtain h | ⟨t, -, h⟩ := andThen_eq_refused.1 h
  · exact hf s h
  · exact hg t h

theorem lacksNoLine_runAll {α : Type} {f : α → State → Res State} (hf : ∀ x, LacksNoLine (f x)) (xs : List α) :
    LacksNoLine (runAll f xs) := by
  induction xs with
  | nil => exact lacksNoLine_next id
  | cons x xs ih =>
    intro s
    rw [runAll_cons]
    exact (hf x).andThen ih s

theorem lacksNoLine_during (id : WireId) {f : State → Res State} (hf : LacksNoLine f) : LacksNoLine (whileDelivering id f) :=
  fun _ => hf.andThen (lacksNoLine_next fun t => t.setFabric { t.fabric with delivering := t.fabric.delivering.tail }) _

theorem lacksNoLine_cpuInput {onRise : State → Res State} (hr : LacksNoLine onRise) (port : CpuPort) (b : Bool) :
    LacksNoLine (cpuInput onRise port b) := by
  cases port with
  | clock =>
    have hedge : LacksNoLine fun s => if b && !s.lines.clkPrev then onRise s else .next s := fun s => by
      dsimp only
      split
      · exact hr s
      · exact lacksNoLine_next id s
    exact hedge.andThen (lacksNoLine_next fun s => s.setLines { s.lines with clkPrev := b })
  | irq => exact lacksNoLine_next fun s => s.setLines (s.lines.irqLine b)
  | nmi => exact lacksNoLine_next fun s => s.setLines (s.lines.nmiLine b)
  | reset => exact lacksNoLine_next fun s => s.setLines (s.lines.resetLine b)

theorem lacksNoLine_deliver {onRise : State → Res State} (hr : LacksNoLine onRise)
    {write : EndpointId → Signal → State → Res State} (hw : ∀ e v, LacksNoLine (write e v)) (v : Signal) (k : Sink) :
    LacksNoLine (deliverTo onRise write v k) := by
  intro s
  unfold deliverTo
  split
  · cases v with
    | bit b => exact lacksNoLine_cpuInput hr _ b s
    | byte _ => exact fun h => by cases h
  · refine lacksNoLine_runAll (fun c s => ?_) _ _
    cases c with
    | stop => exact fun h => by cases h
    | writeWire src u => exact hw src u s

theorem lacksNoLine_writeWith {onRise : State → Res State} (hr : LacksNoLine onRise) (n : Nat) (src : EndpointId)
    (v : Signal) : LacksNoLine (writeWireWith onRise n src v) := by
  induction n generalizing src v with
  | zero => exact fun _ h => by cases h
  | succ n ih =>
    intro s
    unfold writeWireWith
    split
    · exact lacksNoLine_next id s
    · split_ifs
      · exact fun h => by cases h
      · exact fun h => by cases h
      · exact lacksNoLine_during _ (lacksNoLine_runAll (lacksNoLine_deliver hr ih v) _) _

theorem lacksNoLine_handlerCall (c : HandlerCall) : LacksNoLine (handlerCall c) := by
  cases c with
  | switch lo hi id =>
    intro s
    dsimp only [handlerCall]
    split <;> exact fun h => by cases h
  | fabric c =>
    cases c with
    | stop => exact lacksNoLine_next fun s => s.setFabric s.fabric.stop
    | writeWire src v =>
      have hrise : LacksNoLine fun _ => .refused .handlerReentry := fun _ h => by cases h
      exact fun s => lacksNoLine_writeWith hrise s.fabric.depth src v s
  | reenter => exact fun _ h => by cases h

/-- A read is refused for what a callback behind it does, if at all. -/
theorem busRead_ne_noSuchCycle (a : Addr) (s : State) : busRead a s ≠ .refused .noSuchCycle := by
  intro h
  unfold busRead at h
  split at h
  · cases h
  · split at h
    iterate 2 cases h
    split at h
    · cases h
    · obtain h | ⟨t, -, h⟩ := andThen_eq_refused.1 h
      · exact lacksNoLine_runAll lacksNoLine_handlerCall _ _ h
      · cases h

theorem lacksNoLine_busWrite (a : Addr) (v : Byte) : LacksNoLine (busWrite a v) := by
  intro s h
  unfold busWrite at h
  split at h
  · cases h
  · split at h
    iterate 2 cases h
    split at h
    · cases h
    · exact lacksNoLine_runAll lacksNoLine_handlerCall _ _ h

theorem perform_ne_noSuchCycle (acc : Access) (s : State) : acc.perform s ≠ .refused .noSuchCycle := by
  cases acc with
  | read a => exact busRead_ne_noSuchCycle a s
  | write a v =>
    intro h
    obtain h | ⟨t, -, h⟩ := andThen_eq_refused.1 h
    · exact lacksNoLine_busWrite a v s h
    · cases h

/-- Settles O51: a well-formed place has a line, and what a line answers is what its one access answers. -/
theorem tickNeverLacksALine : Obligations.TickNeverLacksALine := by
  intro s hw h
  by_cases hs : s.halted = none
  · obtain ⟨l, hl⟩ := begun_has_line hw
    rw [tick_of_line hs hl] at h
    obtain h | ⟨r, -, h⟩ := andThen_eq_refused.1 h
    · exact perform_ne_noSuchCycle _ _ h
    · dsimp only at h
      split at h <;> cases h
  · rw [tick_halted hs] at h
    cases h

end Sys2Proof.Machine
end

section
/-! What a line of a sequence may change before the last (R193), and what it does not look at (R224, R263, R266). -/

namespace Sys2Proof.Machine

/-! ## Registers and flags before the last line (R193) -/

/-- A, X, Y and what `keep` leaves of the flags. -/
def State.committed (keep : Flags → Flags) (s : State) : Byte × Byte × Byte × Flags := (s.a, s.x, s.y, keep s.p)

/-- Where the line is not the last, it leaves A, X, Y and the flags that `keep` shows as they are. -/
def Line.Waits (keep : Flags → Flags) (l : Line) : Prop :=
  ∀ s v u, (l.after v u).2 = false →
    (l.before s).committed keep = s.committed keep ∧ (l.after v u).1.committed keep = u.committed keep

section
variable {keep : Flags → Flags} {access : State → Access} {f : Byte → State → State}

theorem Line.Ends.waits {l : Line} (h : l.Ends) : l.Waits keep := fun _ v u hl => by
  rw [h v u] at hl
  cases hl

@[simp] theorem finish_waits : (finish access f).Waits keep := Line.Ends.waits fun _ _ => rfl

theorem goOn_waits (h : ∀ v s, (f v s).committed keep = s.committed keep := by intros; rfl) : (goOn access f).Waits keep :=
  fun _ v u _ => ⟨rfl, h v u⟩

end

@[simp] theorem lowLine_waits : lowLine.Waits id := goOn_waits

@[simp] theorem highLine_waits : highLine.Waits id := goOn_waits

@[simp] theorem highIndexedLine_waits (i : Index) : (highIndexedLine i).Waits id := goOn_waits

@[simp] theorem zeroPageIndexLine_waits (i : Index) : (zeroPageIndexLine i).Waits id := goOn_waits

@[simp] theorem izxLines_waits : izxLines.Forall (Line.Waits id) := ⟨goOn_waits, goOn_waits, goOn_waits, goOn_waits⟩

@[simp] theorem izyLines_waits : izyLines.Forall (Line.Waits id) := ⟨goOn_waits, goOn_waits, goOn_waits⟩

@[simp] theorem fixPageLine_waits : fixPageLine.Waits id := goOn_waits fun _ s => by
  dsimp only [discarded]
  split <;> rfl

@[simp] theorem dataLine_waits (ea : State → Addr) (o : ReadOp) : (dataLine ea o).Waits id := finish_waits

/-- An indexed read goes on where the index crosses a page, its operation not done yet. -/
@[simp] theorem indexedDataLine_waits (o : ReadOp) : (indexedDataLine o).Waits id := by
  intro s v u hl
  refine ⟨rfl, ?_⟩
  dsimp only [indexedDataLine] at hl ⊢
  split at hl
  · next hc => rw [if_pos hc]; rfl
  · cases hl

@[simp] theorem storeLine_waits (ea : State → Addr) (o : WriteOp) : (storeLine ea o).Waits id := finish_waits

@[simp] theorem modifyLines_waits (ea : State → Addr) (o : RmwOp) : (modifyLines ea o).Forall (Line.Waits id) :=
  ⟨goOn_waits, goOn_waits, Line.Ends.waits fun _ _ => rfl⟩

theorem opLines_waits {op : Op} (h : op ≠ .brk) : (opLines op).Forall (Line.Waits id) := by
  cases op with
  | read o k => cases k <;> simp [opLines, readLines]
  | write o k => cases k <;> simp [opLines, writeLines]
  | rmw o k => cases k <;> simp [opLines, rmwLines]
  | acc o => exact finish_waits
  | implied o => exact finish_waits
  | branch o => exact ⟨fun _ _ _ _ => ⟨rfl, rfl⟩, fun _ _ _ _ => ⟨rfl, rfl⟩, finish_waits⟩
  | push o => exact ⟨goOn_waits, finish_waits⟩
  | pull o => exact ⟨goOn_waits, goOn_waits, finish_waits⟩
  | jmpAbs => exact ⟨goOn_waits, finish_waits⟩
  | jmpInd => exact ⟨goOn_waits, goOn_waits, goOn_waits, finish_waits⟩
  | jsr => exact ⟨goOn_waits, goOn_waits, goOn_waits, goOn_waits, finish_waits⟩
  | rts => exact ⟨goOn_waits, goOn_waits, goOn_waits, goOn_waits, finish_waits⟩
  | rti => exact ⟨goOn_waits, goOn_waits, goOn_waits, goOn_waits, finish_waits⟩
  | brk => exact absurd rfl h

/-- The flags but I, which an exception sets before its last line (R220, R221). -/
def Flags.butI (p : Flags) : Flags := { p with i := false }

/-- The flags but I and D, which a reset changes before its last line (R222). -/
def Flags.butID (p : Flags) : Flags := { p with i := false, d := false }

theorem exceptionLines_waits (brk : Bool) : (exceptionLines brk).Forall (Line.Waits Flags.butI) := by
  refine ⟨goOn_waits, goOn_waits, goOn_waits, fun s _ _ _ => ⟨?_, rfl⟩, finish_waits⟩
  change (selectVector s).committed Flags.butI = _
  unfold selectVector
  split <;> rfl

/-- The flags that a sequence leaves alone until its last line: all, but for I in an exception and for I and D in a reset. -/
def Micro.keptFlags (m : Micro) : Flags → Flags :=
  match m.seq with
  | .reset => Flags.butID
  | .int => Flags.butI
  | .instr => if m.opcode = 0x00 then Flags.butI else id

theorem fetchLine_waits (keep : Flags → Flags) : fetchLine.Waits keep := fun _ v u _ => by
  refine ⟨rfl, ?_⟩
  rw [fetchLine_after]
  split <;> rfl

theorem opcodeLines_waits (b : Byte) :
    (opcodeLines b).Forall (Line.Waits (if b = 0x00 then Flags.butI else id)) := by
  by_cases hb : b = 0x00
  · subst hb
    exact ⟨goOn_waits, exceptionLines_waits true⟩
  rw [if_neg hb]
  cases hl : lookup b with
  | none =>
    rw [opcodeLines_of_illegal hl]
    exact finish_waits
  | some op =>
    rw [opcodeLines_of_lookup hl]
    refine opLines_waits fun hop => hb ?_
    subst hop
    exact (Option.some.inj (codeOf_lookup hl)).symm

theorem sequenceLines_waits (s : State) : s.sequenceLines.Forall (Line.Waits s.micro.keptFlags) := by
  unfold State.sequenceLines Micro.keptFlags
  cases s.micro.seq with
  | reset => exact ⟨fun _ _ _ _ => ⟨rfl, rfl⟩, goOn_waits, goOn_waits, goOn_waits, goOn_waits, goOn_waits, finish_waits⟩
  | int => exact ⟨goOn_waits, goOn_waits, exceptionLines_waits false⟩
  | instr => exact (List.forall_cons _ _ _).2 ⟨fetchLine_waits _, opcodeLines_waits _⟩

theorem State.committed_eq_of_file {s t : State} (h : t.file = s.file) (keep : Flags → Flags) :
    t.committed keep = s.committed keep := by
  obtain ⟨ha, hx, hy, -, hp⟩ := RegisterFile.mk.inj h
  rw [State.committed, State.committed, ha, hx, hy, hp]

theorem perform_file {acc : Access} {s t : State} {v : Byte} (h : acc.perform s = .next (v, t)) : t.file = s.file := by
  cases acc with
  | read a => exact busRead_file h
  | write a w =>
    obtain ⟨u, hu, ht⟩ := andThen_eq_next.1 h
    cases ht
    exact busWrite_file hu

theorem State.begun_file (s : State) : s.begun.file = s.file := (congrArg State.file s.begun_eq :)

/-- A tick that is not the last of its sequence keeps what the sequence commits on its last line. -/
theorem tick_committed {s t : State} (hs : s.halted = none) (h : tick s = .next t) (hi : t.micro.cycleIndex ≠ 0) :
    t.committed t.micro.keptFlags = s.committed t.micro.keptFlags := by
  by_cases hf : s.micro.cycleIndex = 0 ∧ s.nextSeq = .instr
  · obtain ⟨hc, hq⟩ := hf
    obtain ⟨b, u, hu, rfl⟩ := tick_fetched hs hc hq h
    have hfile : u.file = s.file := by simp only [State.file, hu.a, hu.x, hu.y, hu.sp, hu.p]; rfl
    refine State.committed_eq_of_file ?_ _
    split <;> exact hfile
  · obtain ⟨l, v, u, hl, -, hu, rfl⟩ := tick_steady hs hf h
    have hlast : (l.after v u).2 = false := by
      cases hlast : (l.after v u).2 with
      | true => rw [hlast] at hi; exact absurd rfl hi
      | false => rfl
    obtain ⟨hbefore, hafter⟩ := List.forall_iff_forall_mem.1 (sequenceLines_waits s.begun) l hl s.begun v u hlast
    calc (l.after v u).1.committed s.begun.micro.keptFlags
        = u.committed _ := hafter
      _ = (l.before s.begun).committed _ := State.committed_eq_of_file (perform_file hu) _
      _ = s.begun.committed _ := hbefore
      _ = s.committed _ := State.committed_eq_of_file s.begun_file _

/-- Settles O53: the kept flags are read off for each kind of sequence. -/
theorem registersCommitOnTheLastCycle : Obligations.RegistersCommitOnTheLastCycle := by
  intro s t hs h hi
  have hkept := tick_committed hs h hi
  simp only [State.committed, Prod.mk.injEq, Micro.keptFlags] at hkept
  obtain ⟨ha, hx, hy, hp⟩ := hkept
  cases hq : t.micro.seq with
  | reset =>
    rw [hq] at hp
    injection hp with hn hv _ _ hz hc
    exact ⟨ha, hx, hy, hn, hv, hz, hc, .inr rfl, .inr (.inl (by decide))⟩
  | int =>
    rw [hq] at hp
    injection hp with hn hv hd _ hz hc
    exact ⟨ha, hx, hy, hn, hv, hz, hc, .inl hd, .inr (.inl (by decide))⟩
  | instr =>
    rw [hq] at hp
    by_cases ho : t.micro.opcode = 0x00
    · rw [if_pos ho] at hp
      injection hp with hn hv hd _ hz hc
      exact ⟨ha, hx, hy, hn, hv, hz, hc, .inl hd, .inr (.inr ho)⟩
    · rw [if_neg ho] at hp
      have hp : t.p = s.p := hp
      rw [hp]
      exact ⟨ha, hx, hy, rfl, rfl, rfl, rfl, .inl rfl, .inl rfl⟩

/-! ## The latches and the wires that no line looks at (R224, R263) -/

/-- The state with the wires `f` and the latches `k`, but for the NMI that is latched. -/
def State.rewired (k : Latches) (f : Fabric) (s : State) : State :=
  (s.setFabric f).setLines { k with nmiPending := s.lines.nmiPending }

/-- The line neither looks at nor changes the wires and the latches but the NMI that is latched. What holds of a line by
definition need not be given. -/
structure Line.Blind (l : Line) : Prop where
  before : ∀ k f s, l.before (s.rewired k f) = (l.before s).rewired k f := by intros; rfl
  access : ∀ k f s, l.access (s.rewired k f) = l.access s := by intros; rfl
  after : ∀ k f v s, l.after v (s.rewired k f) = ((l.after v s).1.rewired k f, (l.after v s).2) := by intros; rfl

theorem readEffect_rewired (o : ReadOp) (k : Latches) (f : Fabric) (v : Byte) (s : State) :
    readEffect o v (s.rewired k f) = (readEffect o v s).rewired k f := by
  cases o <;> rfl

theorem impliedEffect_rewired (o : ImpliedOp) (k : Latches) (f : Fabric) (s : State) :
    impliedEffect o (s.rewired k f) = (impliedEffect o s).rewired k f := by
  cases o <;> rfl

theorem writeValue_rewired (o : WriteOp) (k : Latches) (f : Fabric) (s : State) :
    writeValue o (s.rewired k f) = writeValue o s := by
  cases o <;> rfl

theorem selectVector_rewired (k : Latches) (f : Fabric) (s : State) :
    selectVector (s.rewired k f) = (selectVector s).rewired k f := by
  unfold selectVector
  rw [show (s.rewired k f).lines.nmiPending = s.lines.nmiPending from rfl]
  split <;> rfl

@[simp] theorem lowLine_blind : lowLine.Blind := {}

@[simp] theorem highLine_blind : highLine.Blind := {}

@[simp] theorem highIndexedLine_blind (i : Index) : (highIndexedLine i).Blind := by
  cases i <;> exact {}

@[simp] theorem zeroPageIndexLine_blind (i : Index) : (zeroPageIndexLine i).Blind := by
  cases i <;> exact {}

@[simp] theorem izxLines_blind : izxLines.Forall Line.Blind := ⟨{}, {}, {}, {}⟩

@[simp] theorem izyLines_blind : izyLines.Forall Line.Blind := ⟨{}, {}, {}⟩

@[simp] theorem fixPageLine_blind : fixPageLine.Blind where
  after k f v s := by
    simp only [fixPageLine, goOn, discarded, apply_ite (State.rewired k f)]
    rfl

@[simp] theorem indexedDataLine_blind (o : ReadOp) : (indexedDataLine o).Blind where
  after k f v s := by
    have hm : ((s.rewired k f).setOperand v).micro.pageCross = (s.setOperand v).micro.pageCross := rfl
    simp only [indexedDataLine, hm]
    split
    · rfl
    · exact congrArg (·, true) (readEffect_rewired o k f v (s.setOperand v))

section
variable {ea : State → Addr} (he : ∀ k f s, ea (State.rewired k f s) = ea s)
include he

theorem dataLine_blind (o : ReadOp) : (dataLine ea o).Blind where
  access k f s := congrArg Access.read (he k f s)
  after k f v s := congrArg (·, true) (readEffect_rewired o k f v (s.setOperand v))

theorem storeLine_blind (o : WriteOp) : (storeLine ea o).Blind where
  access k f s := congrArg₂ Access.write (he k f s) (writeValue_rewired o k f s)

theorem modifyLines_blind (o : RmwOp) : (modifyLines ea o).Forall Line.Blind :=
  ⟨{ access := fun k f s => congrArg Access.read (he k f s) },
   { access := fun k f s => congrArg (Access.write · s.micro.operand) (he k f s) },
   { access := fun k f s => congrArg (Access.write · s.micro.operand) (he k f s) }⟩

end

theorem exceptionLines_blind (brk : Bool) : (exceptionLines brk).Forall Line.Blind :=
  ⟨{}, {}, {}, { before := selectVector_rewired }, {}⟩

theorem impliedLines_blind {f : State → State} (hf : ∀ k g s, f (State.rewired k g s) = (f s).rewired k g) :
    (impliedLines f).Forall Line.Blind :=
  { after := fun k g _ s => congrArg (·, true) (hf k g s) : Line.Blind _ }

theorem opLines_blind (op : Op) : (opLines op).Forall Line.Blind := by
  cases op with
  | read o k =>
    have hz := dataLine_blind (ea := State.zeroPageEa) (fun _ _ _ => rfl) o
    have hl := dataLine_blind (ea := State.latchedAddr) (fun _ _ _ => rfl) o
    cases k with
    | imm => exact { after := fun k f v s => congrArg (·, true) (readEffect_rewired o k f v (s.incPc.setOperand v)) }
    | _ => simp [opLines, readLines, hz, hl]
  | write o k =>
    have hz := storeLine_blind (ea := State.zeroPageEa) (fun _ _ _ => rfl) o
    have hl := storeLine_blind (ea := State.latchedAddr) (fun _ _ _ => rfl) o
    cases k <;> simp [opLines, writeLines, hz, hl]
  | rmw o k =>
    have hz := modifyLines_blind (ea := State.zeroPageEa) (fun _ _ _ => rfl) o
    have hl := modifyLines_blind (ea := State.latchedAddr) (fun _ _ _ => rfl) o
    cases k <;> simp [opLines, rmwLines, hz, hl]
  | acc o => exact impliedLines_blind fun _ _ _ => rfl
  | implied o => exact impliedLines_blind (impliedEffect_rewired o)
  | branch o => exact ⟨{}, {}, {}⟩
  | push o => cases o <;> exact ⟨{}, {}⟩
  | pull o => cases o <;> exact ⟨{}, {}, {}⟩
  | jmpAbs => exact ⟨{}, {}⟩
  | jmpInd => exact ⟨{}, {}, {}, {}⟩
  | jsr => exact ⟨{}, {}, {}, {}, {}⟩
  | rts => exact ⟨{}, {}, {}, {}, {}⟩
  | rti => exact ⟨{}, {}, {}, {}, {}⟩
  | brk => exact ⟨{}, exceptionLines_blind true⟩

theorem fetchLine_blind : fetchLine.Blind where
  after k f v s := by
    simp only [fetchLine_after, apply_ite (State.rewired k f)]
    rfl

theorem sequenceLines_blind (s : State) : s.sequenceLines.Forall Line.Blind := by
  unfold State.sequenceLines
  split
  · exact ⟨{}, {}, {}, {}, {}, {}, {}⟩
  · exact ⟨{}, {}, exceptionLines_blind false⟩
  · refine (List.forall_cons _ _ _).2 ⟨fetchLine_blind, ?_⟩
    unfold opcodeLines
    split
    · exact opLines_blind _
    · exact impliedLines_blind fun _ _ _ => rfl

theorem perform_rewired {s : State} (hn : ∀ a, s.noHandler a) (acc : Access) (k : Latches) (f : Fabric) :
    acc.perform (s.rewired k f) = andThen (acc.perform s) fun r => .next (r.1, r.2.rewired k f) := by
  have hn' : ∀ a, (s.rewired k f).noHandler a := hn
  rw [perform_noHandler hn', perform_noHandler hn]
  rfl

/-- Over storage such a line does the same with other wires and latches. -/
theorem Line.Blind.doLine_rewired {l : Line} (h : l.Blind) (k : Latches) (f : Fabric) {s : State}
    (hn : ∀ a, (l.before s).noHandler a) :
    doLine l (s.rewired k f) = andThen (doLine l s) fun t => .next (t.rewired k f) := by
  have hrun : l.run (s.rewired k f) = andThen (l.run s) fun r => .next (r.1.rewired k f, r.2) := by
    simp only [Line.run, h.before, h.access, perform_rewired hn, h.after, andThen_assoc, andThen_next]
  rw [doLine_eq, hrun, doLine_eq, andThen_assoc, andThen_assoc]
  refine andThen_congr fun r _ => ?_
  have hhalted : (r.1.rewired k f).halted = r.1.halted := rfl
  simp only [andThen_next, hhalted]
  split <;> rfl

/-- Over storage a tick does the same where it begins the same with other wires and latches. -/
theorem tick_rewired {r s : State} (hn : ∀ a, s.noHandler a) (hs : s.halted = none) {k : Latches} {f : Fabric}
    (hr : r.begun = s.begun.rewired k f) : tick r = andThen (tick s) fun t => .next (t.rewired k f) := by
  have hrs : r.halted = none := by
    rw [← r.begun_halted, hr]
    exact s.begun_halted.trans hs
  have hlines : r.begun.sequenceLines[r.begun.micro.cycleIndex]? = s.begun.sequenceLines[s.begun.micro.cycleIndex]? := by
    rw [hr]
    rfl
  rw [tick_running hrs, hlines, tick_running hs, hr]
  cases hl : s.begun.sequenceLines[s.begun.micro.cycleIndex]? with
  | none => rfl
  | some l =>
    have hmem := List.mem_of_getElem? hl
    exact (List.forall_iff_forall_mem.1 (sequenceLines_blind _) l hmem).doLine_rewired k f
      (noHandler_of_mem hn (((sequenceLines_inside _ l hmem).1 _).mem.trans s.begun_outside.mem))

/-- Over storage a tick leaves the wires as they are, and the latches that it does not examine as it begins. -/
theorem tick_wiring {s t : State} (hn : ∀ a, s.noHandler a) (hs : s.halted = none) (h : tick s = .next t) :
    t.rewired s.begun.lines s.fabric = t := by
  have hself : s.begun = s.begun.rewired s.begun.lines s.fabric := by
    rw [← s.begun_outside.fabric]
    rfl
  have hrun := tick_rewired hn hs hself
  rw [h, andThen_next] at hrun
  exact (Host.Outcome.next.inj hrun).symm

/-- Settles O54: in the middle of a sequence nothing begins, and its lines are blind to these latches. -/
theorem latchesExaminedOnlyAtBoundaries : Obligations.LatchesExaminedOnlyAtBoundaries := by
  intro s l hn hc hl
  have hrewired : s.setLines l = s.rewired l s.fabric := by
    rw [State.rewired, ← hl]
    rfl
  by_cases hs : s.halted = none
  · have hbegun : (s.setLines l).begun = s.begun.rewired l s.fabric := by
      rw [State.begun_of_inside (s := s.setLines l) hc, State.begun_of_inside hc, hrewired]
    rw [tick_rewired hn hs hbegun]
    refine andThen_congr fun t ht => ?_
    rw [← tick_wiring hn hs ht]
    rfl
  · rw [tick_halted (s := s.setLines l) hs, tick_halted hs, andThen_next, ← hl]

end Sys2Proof.Machine
end

section
/-! Interrupt entry and the reset sequence as steps from a boundary (R221, R222, R263, R269, R270), and the frame that an
exception leaves in RAM. -/

namespace Sys2Proof.Machine

/-! ## The kind of the sequence plays no part in an access -/

theorem cpuOnly_setSeq (q : Seq) : CpuOnly fun s => s.setSeq q := fun _ _ => rfl

theorem busRead_setSeq (a : Addr) (q : Seq) (s : State) :
    busRead a (s.setSeq q) = andThen (busRead a s) fun r => .next (r.1, r.2.setSeq q) := (cpuOnly_setSeq q).busRead a s

theorem busWrite_setSeq (a : Addr) (v : Byte) (q : Seq) (s : State) :
    busWrite a v (s.setSeq q) = andThen (busWrite a v s) fun t => .next (t.setSeq q) := (cpuOnly_setSeq q).busWrite a v s

theorem discardReads_setSeq (as : List Addr) (q : Seq) (s : State) :
    discardReads as (s.setSeq q) = andThen (discardReads as s) fun t => .next (t.setSeq q) := by
  induction as generalizing s with
  | nil => rfl
  | cons a as ih => simp only [discardReads_cons, busRead_setSeq, andThen_assoc, andThen_next, ih]

theorem exceptionThrough_setSeq (r : Addr) (brk : Bool) (q : Seq) (s : State) :
    exceptionThrough r brk (s.setSeq q) = andThen (exceptionThrough r brk s) fun t => .next (t.setSeq q) := by
  have hlatches (t : State) (l : Latches) : (t.setSeq q).setLines l = (t.setLines l).setSeq q := rfl
  have hlines (t : State) : (t.setSeq q).lines = t.lines := rfl
  simp only [exceptionThrough, busRead_setSeq, busWrite_setSeq, hlatches, hlines, andThen_assoc, andThen_next]
  rfl

/-- What an operation answers but for the kind of the sequence shows the same. -/
theorem sameAnswer_setSeq {r r' : Res State} {q : Seq} (h : r = andThen r' fun t => .next (t.setSeq q)) : SameAnswer r r' := by
  rw [SameAnswer, h, andThen_assoc]
  rfl

/-! ## Interrupt entry -/

/-- The accesses of an interrupt entry: two discarded reads at `PC`, then the exception (R221). -/
theorem interruptEntry_through (s : State) :
    SameAnswer (interruptEntry s) (andThen (discardReads [s.pc, s.pc] s) (exceptionThrough s.pc false)) := by
  have hentry : interruptEntry s = andThen (discardReads [s.pc, s.pc] s) (takeException false) := by
    simp only [interruptEntry, discardRead, discardReads_cons, discardReads_nil, andThen_assoc, andThen_next]
    refine andThen_congr fun r hr => ?_
    have hpc : r.2.pc = s.pc := (busRead_bystander hr).pc
    rw [hpc]
  rw [SameAnswer, hentry, andThen_assoc, andThen_assoc]
  refine andThen_congr fun t ht => ?_
  have hpc : t.pc = s.pc := (congrArg State.pc (discardReads_keeps ht)).symm
  rw [← hpc]
  exact takeException_through false t

/-- The step at a boundary with an interrupt due, whatever answers its accesses (R263). -/
theorem step_interrupt {s : State} (hs : s.halted = none) (hc : s.micro.cycleIndex = 0) (hq : s.nextSeq = .int) :
    SameAnswer (step s) (andThen (discardReads [s.pc, s.pc] s) (exceptionThrough s.pc false)) := by
  have hbegin : s.beginSequence = s.setSeq .int := by
    simp only [State.beginSequence, hq]
    rfl
  have hstep : step s = interruptEntry (s.setSeq .int) := by
    rw [step_boundary hs hc, hq, hbegin]
  rw [hstep]
  refine (interruptEntry_through (s.setSeq .int)).trans (sameAnswer_setSeq (q := .int) ?_)
  change andThen (discardReads [s.pc, s.pc] (s.setSeq .int)) (exceptionThrough s.pc false) = _
  simp only [discardReads_setSeq, andThen_assoc, andThen_next, exceptionThrough_setSeq]

/-- Settles O35: the entry is the exception written out on the bus, with the state that storage gives it. -/
theorem interruptEntryCompletes : Obligations.InterruptEntryCompletes := by
  intro s hs hc hreset hdue
  have hq : s.nextSeq = .int := by
    have hint : s.interruptDue = true := by
      rw [State.interruptDue]
      obtain hnmi | ⟨hirq, hi⟩ := hdue
      · simp [hnmi]
      · simp [hirq, hi]
    simp [State.nextSeq, hreset, hint]
  have hstep := step_interrupt hs hc hq
  refine ⟨fun hm hn => ⟨?_, sameBut_pushFrame hm _ _ _⟩, hstep⟩
  obtain ⟨hpc, hrest⟩ := List.forall_mem_cons.1 hn
  have hreads : discardReads [s.pc, s.pc] s = .next { s with cycles := s.cycles + 2 } :=
    discardReads_noHandler (List.forall_mem_cons.2 ⟨hpc, List.forall_mem_singleton.2 hpc⟩)
  have hexception := exceptionThrough_noHandler (s := { s with cycles := s.cycles + 2 }) s.pc false
    fun a ha => hrest a (exceptionAccesses_subset s ha)
  rw [hreads, andThen_next, hexception] at hstep
  exact hstep.next

/-- Settles O36: the three addresses are those of the pushes. -/
theorem exceptionFrameInRam : Obligations.ExceptionFrameInRam := fun _ _ status r hm hhi hlo hstatus =>
  ⟨peek_pushFrame_hi hm hhi r status, peek_pushFrame_lo hm hlo r status, peek_pushFrame_status hm hstatus r status⟩

/-! ## Reset -/

/-- Settles O39: at a boundary a queued reset begins, and its sequence is the one written out on the bus. -/
theorem resetSequenceCompletes : Obligations.ResetSequenceCompletes := by
  intro s hs hc hr s'
  refine ⟨step_reset_noHandler hs hc hr, ?_⟩
  have hq : s.nextSeq = .reset := by rw [State.nextSeq, if_pos hr]
  have hbegin : s.beginSequence = s'.setSeq .reset := by
    simp only [State.beginSequence, hq]
    rfl
  have hstep : step s = resetSequence (s'.setSeq .reset) := by
    rw [step_boundary hs hc, hq, hbegin]
  rw [hstep]
  refine (resetSequence_through (s'.setSeq .reset)).trans (sameAnswer_setSeq (q := .reset) ?_)
  simp only [discardReads_setSeq, busRead_setSeq, andThen_assoc, andThen_next]
  rfl

end Sys2Proof.Machine
end

section
/-! The inputs of the CPU, the calls that wires reject, a write of a wire and its deliveries (R230 to R235, R246, R248). -/

namespace Sys2Proof.Machine

/-! ## Inputs and rejected calls -/

/-- Settles O56: calls and deliveries make the same change of the latches. -/
theorem inputsSetTheirLatches : Obligations.InputsSetTheirLatches := by
  intro v s onRise write e l irq nmi
  have hreset : resetCall s = s.setLines { l with resetPending := true } := by
    rw [resetCall, Latches.resetLine, Bool.or_true]
  exact ⟨rfl, rfl, hreset, rfl, rfl, rfl⟩

/-- Settles O60: each of the calls looks at what it rejects before it changes anything. -/
theorem rejectedWireCalls : Obligations.RejectedWireCalls := by
  intro src id k v s
  refine ⟨fun w hw hsource => ?_, fun w hw hwide => ?_, fun hnone => ⟨?_, ?_⟩⟩
  · simp only [bindSource, hw, hsource, Bool.true_or, if_true]
  · simp only [connect, hw, bne_iff_ne.2 hwide, if_true]
  · simp only [hostWrite, hnone]
  · simp only [connect, hnone]

/-! ## A write of a wire -/

theorem hostWrite_eq {src : EndpointId} {w : Wire} {s : State} (hw : s.fabric.wireOfSource src = some w) (v : Signal) :
    hostWrite src v s = writeWire tick src v s := by
  simp only [hostWrite, hw]

/-- A host's write stores the value and makes the delivery of every sink (R232). -/
theorem hostWrite_deliverInOrder {src : EndpointId} {v : Signal} {w : Wire} {s : State}
    (hw : s.fabric.wireOfSource src = some w) (hd : w.id ∉ s.fabric.delivering) (hv : isWide v = isWide w.value) :
    hostWrite src v s =
      deliverInOrder tick (writeWire tick) w v w.sinks { s with fabric := s.fabric.setWire { w with value := v } } := by
  rw [hostWrite_eq hw, writeWire_eq (fun _ _ => tick_sameWires) hw hd hv]
  rfl

/-- What a sink that is an IRQ, NMI or RESET input makes of the latches, any other sink nothing (R248). -/
def Sink.latch (b : Bool) (l : Latches) (k : Sink) : Latches :=
  match k.action with
  | .cpu .irq => l.irqLine b
  | .cpu .nmi => l.nmiLine b
  | .cpu .reset => l.resetLine b
  | _ => l

/-- Deliveries to such inputs change the latches alone. -/
theorem runAll_deliver_latches {onRise : State → Res State} {write : EndpointId → Signal → State → Res State} (b : Bool)
    {ks : List Sink} (h : ∀ k ∈ ks, k.action = .cpu .irq ∨ k.action = .cpu .nmi ∨ k.action = .cpu .reset) (s : State) :
    runAll (deliverTo onRise write (.bit b)) ks s = .next (s.setLines (ks.foldl (Sink.latch b) s.lines)) := by
  induction ks generalizing s with
  | nil => rfl
  | cons k ks ih =>
    obtain ⟨hk, hks⟩ := List.forall_mem_cons.1 h
    have hdeliver : deliverTo onRise write (.bit b) k s = .next (s.setLines (k.latch b s.lines)) := by
      obtain ⟨e, action⟩ := k
      obtain rfl | rfl | rfl := hk <;> rfl
    rw [runAll_cons, hdeliver, andThen_next, ih hks]
    rfl

theorem connect_deliverInOrder {src : EndpointId} {w : Wire} {s : State} (hw : s.fabric.wireOfSource src = some w) {k : Sink}
    (hk : k.wide = isWide w.value) :
    connect src k s =
      deliverInOrder tick (writeWire tick) w w.value [k]
        { s with fabric := s.fabric.setWire { w with sinks := w.sinks ++ [k] } } := by
  simp only [connect, hw, hk, bne_self_eq_false, Bool.false_eq_true, if_false]
  rfl

/-- The clock input ticks on a rising edge and remembers the level (R246). -/
theorem deliverTo_clock (onRise : State → Res State) (write : EndpointId → Signal → State → Res State) (e : EndpointId)
    (b : Bool) (s : State) :
    deliverTo onRise write (.bit b) { endpoint := e, action := .cpu .clock } s =
      andThen (if b = true ∧ s.lines.clkPrev = false then onRise s else .next s) fun t =>
        .next { t with lines := { t.lines with clkPrev := b } } := by
  have hedge : (b && !s.lines.clkPrev) = true ↔ b = true ∧ s.lines.clkPrev = false := by simp
  simp only [deliverTo, cpuInput, onClock, hedge]
  rfl

/-- Settles O57: the write and the connect make their deliveries by `runAll`, which is the fold of the statement. -/
theorem wireWriteReachesEverySink : Obligations.WireWriteReachesEverySink := by
  intro src v w s hw
  refine ⟨fun w' hid => ⟨rfl, Fabric.wire_setWire (Fabric.wireOfSource_mem hw).1 hid⟩,
    fun hd => (hostWrite_eq hw v).trans (writeWire_delivering hw hd),
    fun hd hv => (hostWrite_eq hw v).trans (writeWire_illTyped hw hd hv), hostWrite_deliverInOrder hw, fun b hd hv hk => ?_,
    fun _ => connect_deliverInOrder hw, fun onRise write e n b wide => ⟨deliverTo_clock onRise write e b s, ?_⟩⟩
  · rw [hostWrite_eq hw, writeWire_eq (fun _ _ => tick_sameWires) hw hd (v := .bit b) hv.symm, whileDelivering,
      runAll_deliver_latches b hk]
    rfl
  · refine congrArg (List.foldl · _ _) (funext fun r => funext fun c => congrArg (andThen r) (funext fun t => ?_))
    cases c <;> rfl

end Sys2Proof.Machine
end

section
/-! The clock (R241) and what one of its periods does to a CPU on its wire (R246, R247, R301). -/

namespace Sys2Proof.Machine

/-! ## The clock's step -/

section
variable {s : State} (hpos : 0 < s.platform.periodSteps s.fabric.clock.frequency)
include hpos

theorem clockStep_counts (h : s.fabric.clock.phase + 1 < s.platform.periodSteps s.fabric.clock.frequency) :
    clockStep s =
      .next (s.setFabric { s.fabric with clock := { s.fabric.clock with phase := s.fabric.clock.phase + 1 } }) := by
  simp only [clockStep, Clock.advance, Nat.ne_of_gt hpos, Nat.not_le.2 h, if_false, Bool.false_eq_true]

theorem clockStep_toggles (h : s.platform.periodSteps s.fabric.clock.frequency ≤ s.fabric.clock.phase + 1) :
    clockStep s =
      writeWire tick clockEndpoint (.bit !s.fabric.clock.out)
        (s.setFabric { s.fabric with clock := { s.fabric.clock with phase := 0, out := !s.fabric.clock.out } }) := by
  simp only [clockStep, Clock.advance, Nat.ne_of_gt hpos, h, if_false, if_true]

end

/-- Settles O58: below the period and at it. -/
theorem clockStepTogglesAtThePeriod : Obligations.ClockStepTogglesAtThePeriod :=
  fun _ hpos => ⟨clockStep_counts hpos, clockStep_toggles hpos⟩

/-! ## Half a period of harness steps -/

theorem runAll_append {α : Type} (f : α → State → Res State) (xs ys : List α) (s : State) :
    runAll f (xs ++ ys) s = andThen (runAll f xs s) (runAll f ys) := by
  induction xs generalizing s with
  | nil => rfl
  | cons x xs ih =>
    rw [List.cons_append, runAll_cons, runAll_cons, andThen_assoc]
    exact andThen_congr fun t _ => ih t

theorem happenAll_append (es es' : List Event) (s : State) :
    happenAll (es ++ es') s = andThen (happenAll es s) (happenAll es') := runAll_append happen es es' s

/-- After `n` harness steps the counter and the phase are `n` on (R241, R247). -/
def Fabric.counted (n : Nat) (f : Fabric) : Fabric :=
  { f with tickCount := f.tickCount + n, clock := { f.clock with phase := f.clock.phase + n } }

/-- After the `n`th step of half a period the output is the other (R241, R247). -/
def Fabric.toggled (n : Nat) (f : Fabric) : Fabric :=
  { f with tickCount := f.tickCount + n, clock := { f.clock with phase := 0, out := !f.clock.out } }

theorem computerStep_eq (s : State) :
    computerStep s = clockStep (s.setFabric { s.fabric with tickCount := s.fabric.tickCount + 1 }) := andThen_id _

/-- Below the period harness steps count (R241). -/
theorem computerSteps_count {s : State} {n : Nat}
    (h : s.fabric.clock.phase + n < s.platform.periodSteps s.fabric.clock.frequency) :
    happenAll (List.replicate n .computerStep) s = .next (s.setFabric (s.fabric.counted n)) := by
  induction n with
  | zero => rfl
  | succ n ih =>
    have hstep : computerStep (s.setFabric (s.fabric.counted n)) = .next (s.setFabric (s.fabric.counted (n + 1))) :=
      (computerStep_eq _).trans (clockStep_counts (Nat.zero_lt_of_lt h) h)
    rw [List.replicate_succ', happenAll_append, ih (Nat.lt_of_succ_lt h), andThen_next]
    exact hstep

/-- Half a period of harness steps is one write of the clock's wire (R241). -/
theorem computerSteps_toggle {s : State} (hphase : s.fabric.clock.phase = 0) {n : Nat}
    (hn : s.platform.periodSteps s.fabric.clock.frequency = n) (hpos : 0 < n) :
    happenAll (List.replicate n .computerStep) s =
      writeWire tick clockEndpoint (.bit !s.fabric.clock.out) (s.setFabric (s.fabric.toggled n)) := by
  obtain ⟨m, rfl⟩ := Nat.exists_eq_add_one_of_ne_zero (Nat.ne_of_gt hpos)
  have hreached : s.platform.periodSteps s.fabric.clock.frequency ≤ s.fabric.clock.phase + m + 1 := by omega
  have hlast : computerStep (s.setFabric (s.fabric.counted m)) =
      writeWire tick clockEndpoint (.bit !s.fabric.clock.out) (s.setFabric (s.fabric.toggled (m + 1))) :=
    (computerStep_eq _).trans (clockStep_toggles (hn ▸ hpos) hreached)
  rw [List.replicate_succ', happenAll_append, computerSteps_count (by omega), andThen_next]
  exact hlast

/-! ## The wires -/

theorem Fabric.setWire_setWire (f : Fabric) {u v : Wire} (h : u.id = v.id) : (f.setWire u).setWire v = f.setWire v := by
  unfold Fabric.setWire
  simp only [List.map_map, Function.comp_def]
  congr 1
  refine List.map_congr_left fun w _ => ?_
  split_ifs <;> simp_all

/-- To write what is there changes nothing: no other wire has the identifier (R230). -/
theorem Fabric.setWire_self {f : Fabric} (hf : f.wf = true) {w : Wire} (hw : w ∈ f.wires) : f.setWire w = f := by
  simp only [Fabric.wf, Bool.and_eq_true, decide_eq_true_eq] at hf
  obtain ⟨⟨hids, -⟩, -⟩ := hf
  have hmap : f.wires.map (fun u => if u.id = w.id then w else u) = f.wires.map id := by
    refine List.map_congr_left fun u hu => ?_
    split_ifs with hid
    · exact List.inj_on_of_nodup_map hids hw hu hid.symm
    · rfl
  rw [Fabric.setWire, hmap, List.map_id]

/-- A replaced wire still is the wire of its source. -/
theorem Fabric.wireOfSource_setWire {f : Fabric} {e : EndpointId} {w w' : Wire} (hw : f.wireOfSource e = some w)
    (hid : w'.id = w.id) (hsource : w'.source = w.source) : (f.setWire w').wireOfSource e = some w' := by
  have he : w'.source = some e := hsource.trans (Fabric.wireOfSource_mem hw).2
  unfold Fabric.wireOfSource at hw
  change (f.wires.map fun u => if u.id = w'.id then w' else u).find? _ = _
  generalize f.wires = ws at hw ⊢
  induction ws with
  | nil => cases hw
  | cons u us ih =>
    rw [List.map_cons]
    split_ifs with hu
    · rw [List.find?_cons_of_pos (by simp [he])]
    · by_cases hue : u.source = some e
      · rw [List.find?_cons_of_pos (by simp [hue])] at hw
        exact absurd (hid.symm ▸ congrArg Wire.id (Option.some.inj hw)) hu
      · rw [List.find?_cons_of_neg (by simp [hue])] at hw ⊢
        exact ih hw

/-! ## A clock edge on the wire of the CPU -/

theorem State.setFabric_begun (s : State) (f : Fabric) : (s.setFabric f).begun = s.begun.setFabric f := by
  have hq : (s.setFabric f).nextSeq = s.nextSeq := rfl
  unfold State.begun State.beginSequence
  simp only [hq, State.setFabric_micro]
  split_ifs <;> rfl

/-- Over storage a tick does the same with other wires. -/
theorem tick_setFabric {s : State} (hn : ∀ a, s.noHandler a) (f : Fabric) :
    tick (s.setFabric f) = andThen (tick s) fun t => .next (t.setFabric f) := by
  by_cases hs : s.halted = none
  · have hbegun : (s.setFabric f).begun = s.begun.rewired s.begun.lines f := s.setFabric_begun f
    rw [tick_rewired hn hs hbegun]
    refine andThen_congr fun t ht => ?_
    rw [← tick_wiring hn hs ht]
    rfl
  · rw [tick_halted (s := s.setFabric f) hs, tick_halted hs, andThen_next]

theorem tick_clkPrev {s t : State} (hn : ∀ a, s.noHandler a) (h : tick s = .next t) : t.lines.clkPrev = s.lines.clkPrev := by
  by_cases hs : s.halted = none
  · rw [← tick_wiring hn hs h]
    exact (congrArg (fun u : State => u.lines.clkPrev) s.begun_eq :)
  · rw [tick_halted hs] at h
    cases h
    rfl

theorem tick_platform {s t : State} (h : tick s = .next t) : t.platform = s.platform := by
  refine tick_keeps (I := fun u => u.platform = s.platform) (fun _ _ hst => hst.platform.trans) ?_ h rfl
  intro acc u v w hperform hu
  obtain ⟨a, rfl⟩ | hb := perform_cases hperform
  · exact hu
  · exact hb.platform.trans hu

theorem Fabric.setWire_delivering {f : Fabric} (hd : f.delivering = []) (w : Wire) :
    ({ f.setWire w with delivering := [] } : Fabric) = f.setWire w := by
  simp only [Fabric.setWire, hd]

/-- The state after an edge of the clock's wire `w` among the wires `f`: `w` and the clock input have the new level. -/
def State.edge (b : Bool) (w : Wire) (f : Fabric) (s : State) : State :=
  (s.setLines { s.lines with clkPrev := b }).setFabric (f.setWire { w with value := .bit b })

section
variable {s : State} {w : Wire} {e : EndpointId} (hd : s.fabric.delivering = [])
  (hw : s.fabric.wireOfSource clockEndpoint = some w) (hv : isWide w.value = false)
  (hk : w.sinks = [{ endpoint := e, action := .cpu .clock }])
include hd hw hv hk

/-- A write of the wire of which the CPU's clock input is the one sink (R232, R246). -/
theorem writeWire_clock (b : Bool) :
    writeWire tick clockEndpoint (.bit b) s =
      andThen
        (if b = true ∧ s.lines.clkPrev = false then
          tick (s.setFabric { s.fabric.setWire { w with value := .bit b } with delivering := [w.id] })
        else .next (s.setFabric { s.fabric.setWire { w with value := .bit b } with delivering := [w.id] }))
        fun t => .next ((t.setLines { t.lines with clkPrev := b }).setFabric
          { t.fabric with delivering := t.fabric.delivering.tail }) := by
  have hd' : w.id ∉ s.fabric.delivering := by rw [hd]; exact List.not_mem_nil
  have hone : [w.id] = w.id :: (s.fabric.setWire { w with value := .bit b }).delivering := congrArg (w.id :: ·) hd.symm
  rw [writeWire_eq (fun _ _ => tick_sameWires) hw hd' (v := .bit b) hv.symm, whileDelivering, hk,
    runAll_cons, deliverTo_clock, andThen_assoc, andThen_assoc, hone]
  rfl

/-- A rising edge over storage is one tick. -/
theorem writeWire_clock_rising (hn : ∀ a, s.noHandler a) (hclk : s.lines.clkPrev = false) :
    writeWire tick clockEndpoint (.bit true) s = andThen (tick s) fun t => .next (t.edge true w s.fabric) := by
  rw [writeWire_clock hd hw hv hk, if_pos ⟨rfl, hclk⟩, tick_setFabric hn, andThen_assoc]
  refine andThen_congr fun t _ => ?_
  rw [State.edge, ← Fabric.setWire_delivering hd]
  rfl

/-- A falling edge ticks nothing. -/
theorem writeWire_clock_falling :
    writeWire tick clockEndpoint (.bit false) s = .next (s.edge false w s.fabric) := by
  rw [writeWire_clock hd hw hv hk, if_neg (by simp), State.edge, ← Fabric.setWire_delivering hd]
  rfl

end

/-- After both edges and the steps of a period only the counter shows that there was a period. -/
theorem edge_edge_toggled {t : State} {w : Wire} {f : Fabric} (n : Nat) (hf : f.wf = true) (hw : w ∈ f.wires)
    (hv : w.value = .bit false) (hphase : f.clock.phase = 0) (hclk : t.lines.clkPrev = false) :
    (t.edge true w (f.toggled n)).edge false { w with value := .bit true }
        ((t.edge true w (f.toggled n)).fabric.toggled n) =
      { t with fabric := { f with tickCount := f.tickCount + 2 * n } } := by
  have hold : ({ w with value := .bit false } : Wire) = w := by rw [← hv]
  have hback : (f.setWire { w with value := .bit true }).setWire { w with value := .bit false } = f := by
    rw [hold]
    exact (f.setWire_setWire (u := { w with value := .bit true }) (v := w) rfl).trans (Fabric.setWire_self hf hw)
  have hclock : ({ f.clock with phase := 0, out := !!f.clock.out } : Clock) = f.clock := by
    rw [Bool.not_not, ← hphase]
  have hlines : ({ t.lines with clkPrev := false } : Latches) = t.lines := by
    rw [← hclk]
  have hfabric : (((f.toggled n).setWire { w with value := .bit true }).toggled n).setWire { w with value := .bit false } =
      { f with tickCount := f.tickCount + 2 * n } := by
    calc (((f.toggled n).setWire { w with value := .bit true }).toggled n).setWire { w with value := .bit false }
        = { (f.setWire { w with value := .bit true }).setWire { w with value := .bit false } with
            tickCount := f.tickCount + n + n, clock := { f.clock with phase := 0, out := !!f.clock.out } } := rfl
      _ = { f with tickCount := f.tickCount + 2 * n } := by rw [hback, hclock, two_mul, Nat.add_assoc]
  calc (t.edge true w (f.toggled n)).edge false { w with value := .bit true }
        ((t.edge true w (f.toggled n)).fabric.toggled n)
      = { t with
          lines := { t.lines with clkPrev := false }
          fabric := (((f.toggled n).setWire { w with value := .bit true }).toggled n).setWire
            { w with value := .bit false } } := rfl
    _ = { t with fabric := { f with tickCount := f.tickCount + 2 * n } } := by rw [hlines, hfabric]

/-- Settles O59: the first half of the period ends in a rising edge, which ticks once, the second in a falling one, which
leaves the wires as they were. -/
theorem oneClockPeriodIsOneCycle : Obligations.OneClockPeriodIsOneCycle := by
  intro s w e hn hwf hfab hd hw hv hk hout hphase hclk hpos
  obtain ⟨t, ht⟩ := tick_noHandler hn hwf
  refine ⟨t, ht, ?_⟩
  generalize hp : s.platform.periodSteps s.fabric.clock.frequency = n at hpos ⊢
  have hwide : isWide w.value = false := by rw [hv]; rfl
  have hfirst : happenAll (List.replicate n .computerStep) s = .next (t.edge true w (s.fabric.toggled n)) := by
    rw [computerSteps_toggle hphase hp hpos, hout, Bool.not_false,
      writeWire_clock_rising (s := s.setFabric (s.fabric.toggled n)) hd hw hwide hk hn hclk, tick_setFabric hn, ht]
    rfl
  have hlast := edge_edge_toggled (t := t) n hfab (Fabric.wireOfSource_mem hw).1 hv hphase
    ((tick_clkPrev hn ht).trans hclk)
  have hplatform := tick_platform ht
  generalize hu : t.edge true w (s.fabric.toggled n) = u at hfirst hlast
  have hsecond : happenAll (List.replicate n .computerStep) u =
      .next (u.edge false { w with value := .bit true } (u.fabric.toggled n)) := by
    have hpu : u.platform.periodSteps u.fabric.clock.frequency = n := by
      rw [← hp, ← hplatform, ← hu]
      rfl
    have hphaseu : u.fabric.clock.phase = 0 := by rw [← hu]; rfl
    have houtu : u.fabric.clock.out = true := by rw [← hu]; exact congrArg not hout
    have hdu : u.fabric.delivering = [] := by rw [← hu]; exact hd
    have hwu : u.fabric.wireOfSource clockEndpoint = some { w with value := .bit true } := by
      rw [← hu]
      exact Fabric.wireOfSource_setWire (f := s.fabric) hw rfl rfl
    rw [computerSteps_toggle hphaseu hpu hpos, houtu, Bool.not_true]
    exact writeWire_clock_falling (s := u.setFabric (u.fabric.toggled n)) hdu hwu rfl hk
  rw [← hlast, two_mul, List.replicate_add, happenAll_append, hfirst, andThen_next, hsecond]

end Sys2Proof.Machine
end

section
/-! Cycle counts over storage (R300): an instruction takes a cycle for each byte fetched first and one for each access after
them, and these are as many as the cycle table says. -/

namespace Sys2Proof.Machine

/-- How many accesses an operation makes after the bytes that are fetched first (R194 to R220). -/
def opAccesses (op : Op) (b1 b2 : Byte) (s : State) : Nat :=
  match op with
  | .read _ k => (readAccesses (k.mode b1 b2) s).length
  | .write _ k => (storeAccesses (k.mode b1 b2) s).length
  | .rmw _ k => (rmwAccesses (k.mode b1 b2) s).length
  | .branch o => (branchAccesses (branchTaken o s.p) b1 s).length
  | .acc _ | .implied _ => 1
  | .push _ | .jmpInd => 2
  | .pull _ => 3
  | .jsr => 4
  | .rts | .rti => 5
  | .brk => 6
  | .jmpAbs => 0

/-! ## An access is a cycle -/

theorem Completes.cycles {i : Instr} {s u : State} (h : Completes i s u) :
    ∃ t, exec i s = .next t ∧ t.cycles = u.cycles := by
  obtain ⟨t, ht, hv⟩ := h
  exact ⟨t, ht, (congrArg State.cycles hv :)⟩

theorem readOp_cycles (o : ReadOp) (m : ReadMode) {s : State} (hn : ∀ a, s.noHandler a) :
    ∃ t, exec (o.instr m) s = .next t ∧ t.cycles = s.cycles + (readAccesses m s).length := by
  obtain ⟨t, ht, hc⟩ := (readOp_completes (o := o) (fun _ _ _ => rfl) fun a _ => hn a).cycles
  exact ⟨t, ht, hc.trans (readEffect_cycles o _ _)⟩

theorem writeOp_cycles (o : WriteOp) (m : WriteMode) {s : State} (hn : ∀ a, s.noHandler a) :
    ∃ t, exec (o.instr m) s = .next t ∧ t.cycles = s.cycles + (storeAccesses m s).length :=
  ((writeOp_runsAs o m s).completes (storeThrough_busWrite_noHandler m _ fun a _ => hn a)).cycles

theorem rmwOp_cycles (o : RmwOp) (m : RmwMode) {s : State} (hn : ∀ a, s.noHandler a) :
    ∃ t, exec (o.instr m) s = .next t ∧ t.cycles = s.cycles + (rmwAccesses m s).length :=
  (modifyMemory_completes (fun v => rmwOperation_eq o v s.p) (exec_rmwOp o m s) fun a _ => hn a).cycles

theorem branch_cycles (o : BranchOp) (rel : Byte) {s : State} (hn : ∀ a, s.noHandler a) :
    ∃ t, exec (o.instr rel) s = .next t ∧ t.cycles = s.cycles + (branchAccesses (branchTaken o s.p) rel s).length :=
  ((branch_runsAs o rel s).completes (by rw [discardReads_noHandler fun a _ => hn a, andThen_next])).cycles

/-- After the fetch every instruction of the opcode map takes a cycle an access. -/
theorem exec_cycles (op : Op) (b1 b2 : Byte) {s : State} (hn : ∀ a, s.noHandler a) :
    ∃ t, exec (op.instr b1 b2) s = .next t ∧ t.cycles = s.cycles + opAccesses op b1 b2 s := by
  cases op with
  | read o k => exact readOp_cycles o _ hn
  | write o k => exact writeOp_cycles o _ hn
  | rmw o k => exact rmwOp_cycles o _ hn
  | branch o => exact branch_cycles o b1 hn
  | acc o => exact ⟨_, (exec_acc o s).trans (implied_noHandler (hn _) _), rfl⟩
  | implied o => exact (implied_completes o (hn _)).cycles
  | push o =>
    cases o with
    | pha => exact (push_completes .pha (hn _) (hn _)).cycles
    | php => exact (push_completes .php (hn _) (hn _)).cycles
  | pull o =>
    cases o with
    | pla => exact (pull_completes .pla (hn _) (hn _) (hn _)).cycles
    | plp => exact (pull_completes .plp (hn _) (hn _) (hn _)).cycles
  | jmpAbs => exact ⟨_, rfl, rfl⟩
  | jmpInd =>
    obtain ⟨-, hind, -⟩ := jumpsComplete (cat b2 b1) s
    exact (hind (hn _) (hn _)).cycles
  | jsr => exact (jsr_completes _ (hn _) (hn _) (hn _)).cycles
  | rts => exact (rts_completes (hn _) (hn _) (hn _) (hn _) (hn _)).cycles
  | rti => exact (rti_completes fun a _ => hn a).cycles
  | brk => exact (brk_completes (hn _) fun a _ => hn a).cycles

/-! ## The cycle table -/

/-- The index crosses a page where the high byte of the sum is another (R205, R300). -/
theorem length_indexedReads (w : Addr) (i : Byte) :
    (indexedReads w i).length = 1 + if hi (indexed w i) = hi w then 0 else 1 := by
  have hsum : (hi (indexed w i) = hi w) ↔ (lo w).toNat + i.toNat < 256 := by
    have hw := w.isLt
    have hb := i.isLt
    rw [← BitVec.toNat_inj, toNat_hi, toNat_hi, toNat_lo, indexed, BitVec.toNat_add, toNat_zext16]
    omega
  unfold indexedReads
  by_cases h : 256 ≤ (lo w).toNat + i.toNat
  · rw [if_pos h, if_neg (hsum.not.2 (by omega))]
    rfl
  · rw [if_neg h, if_pos (hsum.2 (by omega))]
    rfl

theorem readCycles_eq (k : ReadKind) (b1 b2 : Byte) (s : State) :
    readCycles (k.mode b1 b2) s = k.length + (readAccesses (k.mode b1 b2) s).length := by
  cases k with
  | abx | aby =>
    simp only [ReadKind.mode, readCycles, readAccesses, length_indexedReads, ReadKind.length]
    omega
  | izy =>
    simp only [ReadKind.mode, readCycles, readAccesses, length_indexedReads, List.length_append, ReadKind.length,
      List.length_cons, List.length_nil]
    omega
  | _ => rfl

theorem storeCycles_eq (k : WriteKind) (b1 b2 : Byte) (s : State) :
    storeCycles (k.mode b1 b2) = k.length + (storeAccesses (k.mode b1 b2) s).length := by
  cases k <;> rfl

theorem rmwCycles_eq (k : RmwKind) (b1 b2 : Byte) (s : State) :
    rmwCycles (k.mode b1 b2) = k.length + (rmwAccesses (k.mode b1 b2) s).length := by
  cases k <;> rfl

theorem branchTotal_eq (taken : Bool) (rel b : Byte) (s : State) :
    branchTotal taken rel s = 2 + (branchAccesses taken rel (s.fetched b 2)).length := by
  rw [length_branchAccesses, branchTotal]
  change _ = 2 + if taken then if hi (s.pc + 2 + sext16 rel) = hi (s.pc + 2) then 1 else 2 else 0
  split_ifs <;> rfl

/-- The table counts the bytes fetched first and the accesses after them. -/
theorem cyclesOf_instr {b : Byte} {op : Op} (hl : lookup b = some op) (b1 b2 : Byte) (s : State) :
    cyclesOf (op.instr b1 b2) s =
      fetchedBytes (op.instr b1 b2) + opAccesses op b1 b2 (s.fetched b (fetchedBytes (op.instr b1 b2))) := by
  by_cases hj : op = .jsr
  · subst hj
    rfl
  rw [fetchedBytes_instr hl hj]
  cases op with
  | read o k =>
    have htable : cyclesOf ((Op.read o k).instr b1 b2) s = readCycles (k.mode b1 b2) s := by cases o <;> rfl
    exact htable.trans (readCycles_eq k b1 b2 s)
  | write o k =>
    have htable : cyclesOf ((Op.write o k).instr b1 b2) s = storeCycles (k.mode b1 b2) := by cases o <;> rfl
    exact htable.trans (storeCycles_eq k b1 b2 s)
  | rmw o k =>
    have htable : cyclesOf ((Op.rmw o k).instr b1 b2) s = rmwCycles (k.mode b1 b2) := by
      cases o with
      | shift o => cases o <;> rfl
      | inc | dec => rfl
    exact htable.trans (rmwCycles_eq k b1 b2 s)
  | branch o =>
    have htable : cyclesOf ((Op.branch o).instr b1 b2) s = branchTotal (branchTaken o s.p) b1 s := by cases o <;> rfl
    exact htable.trans (branchTotal_eq _ b1 b s)
  | acc o => cases o <;> rfl
  | implied o => cases o <;> rfl
  | push o => cases o <;> rfl
  | pull o => cases o <;> rfl
  | jsr => exact absurd rfl hj
  | jmpAbs | jmpInd | rts | rti | brk => rfl

theorem readCycles_bounds (m : ReadMode) (s : State) : 2 ≤ readCycles m s ∧ readCycles m s ≤ 7 := by
  cases m with
  | abx w | aby w | izy z =>
    simp only [readCycles]
    split_ifs <;> omega
  | _ => exact ⟨Nat.le_of_ble_eq_true rfl, Nat.le_of_ble_eq_true rfl⟩

theorem storeCycles_bounds (m : WriteMode) : 2 ≤ storeCycles m ∧ storeCycles m ≤ 7 := by
  cases m <;> exact ⟨Nat.le_of_ble_eq_true rfl, Nat.le_of_ble_eq_true rfl⟩

theorem rmwCycles_bounds (m : RmwMode) : 2 ≤ rmwCycles m ∧ rmwCycles m ≤ 7 := by
  cases m <;> exact ⟨Nat.le_of_ble_eq_true rfl, Nat.le_of_ble_eq_true rfl⟩

theorem shiftCycles_bounds (m : ShiftMode) : 2 ≤ shiftCycles m ∧ shiftCycles m ≤ 7 := by
  cases m with
  | acc => exact ⟨Nat.le_of_ble_eq_true rfl, Nat.le_of_ble_eq_true rfl⟩
  | mem m => exact rmwCycles_bounds m

theorem branchTotal_bounds (taken : Bool) (rel : Byte) (s : State) :
    2 ≤ branchTotal taken rel s ∧ branchTotal taken rel s ≤ 7 := by
  unfold branchTotal
  split_ifs <;> omega

theorem cyclesOf_bounds (i : Instr) (s : State) : 2 ≤ cyclesOf i s ∧ cyclesOf i s ≤ 7 := by
  cases i with
  | lda m | ldx m | ldy m | adc m | sbc m | cmp m | cpx m | cpy m | and m | ora m | eor m | bit m => exact readCycles_bounds m s
  | sta m | stx m | sty m => exact storeCycles_bounds m
  | asl m | lsr m | rol m | ror m => exact shiftCycles_bounds m
  | inc m | dec m => exact rmwCycles_bounds m
  | bcc r | bcs r | beq r | bne r | bmi r | bpl r | bvc r | bvs r => exact branchTotal_bounds _ r s
  | jmp m => cases m <;> exact ⟨Nat.le_of_ble_eq_true rfl, Nat.le_of_ble_eq_true rfl⟩
  | _ => exact ⟨Nat.le_of_ble_eq_true rfl, Nat.le_of_ble_eq_true rfl⟩

/-- Settles O10: the step fetches its bytes and makes the accesses of its operation, or it is the NOP of an illegal opcode. -/
theorem cyclesAreThoseOfTheTable : Obligations.CyclesAreThoseOfTheTable := by
  intro s i code hf hn hd hs hill
  refine ⟨(cyclesOf_bounds i s).1, (cyclesOf_bounds i s).2, ?_⟩
  obtain ⟨b, hl, rfl, hcode⟩ | ⟨b, op, b1, b2, hl, rfl, hcode⟩ := decode_eq_ok hd
  · subst hcode
    have hpc : s.mem.peek (s.pc + 0#16) = some b := hs 0 (Nat.succ_pos _)
    rw [BitVec.add_zero] at hpc
    have hnop : (s.fetched b 1).platform.illegalPolicy = .nop2 := hill b rfl
    rw [step_illegal ((lookup_none b).1 hl) hf hpc, execIll_nop2 hnop, discardRead_noHandler (s := s.fetched b 1) (hn _)]
    exact ⟨_, rfl, rfl⟩
  · rw [List.append_nil] at hcode
    subst hcode
    rw [stepRunsDecodedInstruction s b _ _ hf hd hs, cyclesOf_instr hl]
    obtain ⟨t, ht, hc⟩ := exec_cycles op b1 b2 (s := s.fetched b (fetchedBytes (op.instr b1 b2))) hn
    exact ⟨t, ht, hc.trans (Nat.add_assoc _ _ _)⟩

end Sys2Proof.Machine
end
